-- ==== Sys2Proof/Word.lean ====
section
/-! DEFINITION. Word.lean: the widths of the block (00_scope.md R4, R5; 30_encoding.md R46, R55). -/

namespace Sys2Proof

/-- An operand slot, an operand latch or RESULT: ARGW = 32 bits, two's complement where a rule compares (R4, R5). -/
abbrev Word := BitVec 32

/-- A register value, an address, a command byte or a pin number: DATAW = PINW = 8 bits (R4). -/
abbrev Byte := BitVec 8

/-- A level on a pin: one bit, `false` is low (0) and `true` is high (1) (R5). -/
abbrev Level := Bool

/-- The host command word CMD: 200 bits (R46). -/
abbrev CommandWord := BitVec 200

/-- A wire command byte (bits 7:0) followed by one data byte (bits 15:8) (R53, R55). -/
abbrev WireFrame := BitVec 16

end Sys2Proof
end

