-- ==== Sys2Proof/Config.lean ====
section
/-! DEFINITION. Config.lean: the parameters of the block (00_scope.md R4) and the free values, which have no body. -/

namespace Sys2Proof

/-- FAULT_POLICY, the OPEN parameter of 00_scope.md R4: what a fatal error leaves behind (60_exceptions.md R126). -/
inductive FaultPolicy where
  /-- The reference behaviour: FAULT_KIND is latched and every later word is refused. -/
  | halt
  /-- The recommended behaviour: the error shows in the response only. -/
  | report
deriving DecidableEq, Repr

/-- VERIFY_POLICY of 00_scope.md R4: the spec defines one value (60_exceptions.md R122). -/
inductive VerifyPolicy where
  | advisory
deriving DecidableEq, Repr

namespace Config

/-- PIN_MIN (R4). -/
def pinMin : Int := 2
/-- PIN_MAX (R4). -/
def pinMax : Int := 27
/-- T_SETUP, microseconds (R4). -/
def tSetup : Nat := 1
/-- T_HIGH_W, microseconds (R4). -/
def tHighW : Nat := 2
/-- T_POST_W, microseconds (R4). -/
def tPostW : Nat := 1
/-- T_R1, microseconds (R4). -/
def tR1 : Nat := 1
/-- T_R2, microseconds (R4). -/
def tR2 : Nat := 1
/-- T_R3, microseconds (R4). -/
def tR3 : Nat := 1
/-- T_CE, microseconds (R4). -/
def tCe : Nat := 5
/-- T_DIR_R, microseconds (R4). -/
def tDirR : Nat := 1

/-- The default of FAULT_POLICY (R4). -/
def defaultFaultPolicy : FaultPolicy := .halt

/-- The one value of VERIFY_POLICY (R4, R122); log entry 25. -/
def verifyPolicy : VerifyPolicy := .advisory

/-- FREE VALUE. The level the environment returns to the `n`-th `Read` when State lists no answer for it
(00_scope.md R7, R8; 93_implementation_defined.md U2: any value). Log entry 1; safe. -/
opaque freeLevel (n : Nat) : Level

/-- FREE VALUE. What register number `reg` holds where the spec calls its content unspecified, the `era`-th time
that happens (10_state.md R12, R15, R23). Log entries 6 and 7; safe. -/
opaque unspecified (era reg : Nat) : Word

end Config
end Sys2Proof
end

