-- ==== Sys2Proof/Syntax.lean ====
section
/-! DEFINITION. Syntax.lean: the instructions, one constructor per row of spec/opcode_table.json. The 28 host operations
(30_encoding.md R49) carry the operands their format names (R47, R48); the 16 wire commands (R54) carry the data byte a
write sends (R55). -/

namespace Sys2Proof

inductive Instr where
  /-- SETUP, format P (R114). -/
  | setup (clk dat ce : Word)
  /-- RD_SEC (R94). -/
  | rdSec
  /-- RD_MIN (R95). -/
  | rdMin
  /-- RD_HOUR (R96). -/
  | rdHour
  /-- RD_MDAY (R97). -/
  | rdMday
  /-- RD_MON (R98). -/
  | rdMon
  /-- RD_WDAY (R99). -/
  | rdWday
  /-- RD_YEAR (R100). -/
  | rdYear
  /-- WR_SEC, format V (R101). -/
  | wrSec (v : Word)
  /-- WR_MIN, format V (R102). -/
  | wrMin (v : Word)
  /-- WR_HOUR, format V (R103). -/
  | wrHour (v : Word)
  /-- WR_MDAY, format V (R104). -/
  | wrMday (v : Word)
  /-- WR_MON, format V (R105). -/
  | wrMon (v : Word)
  /-- WR_WDAY, format V (R106). -/
  | wrWday (v : Word)
  /-- WR_YEAR, format V (R107). -/
  | wrYear (v : Word)
  /-- RD_CH (R108). -/
  | rdCh
  /-- WR_CH, format B (R109). -/
  | wrCh (h : Word)
  /-- RD_24H (R110). -/
  | rd24h
  /-- RD_PM (R111). -/
  | rdPm
  /-- RD_WP (R112). -/
  | rdWp
  /-- WR_WP, format B (R113). -/
  | wrWp (p : Word)
  /-- WR_DATE, format D (R115). -/
  | wrDate (year month mday hours minutes seconds : Word)
  /-- BCD_ENC, format V (R89). -/
  | bcdEnc (d : Word)
  /-- BCD_DEC, format C (R90). -/
  | bcdDec (t : Word) (raw : Byte)
  /-- CHK_RNG, format R (R91). -/
  | chkRng (lo hi v : Word)
  /-- X_RD, format A (R80). -/
  | xRd (addr : Byte)
  /-- X_WR, format X (R81). -/
  | xWr (addr v : Byte)
  /-- X_WRCHK, format X (R82). -/
  | xWrchk (addr v : Byte)
  /-- W.SEC, wire command 0x80 and its data byte (R54, R77). -/
  | wSec (v : Byte)
  /-- R.SEC, wire command 0x81 (R54, R76). -/
  | rSec
  /-- W.MIN, wire command 0x82. -/
  | wMin (v : Byte)
  /-- R.MIN, wire command 0x83. -/
  | rMin
  /-- W.HOUR, wire command 0x84. -/
  | wHour (v : Byte)
  /-- R.HOUR, wire command 0x85. -/
  | rHour
  /-- W.MDAY, wire command 0x86. -/
  | wMday (v : Byte)
  /-- R.MDAY, wire command 0x87. -/
  | rMday
  /-- W.MON, wire command 0x88. -/
  | wMon (v : Byte)
  /-- R.MON, wire command 0x89. -/
  | rMon
  /-- W.WDAY, wire command 0x8A. -/
  | wWday (v : Byte)
  /-- R.WDAY, wire command 0x8B. -/
  | rWday
  /-- W.YEAR, wire command 0x8C. -/
  | wYear (v : Byte)
  /-- R.YEAR, wire command 0x8D. -/
  | rYear
  /-- W.WP, wire command 0x8E. -/
  | wWp (v : Byte)
  /-- R.WP, wire command 0x8F. -/
  | rWp
deriving DecidableEq, Repr

end Sys2Proof
end

