-- ==== Sys2Proof/Decode.lean ====
section
/-! DEFINITION. Decode.lean: from the bits on the host port to an instruction, or a rejection by name (30_encoding.md R46
to R50, R53, R54), and the encoder. Two encodings exist: the 200-bit host command word and the wire frame. -/

namespace Sys2Proof

/-- What is presented to the block: a host command word (R46), or a wire command byte with its data byte standing alone
(R53, R55; DESIGN CHOICE, log entry 8). -/
inductive Presented where
  | command (w : CommandWord)
  | frame (w : WireFrame)
deriving DecidableEq, Repr

/-- Why the decoder rejects. -/
inductive DecodeError where
  /-- OPC is not in the table of R49 (R50). -/
  | reservedOpcode (opc : Byte)
  /-- The command byte is not one of the sixteen of R54. -/
  | unknownWireByte (cmd : Byte)
deriving DecidableEq, Repr

/-- OPC = CMD[7:0] (R46). -/
def opcodeOf (w : CommandWord) : Byte := w.extractLsb' 0 8

/-- S[k] = CMD[39+32k : 8+32k] (R46). -/
def slotOf (w : CommandWord) (k : Nat) : Word := w.extractLsb' (8 + 32 * k) 32

/-- A byte operand: S[k][7:0], the upper 24 bits ignored (R48). -/
def slotByte (w : CommandWord) (k : Nat) : Byte := (slotOf w k).extractLsb' 0 8

/-- The host command word (R46 to R49). Slots a format does not name are ignored (R47). -/
def decodeCommand (w : CommandWord) : Except DecodeError Instr :=
  match (opcodeOf w).toNat with
  | 0x00 => .ok (.setup (slotOf w 0) (slotOf w 1) (slotOf w 2))
  | 0x10 => .ok .rdSec
  | 0x11 => .ok .rdMin
  | 0x12 => .ok .rdHour
  | 0x13 => .ok .rdMday
  | 0x14 => .ok .rdMon
  | 0x15 => .ok .rdWday
  | 0x16 => .ok .rdYear
  | 0x20 => .ok (.wrSec (slotOf w 0))
  | 0x21 => .ok (.wrMin (slotOf w 0))
  | 0x22 => .ok (.wrHour (slotOf w 0))
  | 0x23 => .ok (.wrMday (slotOf w 0))
  | 0x24 => .ok (.wrMon (slotOf w 0))
  | 0x25 => .ok (.wrWday (slotOf w 0))
  | 0x26 => .ok (.wrYear (slotOf w 0))
  | 0x30 => .ok .rdCh
  | 0x31 => .ok (.wrCh (slotOf w 0))
  | 0x32 => .ok .rd24h
  | 0x33 => .ok .rdPm
  | 0x34 => .ok .rdWp
  | 0x35 => .ok (.wrWp (slotOf w 0))
  | 0x40 => .ok (.wrDate (slotOf w 0) (slotOf w 1) (slotOf w 2) (slotOf w 3) (slotOf w 4) (slotOf w 5))
  | 0x50 => .ok (.bcdEnc (slotOf w 0))
  | 0x51 => .ok (.bcdDec (slotOf w 0) (slotByte w 1))
  | 0x52 => .ok (.chkRng (slotOf w 0) (slotOf w 1) (slotOf w 2))
  | 0x60 => .ok (.xRd (slotByte w 0))
  | 0x61 => .ok (.xWr (slotByte w 0) (slotByte w 1))
  | 0x62 => .ok (.xWrchk (slotByte w 0) (slotByte w 1))
  | _ => .error (.reservedOpcode (opcodeOf w))

/-- The command byte of a wire frame: bits 7:0, sent first (R53). -/
def wireByteOf (w : WireFrame) : Byte := w.extractLsb' 0 8

/-- The data byte of a wire frame: bits 15:8, sent second (R55). -/
def wireDataOf (w : WireFrame) : Byte := w.extractLsb' 8 8

/-- The wire command table (R54). The data byte of a read is driven by the chip (R55), so a read frame's is ignored. -/
def decodeFrame (w : WireFrame) : Except DecodeError Instr :=
  match (wireByteOf w).toNat with
  | 0x80 => .ok (.wSec (wireDataOf w))
  | 0x81 => .ok .rSec
  | 0x82 => .ok (.wMin (wireDataOf w))
  | 0x83 => .ok .rMin
  | 0x84 => .ok (.wHour (wireDataOf w))
  | 0x85 => .ok .rHour
  | 0x86 => .ok (.wMday (wireDataOf w))
  | 0x87 => .ok .rMday
  | 0x88 => .ok (.wMon (wireDataOf w))
  | 0x89 => .ok .rMon
  | 0x8A => .ok (.wWday (wireDataOf w))
  | 0x8B => .ok .rWday
  | 0x8C => .ok (.wYear (wireDataOf w))
  | 0x8D => .ok .rYear
  | 0x8E => .ok (.wWp (wireDataOf w))
  | 0x8F => .ok .rWp
  | _ => .error (.unknownWireByte (wireByteOf w))

def decode : Presented → Except DecodeError Instr
  | .command w => decodeCommand w
  | .frame w => decodeFrame w

/-- The command word with the given opcode and slots (R46). -/
def packCommand (opc : Byte) (s0 s1 s2 s3 s4 s5 : Word) : CommandWord :=
  s5 ++ s4 ++ s3 ++ s2 ++ s1 ++ s0 ++ opc

/-- The command word of a format that names no slot (N) or some of them; the ignored slots are 0. -/
def commandOf (opc : Byte) (s0 : Word := 0) (s1 : Word := 0) (s2 : Word := 0) (s3 : Word := 0) (s4 : Word := 0)
    (s5 : Word := 0) : Presented :=
  .command (packCommand opc s0 s1 s2 s3 s4 s5)

/-- A byte operand in its slot, the ignored bits 0 (R48). -/
def byteSlot (b : Byte) : Word := b.setWidth 32

/-- A wire frame: the command byte in bits 7:0, the data byte in bits 15:8. -/
def frameOf (cmd data : Byte) : Presented := .frame (data ++ cmd)

/-- The encoder, from the tables of R49 and R54. -/
def encode : Instr → Presented
  | .setup c d e => commandOf 0x00 c d e
  | .rdSec => commandOf 0x10
  | .rdMin => commandOf 0x11
  | .rdHour => commandOf 0x12
  | .rdMday => commandOf 0x13
  | .rdMon => commandOf 0x14
  | .rdWday => commandOf 0x15
  | .rdYear => commandOf 0x16
  | .wrSec v => commandOf 0x20 v
  | .wrMin v => commandOf 0x21 v
  | .wrHour v => commandOf 0x22 v
  | .wrMday v => commandOf 0x23 v
  | .wrMon v => commandOf 0x24 v
  | .wrWday v => commandOf 0x25 v
  | .wrYear v => commandOf 0x26 v
  | .rdCh => commandOf 0x30
  | .wrCh h => commandOf 0x31 h
  | .rd24h => commandOf 0x32
  | .rdPm => commandOf 0x33
  | .rdWp => commandOf 0x34
  | .wrWp p => commandOf 0x35 p
  | .wrDate y mo dd h mi s => commandOf 0x40 y mo dd h mi s
  | .bcdEnc d => commandOf 0x50 d
  | .bcdDec t raw => commandOf 0x51 t (byteSlot raw)
  | .chkRng lo hi v => commandOf 0x52 lo hi v
  | .xRd a => commandOf 0x60 (byteSlot a)
  | .xWr a v => commandOf 0x61 (byteSlot a) (byteSlot v)
  | .xWrchk a v => commandOf 0x62 (byteSlot a) (byteSlot v)
  | .wSec v => frameOf 0x80 v
  | .rSec => frameOf 0x81 0
  | .wMin v => frameOf 0x82 v
  | .rMin => frameOf 0x83 0
  | .wHour v => frameOf 0x84 v
  | .rHour => frameOf 0x85 0
  | .wMday v => frameOf 0x86 v
  | .rMday => frameOf 0x87 0
  | .wMon v => frameOf 0x88 v
  | .rMon => frameOf 0x89 0
  | .wWday v => frameOf 0x8A v
  | .rWday => frameOf 0x8B 0
  | .wYear v => frameOf 0x8C v
  | .rYear => frameOf 0x8D 0
  | .wWp v => frameOf 0x8E v
  | .rWp => frameOf 0x8F 0

/-- An instruction's bits as spec/opcode_table.json numbers them, laid out for the decoder. The table holds both
encodings; a command byte 0x80..0x8F in at most 16 bits is a wire row, since those values are reserved opcodes (R50). -/
def tableWord (nbits w : Nat) : Presented :=
  let v := w % 2 ^ nbits
  if nbits ≤ 16 ∧ 0x80 ≤ v % 256 ∧ v % 256 ≤ 0x8F then .frame (BitVec.ofNat 16 v) else .command (BitVec.ofNat 200 v)

/-- What the decoder reads from a row's bits (the bits above `nbits` are 0). -/
def decodeTableWord (nbits w : Nat) : Option Instr :=
  match decode (tableWord nbits w) with
  | .ok i => some i
  | .error _ => none

end Sys2Proof
end

