-- ==== Sys2Proof/Machine/State.lean ====
section
/-! DEFINITION. Machine/State.lean: every piece of state the spec gives the block (10_state.md R9 to R18), the inputs a
step reads, the outcomes of a step, and the state after reset (R23). -/

namespace Sys2Proof.Machine

/-- The mode of a pin, IN or OUT (00_scope.md R7). -/
inductive PinMode where
  | input
  | output
deriving DecidableEq, Repr

/-- A GPIO event (00_scope.md R7); a `read` carries the level it returned (10_state.md R18). -/
inductive Event where
  | init
  | setDir (pin : Byte) (mode : PinMode)
  | write (pin : Byte) (level : Level)
  | read (pin : Byte) (level : Level)
  | delay (us : Nat)
deriving DecidableEq, Repr

/-- One VerificationMismatch: the address as given, the intended byte, the byte read back (R18, 30_encoding.md R52). -/
structure Diagnostic where
  addr : Byte
  want : Byte
  got : Byte
deriving DecidableEq, Repr

/-- The Device Handle: PIN_CLK, PIN_DAT, PIN_CE (R9). -/
structure Handle where
  clk : Byte
  dat : Byte
  ce : Byte
deriving DecidableEq, Repr

/-- FAULT_KIND (R11); the code 3 never holds, so it has no constructor. -/
inductive FaultKind where
  | none
  | config
  | range
deriving DecidableEq, Repr

/-- RSP_KIND (R13). -/
inductive RspKind where
  | ok
  | configError
  | rangeError
  | refused
deriving DecidableEq, Repr

/-- PHASE, the step of a transaction (R15). -/
inductive Phase where
  | idle
  | start
  | dirset
  | cmd
  | data
  | stop
deriving DecidableEq, Repr

/-- Six registers of ARGW bits: the operand latches (R12), the six slots of a command word, or T_RB (R16). -/
structure Six where
  x0 : Word
  x1 : Word
  x2 : Word
  x3 : Word
  x4 : Word
  x5 : Word
deriving DecidableEq, Repr

/-- The transaction engine registers PHASE, DIRN, BITIDX, SR (R15). -/
structure Engine where
  phase : Phase
  dirn : Bool
  bitIdx : BitVec 3
  sr : Byte
deriving DecidableEq, Repr

/-- The temporaries T_CUR, T_W, T_RB[0..5] (R16). -/
structure Temps where
  cur : Byte
  w : Byte
  rb : Six
deriving DecidableEq, Repr

/-- The pin image CLK_O, DAT_O, CE_O, DAT_DIR (R17). -/
structure PinImage where
  clkO : Level
  datO : Level
  ceO : Level
  datDir : PinMode
deriving DecidableEq, Repr

/-- What may cut a running operation from outside. -/
inductive Disturbance where
  /-- The reset input is asserted (70_reset_and_hazards.md R133). -/
  | reset
  /-- The GPIO primitive being called never returns (93_implementation_defined.md U14). -/
  | hang
deriving DecidableEq, Repr

/-- A disturbance that arrives when the running operation has issued `after` events, before its next one. A reset that has
no such event to come before arrives before the response (log entry 2); a primitive that is not called cannot hang. -/
structure Cut where
  after : Nat
  kind : Disturbance
deriving DecidableEq, Repr

/-- What the outside does next: present something, with the disturbance (if any) that meets the operation, or assert
reset between operations (00_scope.md R8, 70_reset_and_hazards.md R133). -/
inductive HostInput where
  | present (p : Presented) (cut : Option Cut)
  | reset
deriving DecidableEq, Repr

/-- The state of the block and, after `diag`, the inputs and parameters of the model. -/
structure State where
  /-- PIN_CLK, PIN_DAT, PIN_CE (R9). -/
  handle : Handle
  /-- CONFIGURED (R10). -/
  configured : Bool
  /-- FAULT_KIND (R11). -/
  faultKind : FaultKind
  /-- Operand latches A[0..5] (R12). -/
  a : Six
  /-- RESULT (R13). -/
  result : Word
  /-- RSP_KIND (R13). -/
  rspKind : RspKind
  /-- BUSY (R14). -/
  busy : Bool
  /-- OP (R14). -/
  op : Byte
  /-- SEQ, the number of events the running operation has issued (R14; log entry 15). -/
  seq : Nat
  /-- PHASE, DIRN, BITIDX, SR (R15). -/
  engine : Engine
  /-- T_CUR, T_W, T_RB (R16). -/
  temps : Temps
  /-- CLK_O, DAT_O, CE_O, DAT_DIR (R17). -/
  image : PinImage
  /-- TRACE, ghost, oldest event first (R18). -/
  trace : List Event
  /-- DIAG, ghost, oldest first (R18). -/
  diag : List Diagnostic
  /-- CMD, the command word on the host port, an input (30_encoding.md R46). -/
  cmd : CommandWord
  /-- What the outside does next, oldest first. -/
  script : List HostInput
  /-- The levels the environment returns to the next `Read` events, next first (R7; log entry 1). -/
  answers : List Level
  /-- The disturbance of the operation now accepted (log entries 2, 12). -/
  cut : Option Cut
  /-- FAULT_POLICY, a parameter no step changes (00_scope.md R4; log entry 4). -/
  policy : FaultPolicy
  /-- The model's counter of `Read` events, which numbers the free levels (log entry 1). -/
  reads : Nat
  /-- The model's counter that numbers the free contents of unspecified registers (log entry 7). -/
  era : Nat
deriving DecidableEq, Repr

/-- Why the model stops with a fault. -/
inductive Fault where
  /-- A GPIO primitive never returned, so the block is stuck with BUSY = 1 (U14). Raised where `cut` says so; safe. -/
  | primitiveNeverReturned
deriving DecidableEq, Repr

/-- Why the model refuses a step. -/
inductive Refusal where
  /-- An instruction that has no meaning yet, by its mnemonic. Raised by exec's arms only; safe. -/
  | notModelled (mnemonic : String)
  /-- Something is presented while BUSY = 1: it is not sampled (30_encoding.md R61, U11: refuse). Raised by
  `runOperation` and `step`; no step of the model ends with BUSY = 1; safe. -/
  | busy
  /-- `encode` was given a number outside 0..99, where it has no value (42_codec_validator.md R84, U3: refuse). Raised
  by `encodeByte`; no operation reaches it; safe. -/
  | encodeOutsideDomain
deriving DecidableEq, Repr

/-- Six registers holding 0. -/
def Six.zero : Six := ⟨0, 0, 0, 0, 0, 0⟩

/-- The state after reset (R23). The registers R23 calls unspecified hold 0, the pin image 0 and IN: DESIGN CHOICE, log
entry 5. The inputs are empty and FAULT_POLICY is its default HALT (log entries 1, 4, 10). -/
def State.reset : State where
  handle := ⟨0, 0, 0⟩
  configured := false
  faultKind := .none
  a := Six.zero
  result := 0
  rspKind := .ok
  busy := false
  op := 0
  seq := 0
  engine := ⟨.idle, false, 0, 0⟩
  temps := ⟨0, 0, Six.zero⟩
  image := ⟨false, false, false, .input⟩
  trace := []
  diag := []
  cmd := 0
  script := []
  answers := []
  cut := none
  policy := Config.defaultFaultPolicy
  reads := 0
  era := 0

end Sys2Proof.Machine
end

