-- ==== Sys2Proof/Machine/Events.lean ====
section
/-! DEFINITION. Machine/Events.lean: the event lists of the procedures as pure data, the second of the two views of
10_state.md R14 (an operation as one list of events). The meanings do not use them; claims do. -/

namespace Sys2Proof.Machine

/-- The seven events of `writeBit(b)` (40_bit_byte_channel.md R62). -/
def writeBitEvents (h : Handle) (b : Level) : List Event :=
  [.write h.dat b, .delay 1, .write h.clk true, .delay 2, .write h.dat false, .delay 1, .write h.clk false]

/-- The six events of `readBit()` that returns `b` (R63). -/
def readBitEvents (h : Handle) (b : Level) : List Event :=
  [.read h.dat b, .delay 1, .write h.clk true, .delay 1, .write h.clk false, .delay 1]

/-- The bit numbers in the order of transfer, least significant first (20_memory.md R36). -/
def bitOrder : List Nat := [0, 1, 2, 3, 4, 5, 6, 7]

/-- `writeByte(v)` (R66). -/
def writeByteEvents (h : Handle) (v : Byte) : List Event :=
  bitOrder.flatMap fun i => writeBitEvents h (v.getLsbD i)

/-- `readByte()` that returns `v` (R67). -/
def readByteEvents (h : Handle) (v : Byte) : List Event :=
  bitOrder.flatMap fun i => readBitEvents h (v.getLsbD i)

/-- The Stop step (41_command_transaction.md R75). -/
def stopEvents (h : Handle) : List Event :=
  [.write h.clk false, .write h.ce false, .write h.dat false]

/-- `regRead(addr)` that returns `v` (R76). -/
def regReadEvents (h : Handle) (addr v : Byte) : List Event :=
  [.write h.ce true, .delay 5, .setDir h.dat .input, .delay 1] ++ writeByteEvents h (addr ||| 0x01) ++
    readByteEvents h v ++ stopEvents h

/-- `regWrite(addr, value)` (R77). -/
def regWriteEvents (h : Handle) (addr value : Byte) : List Event :=
  [.write h.ce true, .delay 5, .setDir h.dat .output] ++ writeByteEvents h (addr &&& 0xFE) ++
    writeByteEvents h value ++ stopEvents h

/-- `writeAndCheck(addr, value)` whose verifying read returns `got` (R79). -/
def writeAndCheckEvents (h : Handle) (addr value got : Byte) : List Event :=
  regWriteEvents h addr value ++ regReadEvents h (addr ||| 0x01) got

/-- The diagnostics of a `writeAndCheck` (R79, 60_exceptions.md R122). -/
def mismatches (addr value got : Byte) : List Diagnostic :=
  if got = value then [] else [⟨addr, value, got⟩]

/-- The events of a successful SETUP (44_date_setup.md R114). -/
def setupEvents (h : Handle) : List Event :=
  [.init, .setDir h.clk .output, .setDir h.dat .output, .setDir h.ce .output] ++ stopEvents h

/-- The bus time an event stands for at least, in microseconds (40_bit_byte_channel.md R65). -/
def Event.time : Event → Nat
  | .delay us => us
  | .init => 0
  | .setDir _ _ => 0
  | .write _ _ => 0
  | .read _ _ => 0

/-- The sum of the `Delay` arguments (70_reset_and_hazards.md R154). -/
def minimumTime (es : List Event) : Nat := (es.map Event.time).sum

/-- Is the event a `Read`? -/
def Event.isRead : Event → Bool
  | .read _ _ => true
  | .init => false
  | .setDir _ _ => false
  | .write _ _ => false
  | .delay _ => false

end Sys2Proof.Machine
end

