-- ==== Sys2Proof/Machine/Ops.lean ====
section
/-! DEFINITION. Machine/Ops.lean: the engine's effects, the operations over registers and pins, acceptance
(30_encoding.md R61), the end of an operation, fatal error entry (60_exceptions.md R126) and reset (70_reset_and_hazards.md
R133), which is the only way back from an error (R127). -/

namespace Sys2Proof.Machine

/-! ### What the host reads -/

/-- The code of FAULT_KIND (10_state.md R11). -/
def FaultKind.code : FaultKind → BitVec 2
  | .none => 0
  | .config => 1
  | .range => 2

/-- The code of RSP_KIND (R13, 30_encoding.md R51). -/
def RspKind.code : RspKind → BitVec 2
  | .ok => 0
  | .configError => 1
  | .rangeError => 2
  | .refused => 3

/-- STATUS: BUSY in bit 0, CONFIGURED in bit 1, FAULT_KIND in bits 3:2 (R21). -/
def State.status (s : State) : BitVec 4 :=
  s.faultKind.code ++ BitVec.ofBool s.configured ++ BitVec.ofBool s.busy

/-- RSP = RSP_KIND in bits 33:32, RESULT in bits 31:0 (30_encoding.md R51). -/
def State.response (s : State) : BitVec 34 := s.rspKind.code ++ s.result

/-- DIAGW = addr, want, got from the high bits down (30_encoding.md R52). -/
def Diagnostic.word (d : Diagnostic) : BitVec 24 := d.addr ++ d.want ++ d.got

/-! ### The engine -/

/-- The two fatal error kinds (60_exceptions.md R119). -/
inductive FatalError where
  | configuration
  | range
deriving DecidableEq, Repr

/-- Why an operation is left before its end. -/
inductive Abort where
  /-- `raise K` (R126). -/
  | raised (e : FatalError)
  /-- A disturbance from outside. -/
  | cut (d : Disturbance)
  /-- `encode` outside its domain (U3). -/
  | encodeOutsideDomain
deriving DecidableEq, Repr

/-- A procedure of the engine: it reads and writes State and returns a value or leaves early. -/
abbrev Eng := EStateM Abort State

/-- Read something of the state. -/
def look {α : Type} (f : State → α) : Eng α := fun s => .ok (f s) s

/-- Change the state. -/
def update (f : State → State) : Eng Unit := fun s => .ok () (f s)

/-- Leave the operation. -/
def leave {α : Type} (r : Abort) : Eng α := fun s => .error r s

/-- `raise K` (R126): what it does to the state is `State.takeFatal`. -/
def raise {α : Type} (e : FatalError) : Eng α := leave (.raised e)

/-! ### Events and pins -/

/-- Loading the pin image (10_state.md R17): a `Write` loads each output register whose pin it names, a `SetDir` on the
data pin loads DAT_DIR. Pins are compared by number, so equal pin numbers alias (log entry 23). -/
def PinImage.load (h : Handle) (p : PinImage) : Event → PinImage
  | .write pin l =>
    { p with
      clkO := if pin = h.clk then l else p.clkO
      datO := if pin = h.dat then l else p.datO
      ceO := if pin = h.ce then l else p.ceO }
  | .setDir pin m => { p with datDir := if pin = h.dat then m else p.datDir }
  | .init => p
  | .read _ _ => p
  | .delay _ => p

/-- Issuing one event: TRACE grows by it, SEQ advances by one, the pin image is loaded (R14, R17, R18). -/
def State.issue (e : Event) (s : State) : State :=
  { s with image := s.image.load s.handle e, trace := s.trace ++ [e], seq := s.seq + 1 }

/-- The disturbance due now, if any. -/
def State.dueCut (s : State) : Option Disturbance :=
  match s.cut with
  | some c => if c.after = s.seq then some c.kind else none
  | none => none

/-- The operation goes on unless a disturbance is due. -/
def proceed : Eng Unit := fun s =>
  match s.dueCut with
  | some d => .error (.cut d) s
  | none => .ok () s

/-- Issue an event other than a `Read`. -/
def emit (e : Event) : Eng Unit := do
  proceed
  update (State.issue e)

/-- The level the environment returns to the `k`-th `Read` from here: the listed answer, else free (R7, R8, U2). -/
def State.level (s : State) (k : Nat) : Level :=
  (s.answers[k]?).getD (Config.freeLevel (s.reads + k))

/-- The `j`-th byte the environment will answer from here, bit 0 first (40_bit_byte_channel.md R67). -/
def State.nextByte (s : State) (j : Nat) : Byte :=
  bitOrder.foldl (fun v i => v ||| ((BitVec.ofBool (s.level (8 * j + i))).setWidth 8 <<< i)) 0

/-- One `Read` takes one answer. -/
def State.takeAnswer (s : State) : State :=
  { s with answers := s.answers.drop 1, reads := s.reads + 1 }

/-- `Read(pin)`: the environment's level, recorded in TRACE (R7, R18). -/
def readPin (pin : Byte) : Eng Level := do
  proceed
  let l ← look fun s => s.level 0
  update State.takeAnswer
  update (State.issue (.read pin l))
  pure l

/-! ### Registers whose content the spec calls unspecified -/

def unspecifiedByte (era reg : Nat) : Byte := (Config.unspecified era reg).setWidth 8

/-- Six registers of unspecified content, numbered from `reg`. -/
def unspecifiedSix (era reg : Nat) : Six :=
  ⟨Config.unspecified era reg, Config.unspecified era (reg + 1), Config.unspecified era (reg + 2),
    Config.unspecified era (reg + 3), Config.unspecified era (reg + 4), Config.unspecified era (reg + 5)⟩

/-- Outside a transaction PHASE = IDLE and DIRN, BITIDX, SR are unspecified (R15; log entry 7). -/
def idleEngine (era : Nat) : Engine :=
  ⟨.idle, (Config.unspecified era 0).getLsbD 0, (Config.unspecified era 1).setWidth 3, unspecifiedByte era 2⟩

/-- A transaction is over: PHASE returns to IDLE (R15, 41_command_transaction.md R70). -/
def State.endTransaction (s : State) : State :=
  { s with engine := idleEngine s.era, era := s.era + 1 }

/-! ### The operand latches -/

/-- Latch A[k] (R12); there are six. -/
def Six.get (x : Six) : Nat → Word
  | 0 => x.x0
  | 1 => x.x1
  | 2 => x.x2
  | 3 => x.x3
  | 4 => x.x4
  | _ => x.x5

/-- `x[k]`: read of operand latch A[k] (00_scope.md R6). -/
def operand (k : Nat) : Eng Word := look fun s => s.a.get k

/-- A byte operand `x[k][7:0]` (30_encoding.md R48). -/
def operandByte (k : Nat) : Eng Byte := look fun s => (s.a.get k).extractLsb' 0 8

/-! ### Acceptance -/

/-- Why the block refuses what is presented (30_encoding.md R61, 60_exceptions.md R123). Not recorded anywhere. -/
inductive RefuseCause where
  | halted
  | alreadyConfigured
  | notConfigured
  | operandNotAdmitted
deriving DecidableEq, Repr

/-- What acceptance has to know of an operation: its opcode, whether it needs the handle, whether it is SETUP, whether
its operands are admitted, and what the latches are loaded with. -/
structure OpHead where
  opc : Byte
  needsHandle : Bool
  isSetup : Bool
  admitted : Bool
  latch : State → Six

/-- The tests of R61 in their order, but for the reserved opcode, which the decoder finds; `none` is acceptance. -/
def State.acceptance (s : State) (h : OpHead) : Option RefuseCause :=
  if s.faultKind ≠ .none then some .halted
  else if h.isSetup && s.configured then some .alreadyConfigured
  else if h.needsHandle && !s.configured then some .notConfigured
  else if !h.admitted then some .operandNotAdmitted
  else none

/-- Refusal: RSP_KIND = REFUSED, RESULT = 0 and no other change of the block (R123; log entry 3). -/
def State.refuse (s : State) : State := { s with result := 0, rspKind := .refused, cut := none }

/-- Acceptance: the latches are loaded, OP and BUSY are set, SEQ starts at 0 (R14, R48, R61). -/
def State.begin (s : State) (h : OpHead) : State :=
  { s with a := h.latch s, op := h.opc, seq := 0, busy := true }

/-- The operation is over, by its end or by a fatal error: BUSY and SEQ are 0 (R14, R126); the content of the latches is
unspecified from here on (R12; log entry 7). -/
def State.finish (s : State) : State :=
  { s with busy := false, seq := 0, cut := none, a := unspecifiedSix s.era 3, era := s.era + 1 }

/-- The response of an operation that ends: RSP_KIND = OK and its value (R13, R51). -/
def State.answer (s : State) (v : Word) : State := { s with result := v, rspKind := .ok }.finish

/-! ### Fatal errors and reset -/

/-- RSP_KIND of a fatal error (60_exceptions.md R119). -/
def FatalError.rsp : FatalError → RspKind
  | .configuration => .configError
  | .range => .rangeError

/-- FAULT_KIND of a fatal error (R119). -/
def FatalError.kind : FatalError → FaultKind
  | .configuration => .config
  | .range => .range

/-- Fatal error entry (R126): RSP_KIND, RESULT, BUSY, SEQ and, under HALT, FAULT_KIND; nothing else. -/
def State.takeFatal (s : State) (e : FatalError) : State :=
  { s with
    result := 0
    rspKind := e.rsp
    faultKind := match s.policy with
      | .halt => e.kind
      | .report => s.faultKind }.finish

/-- The reset input (70_reset_and_hazards.md R133): every piece of state takes its value of 10_state.md R23, the
unspecified ones a free value, and the pins stay as they were, since reset issues no event. The ghosts are emptied (R18).
Log entry 6. -/
def State.applyReset (s : State) : State :=
  { s with
    handle := ⟨unspecifiedByte s.era 9, unspecifiedByte s.era 10, unspecifiedByte s.era 11⟩
    configured := false
    faultKind := .none
    a := unspecifiedSix s.era 3
    result := 0
    rspKind := .ok
    busy := false
    op := unspecifiedByte s.era 12
    seq := 0
    engine := idleEngine s.era
    temps := ⟨unspecifiedByte s.era 13, unspecifiedByte s.era 14, unspecifiedSix s.era 15⟩
    trace := []
    diag := []
    cut := none
    era := s.era + 1 }

/-- Is the reset input to be asserted while what is presented is being dealt with? A reset that finds no event left to
come before is still to be asserted at the end (R133; log entry 2). -/
def State.resetPending (s : State) : Bool :=
  match s.cut with
  | some c => decide (c.kind = .reset)
  | none => false

/-- The block is about to give the response `f`: a reset still to come arrives first, and there is no response (R133). -/
def State.respond (f : State → State) (s : State) : State := if s.resetPending then s.applyReset else f s

/-! ### Running an operation -/

/-- How an operation's body ends the step. -/
def conclude : EStateM.Result Abort State Word → Host.Outcome State Fault Refusal
  | .ok v s => .next (s.respond fun s => s.answer v)
  | .error (.raised e) s => .next (s.respond fun s => s.takeFatal e)
  | .error (.cut .reset) s => .next s.applyReset
  | .error (.cut .hang) _ => .fault .primitiveNeverReturned
  | .error .encodeOutsideDomain _ => .refused .encodeOutsideDomain

/-- An operation: what acceptance has to know of it, and the procedure that runs and returns the value of RESULT. -/
structure Operation where
  head : OpHead
  body : Eng Word

/-- One operation from presentation to response (R8, R14, R61): not sampled while BUSY, refused, or run; a reset can come
at any moment of it (R133). -/
def runOperation (o : Operation) (s : State) : Host.Outcome State Fault Refusal :=
  if s.busy then .refused .busy
  else match s.acceptance o.head with
    | some _ => .next (s.respond State.refuse)
    | none => conclude (o.body (s.begin o.head))

/-- The state of an operation accepted in `s` when it has issued `k` events and is about to issue the next (R14: the
small-step view); `none` where it is not accepted, or ends or raises before that. DESIGN CHOICE, log entry 29: R15 fixes no
event boundary for PHASE, DIRN, BITIDX and SR, and this state shows them as set for the event about to be issued, so
between two transactions of one operation PHASE is START of the second and not IDLE. -/
def midway (o : Operation) (k : Nat) (s : State) : Option State :=
  if s.busy then none
  else match s.acceptance o.head with
    | some _ => none
    | none =>
      match o.body { s.begin o.head with cut := some ⟨k, .hang⟩ } with
      | .error (.cut _) s' => some s'
      | .error (.raised _) _ => none
      | .error .encodeOutsideDomain _ => none
      | .ok _ _ => none

end Sys2Proof.Machine
end

