-- ==== Sys2Proof/Machine/Channel.lean ====
section
/-! DEFINITION. Machine/Channel.lean: the Bit Channel and the Byte Channel (40_bit_byte_channel.md). SR holds the byte
being moved and BITIDX the index of the bit (10_state.md R15); they are set before the first event they describe (DESIGN
CHOICE, log entry 29). -/

namespace Sys2Proof.Machine

/-- `writeBit(b)` (R62). -/
def writeBit (b : Level) : Eng Unit := do
  let h ← look State.handle
  emit (.write h.dat b)
  emit (.delay Config.tSetup)
  emit (.write h.clk true)
  emit (.delay Config.tHighW)
  emit (.write h.dat false)
  emit (.delay Config.tPostW)
  emit (.write h.clk false)

/-- `readBit()` (R63): the sample comes before the clock pulse. -/
def readBit : Eng Level := do
  let h ← look State.handle
  let b ← readPin h.dat
  emit (.delay Config.tR1)
  emit (.write h.clk true)
  emit (.delay Config.tR2)
  emit (.write h.clk false)
  emit (.delay Config.tR3)
  pure b

/-- SR <- v (R15). -/
def State.setSr (v : Byte) (s : State) : State := { s with engine := { s.engine with sr := v } }

/-- BITIDX <- i (R15). -/
def State.setBitIdx (i : Nat) (s : State) : State :=
  { s with engine := { s.engine with bitIdx := BitVec.ofNat 3 i } }

/-- Bit `i` of SR goes out. -/
def sendBit (i : Nat) : Eng Unit := do
  update (State.setBitIdx i)
  let b ← look fun s => s.engine.sr.getLsbD s.engine.bitIdx.toNat
  writeBit b

/-- One sampled level is OR-ed into SR at position BITIDX (R15, R67). -/
def State.orBit (b : Level) (s : State) : State :=
  s.setSr (s.engine.sr ||| ((BitVec.ofBool b).setWidth 8 <<< s.engine.bitIdx.toNat))

/-- Bit `i` of SR comes in. -/
def receiveBit (i : Nat) : Eng Unit := do
  update (State.setBitIdx i)
  let b ← readBit
  update (State.orBit b)

/-- The bits of the list, in its order. -/
def sendBits : List Nat → Eng Unit
  | [] => pure ()
  | i :: is => do
    sendBit i
    sendBits is

/-- The bits of the list, in its order. -/
def receiveBits : List Nat → Eng Unit
  | [] => pure ()
  | i :: is => do
    receiveBit i
    receiveBits is

/-- `writeByte(v)`: bits 0 to 7 in this order (R66). -/
def writeByte (v : Byte) : Eng Unit := do
  update (State.setSr v)
  sendBits bitOrder

/-- `readByte()`: SR is cleared, bits 0 to 7 come in in this order (R67, R15). -/
def readByte : Eng Byte := do
  update (State.setSr 0)
  receiveBits bitOrder
  look fun s => s.engine.sr

end Sys2Proof.Machine
end

