-- ==== Sys2Proof/Machine/Operands.lean ====
section
/-! DEFINITION. Machine/Operands.lean: the operand formats (30_encoding.md R47, R48), what each loads into the latches, and
the field descriptor table (R57). -/

namespace Sys2Proof.Machine

/-- The six slots of a command word (R46). -/
def slotsOf (w : CommandWord) : Six :=
  ⟨slotOf w 0, slotOf w 1, slotOf w 2, slotOf w 3, slotOf w 4, slotOf w 5⟩

/-- A slot whose low byte is the operand and whose ignored bits 31:8 are what the port carries (R48; log entry 13). -/
def overlay (slot : Word) (b : Byte) : Word := slot.extractLsb' 8 24 ++ b

/-- A flag operand is admitted only when it is exactly 0 or exactly 1 (R48, R61 test 5). -/
def flagAdmitted (v : Word) : Bool := v == 0 || v == 1

/-- The operand of BCD_ENC is admitted when it is in 0..99 (R61 test 6, 42_codec_validator.md R89). -/
def encAdmitted (v : Word) : Bool := decide (0 ≤ v.toInt) && decide (v.toInt ≤ 99)

/-- Format N: no slot is read; all six are latched and ignored (R47, R48). -/
def formatN (opc : Byte) : OpHead where
  opc := opc
  needsHandle := true
  isSetup := false
  admitted := true
  latch s := slotsOf s.cmd

/-- Format V: S[0] is a signed value. -/
def formatV (opc : Byte) (v : Word) : OpHead :=
  { formatN opc with latch := fun s => { slotsOf s.cmd with x0 := v } }

/-- Format B: S[0] is a flag. -/
def formatB (opc : Byte) (v : Word) : OpHead :=
  { formatV opc v with admitted := flagAdmitted v }

/-- Format P: clock, data and chip-enable pin; SETUP alone, which needs no handle and is refused where one exists. -/
def formatP (opc : Byte) (c d e : Word) : OpHead :=
  { formatN opc with
    needsHandle := false
    isSetup := true
    latch := fun s => { slotsOf s.cmd with x0 := c, x1 := d, x2 := e } }

/-- Format D: year, month, day-of-month, hours, minutes, seconds. -/
def formatD (opc : Byte) (y mo dd h mi se : Word) : OpHead :=
  { formatN opc with latch := fun _ => ⟨y, mo, dd, h, mi, se⟩ }

/-- Format C: widthTag and raw byte; needs no handle. -/
def formatC (opc : Byte) (t : Word) (raw : Byte) : OpHead :=
  { formatN opc with
    needsHandle := false
    latch := fun s => { slotsOf s.cmd with x0 := t, x1 := overlay (slotsOf s.cmd).x1 raw } }

/-- Format R: min, max, value; needs no handle. -/
def formatR (opc : Byte) (lo hi v : Word) : OpHead :=
  { formatN opc with
    needsHandle := false
    latch := fun s => { slotsOf s.cmd with x0 := lo, x1 := hi, x2 := v } }

/-- Format A: an address byte. -/
def formatA (opc : Byte) (a : Byte) : OpHead :=
  { formatN opc with latch := fun s => { slotsOf s.cmd with x0 := overlay (slotsOf s.cmd).x0 a } }

/-- Format X: an address byte and a value byte. -/
def formatX (opc : Byte) (a v : Byte) : OpHead :=
  { formatN opc with
    latch := fun s =>
      { slotsOf s.cmd with x0 := overlay (slotsOf s.cmd).x0 a, x1 := overlay (slotsOf s.cmd).x1 v } }

/-- The format V of BCD_ENC: no handle, operand in 0..99 (R61 tests 4 and 6). -/
def formatVEnc (opc : Byte) (v : Word) : OpHead :=
  { formatV opc v with needsHandle := false, admitted := encAdmitted v }

/-- A wire command standing alone: it needs the handle and brings no slots (DESIGN CHOICE, log entry 8). -/
def formatWire (cmd : Byte) : OpHead :=
  { formatN cmd with latch := fun s => s.a }

/-- One row of the field descriptor table (R57). -/
structure Field where
  writeAddr : Byte
  readAddr : Byte
  min : Word
  max : Word
  widthTag : Int
deriving DecidableEq, Repr

namespace Field

def seconds : Field := ⟨0x80, 0x81, 0, 59, 7⟩
def minutes : Field := ⟨0x82, 0x83, 0, 59, 7⟩
/-- The maximum is 24 (R57, R147; log entry 22). -/
def hours : Field := ⟨0x84, 0x85, 0, 24, 6⟩
def mday : Field := ⟨0x86, 0x87, 1, 31, 6⟩
def month : Field := ⟨0x88, 0x89, 1, 12, 5⟩
def wday : Field := ⟨0x8A, 0x8B, 1, 7, 3⟩
def year : Field := ⟨0x8C, 0x8D, 0, 99, 8⟩

end Field

end Sys2Proof.Machine
end

