-- ==== Sys2Proof/Machine/Transaction.lean ====
section
/-! DEFINITION. Machine/Transaction.lean: the Command Transaction (41_command_transaction.md) and its three test-access
operations. -/

namespace Sys2Proof.Machine

/-- PHASE <- p (10_state.md R15), set before the first event of the step (DESIGN CHOICE, log entry 29). -/
def State.setPhase (p : Phase) (s : State) : State := { s with engine := { s.engine with phase := p } }

/-- Start (R71); DIRN is 1 for a read (10_state.md R15). -/
def startStep (isRead : Bool) : Eng Unit := do
  update fun s => { s with engine := { s.engine with phase := .start, dirn := isRead } }
  let h ← look State.handle
  emit (.write h.ce true)
  emit (.delay Config.tCe)

/-- Direction setup of a read (R72). -/
def dirStepRead : Eng Unit := do
  update (State.setPhase .dirset)
  let h ← look State.handle
  emit (.setDir h.dat .input)
  emit (.delay Config.tDirR)

/-- Direction setup of a write: no delay (R72). -/
def dirStepWrite : Eng Unit := do
  update (State.setPhase .dirset)
  let h ← look State.handle
  emit (.setDir h.dat .output)

/-- The command byte of a read: bit 0 forced to 1 (R73). -/
def readCommand (addr : Byte) : Byte := addr ||| 0x01

/-- The command byte of a write: bit 0 forced to 0 (R73). -/
def writeCommand (addr : Byte) : Byte := addr &&& 0xFE

/-- Command phase (R73). -/
def commandPhase (cmd : Byte) : Eng Unit := do
  update (State.setPhase .cmd)
  writeByte cmd

/-- Data phase of a read (R74). -/
def dataPhaseRead : Eng Byte := do
  update (State.setPhase .data)
  readByte

/-- Data phase of a write (R74). -/
def dataPhaseWrite (v : Byte) : Eng Unit := do
  update (State.setPhase .data)
  writeByte v

/-- The three events of the Stop step (R75). -/
def stopWrites : Eng Unit := do
  let h ← look State.handle
  emit (.write h.clk false)
  emit (.write h.ce false)
  emit (.write h.dat false)

/-- Stop (R75), after which PHASE = IDLE (R70). -/
def stopStep : Eng Unit := do
  update (State.setPhase .stop)
  stopWrites
  update State.endTransaction

/-- `regRead(addr)` (R76). -/
def regRead (addr : Byte) : Eng Byte := do
  startStep true
  dirStepRead
  commandPhase (readCommand addr)
  let v ← dataPhaseRead
  stopStep
  pure v

/-- `regWrite(addr, value)` (R77). -/
def regWrite (addr value : Byte) : Eng Unit := do
  startStep false
  dirStepWrite
  commandPhase (writeCommand addr)
  dataPhaseWrite value
  stopStep

/-- A VerificationMismatch under VERIFY_POLICY (60_exceptions.md R122): one diagnostic, nothing else. -/
def State.report (d : Diagnostic) (s : State) : State :=
  match Config.verifyPolicy with
  | .advisory => { s with diag := s.diag ++ [d] }

/-- The comparison of `writeAndCheck`: all eight bits of the byte read back against T_W (R79). -/
def State.compare (addr got : Byte) (s : State) : State :=
  if got = s.temps.w then s else s.report ⟨addr, s.temps.w, got⟩

/-- T_W <- v (10_state.md R16). -/
def State.setTw (v : Byte) (s : State) : State := { s with temps := { s.temps with w := v } }

/-- `writeAndCheck(addr, value)` (R79): the result is the byte that was to be written, never the byte read back. -/
def writeAndCheck (addr value : Byte) : Eng Byte := do
  update (State.setTw value)
  regWrite addr value
  let got ← regRead (addr ||| 0x01)
  update (State.compare addr got)
  look fun s => s.temps.w

/-- `zext_8` (00_scope.md R6). -/
def zext8 (v : Byte) : Word := v.setWidth 32

/-- The body of X_RD (R80). -/
def xRdBody : Eng Word := do
  let a ← operandByte 0
  let v ← regRead a
  pure (zext8 v)

/-- The body of X_WR (R81). -/
def xWrBody : Eng Word := do
  let a ← operandByte 0
  let v ← operandByte 1
  regWrite a v
  pure (zext8 v)

/-- The body of X_WRCHK (R82). -/
def xWrchkBody : Eng Word := do
  let a ← operandByte 0
  let v ← operandByte 1
  let w ← writeAndCheck a v
  pure (zext8 w)

def opXRd (a : Byte) : Operation := ⟨formatA 0x60 a, xRdBody⟩
def opXWr (a v : Byte) : Operation := ⟨formatX 0x61 a v, xWrBody⟩
def opXWrchk (a v : Byte) : Operation := ⟨formatX 0x62 a v, xWrchkBody⟩

/-- X_RD (R80). -/
def execXRd (a : Byte) (s : State) : Host.Outcome State Fault Refusal := runOperation (opXRd a) s
/-- X_WR (R81). -/
def execXWr (a v : Byte) (s : State) : Host.Outcome State Fault Refusal := runOperation (opXWr a v) s
/-- X_WRCHK (R82). -/
def execXWrchk (a v : Byte) (s : State) : Host.Outcome State Fault Refusal := runOperation (opXWrchk a v) s

end Sys2Proof.Machine
end

