-- ==== Sys2Proof/Machine/Codec.lean ====
section
/-! DEFINITION. Machine/Codec.lean: the BCD Codec and the Range Validator (42_codec_validator.md) and their three
test-access operations. -/

namespace Sys2Proof.Machine

/-- The formula of `encode` (R84): the tens digit in the high nibble, the ones digit in the low one (R56). -/
def packBcd (d : Nat) : Byte := (BitVec.ofNat 8 (d / 10) <<< 4) ||| BitVec.ofNat 8 (d % 10)

/-- `encode(d)` (R84): it has no value outside 0..99 (U3). -/
def bcdEncode (d : Int) : Option Byte := if 0 ≤ d ∧ d ≤ 99 then some (packBcd d.toNat) else none

/-- The ones digit of every tag above 3: the low nibble, not checked for being a digit (R85). -/
def onesDigit (raw : Byte) : Nat := (raw &&& 0x0F).toNat

/-- The tens contribution of tags 5 to 8 under the tag's mask (R85). -/
def tensPart (raw mask : Byte) : Nat := ((raw &&& mask) >>> 4).toNat * 10

/-- `decode(t, raw)` (R85); `none` is the invalid tag. -/
def bcdDecode (t : Int) (raw : Byte) : Option Nat :=
  if t < 0 then none
  else match t.toNat with
    | 0 => some 0
    | 1 => some (raw &&& 0x0F &&& 0x01).toNat
    | 2 => some (raw &&& 0x0F &&& 0x03).toNat
    | 3 => some (raw &&& 0x0F &&& 0x07).toNat
    | 4 => some (onesDigit raw)
    | 5 => some (onesDigit raw + tensPart raw 0x10)
    | 6 => some (onesDigit raw + tensPart raw 0x30)
    | 7 => some (onesDigit raw + tensPart raw 0x70)
    | 8 => some (onesDigit raw + tensPart raw 0xF0)
    | _ => none

/-- Is the value in [min, max] as signed numbers (R88)? -/
def inRange (lo hi v : Word) : Bool := !(v.slt lo) && !(hi.slt v)

/-- `checkRange(min, max, value)` (R88). -/
def checkRange (lo hi v : Word) : Eng Word :=
  if inRange lo hi v then pure v else raise .range

/-- `encode` inside an operation (R84). -/
def encodeByte (d : Word) : Eng Byte :=
  match bcdEncode d.toInt with
  | some b => pure b
  | none => leave .encodeOutsideDomain

/-- `decode` inside an operation (R85, 60_exceptions.md R120). -/
def decodeByte (t : Int) (raw : Byte) : Eng Word :=
  match bcdDecode t raw with
  | some n => pure (BitVec.ofNat 32 n)
  | none => raise .configuration

/-- The body of BCD_ENC (R89). -/
def bcdEncBody : Eng Word := do
  let d ← operand 0
  let b ← encodeByte d
  pure (zext8 b)

/-- The body of BCD_DEC (R90). -/
def bcdDecBody : Eng Word := do
  let t ← operand 0
  let raw ← operandByte 1
  decodeByte t.toInt raw

/-- The body of CHK_RNG (R91). -/
def chkRngBody : Eng Word := do
  let lo ← operand 0
  let hi ← operand 1
  let v ← operand 2
  checkRange lo hi v

def opBcdEnc (d : Word) : Operation := ⟨formatVEnc 0x50 d, bcdEncBody⟩
def opBcdDec (t : Word) (raw : Byte) : Operation := ⟨formatC 0x51 t raw, bcdDecBody⟩
def opChkRng (lo hi v : Word) : Operation := ⟨formatR 0x52 lo hi v, chkRngBody⟩

/-- BCD_ENC (R89). -/
def execBcdEnc (d : Word) (s : State) : Host.Outcome State Fault Refusal := runOperation (opBcdEnc d) s
/-- BCD_DEC (R90). -/
def execBcdDec (t : Word) (raw : Byte) (s : State) : Host.Outcome State Fault Refusal :=
  runOperation (opBcdDec t raw) s
/-- CHK_RNG (R91). -/
def execChkRng (lo hi v : Word) (s : State) : Host.Outcome State Fault Refusal := runOperation (opChkRng lo hi v) s

end Sys2Proof.Machine
end

