-- ==== Sys2Proof/Machine/Flags.lean ====
section
/-! DEFINITION. Machine/Flags.lean: the flag bits of the chip's registers (30_encoding.md R58). The block itself has no
flags (10_state.md R20). -/

namespace Sys2Proof.Machine

/-- Bit 7 of a register byte, as a number: CH of the seconds register, WP of its own register (R58, R108, R112). -/
def bit7 (raw : Byte) : Byte := (raw >>> 7) &&& 1

/-- 24-hour mode: 1 when bit 7 of the hours register is 0 (R29, R110). -/
def mode24 (raw : Byte) : Byte := bit7 raw ^^^ 1

/-- AM/PM: bit 5 of the hours register, whatever the mode bit says (R111; log entry 20). -/
def pmBit (raw : Byte) : Byte := (raw >>> 5) &&& 1

/-- A seconds byte with the halt bit of the byte just read (43_register_accessors.md R101). -/
def keepHalt (b cur : Byte) : Byte := b ||| (cur &&& 0x80)

/-- The byte just read with the halt bit replaced (R109). -/
def withHalt (cur h : Byte) : Byte := (cur &&& 0x7F) ||| (h <<< 7)

/-- An hours byte in 24-hour mode: bit 7 cleared (R103). -/
def force24 (b : Byte) : Byte := b &&& 0x7F

/-- The write-protect byte: the flag in bit 7, zeros elsewhere (R113). -/
def protectByte (p : Byte) : Byte := p <<< 7

end Sys2Proof.Machine
end

