-- ==== Sys2Proof/Machine/Accessors.lean ====
section
/-! DEFINITION. Machine/Accessors.lean: the Register Accessors (43_register_accessors.md). -/

namespace Sys2Proof.Machine

/-- Generic field read (R92): one read transaction, decode, then the range check. -/
def fieldRead (f : Field) : Eng Word := do
  let raw ← regRead f.readAddr
  let d ← decodeByte f.widthTag raw
  checkRange f.min f.max d

/-- Generic field write (R93): the range check before any event, encode, then `writeAndCheck`; the result is the byte. -/
def fieldWrite (f : Field) (v : Word) : Eng Word := do
  let c ← checkRange f.min f.max v
  let b ← encodeByte c
  let w ← writeAndCheck f.writeAddr b
  pure (zext8 w)

/-- T_CUR <- v (10_state.md R16). -/
def State.setTcur (v : Byte) (s : State) : State := { s with temps := { s.temps with cur := v } }

/-! ### Field reads -/

def rdSecBody : Eng Word := fieldRead .seconds
def rdMinBody : Eng Word := fieldRead .minutes
def rdHourBody : Eng Word := fieldRead .hours
def rdMdayBody : Eng Word := fieldRead .mday
def rdMonBody : Eng Word := fieldRead .month
def rdWdayBody : Eng Word := fieldRead .wday
def rdYearBody : Eng Word := fieldRead .year

def opRdSec : Operation := ⟨formatN 0x10, rdSecBody⟩
def opRdMin : Operation := ⟨formatN 0x11, rdMinBody⟩
def opRdHour : Operation := ⟨formatN 0x12, rdHourBody⟩
def opRdMday : Operation := ⟨formatN 0x13, rdMdayBody⟩
def opRdMon : Operation := ⟨formatN 0x14, rdMonBody⟩
def opRdWday : Operation := ⟨formatN 0x15, rdWdayBody⟩
def opRdYear : Operation := ⟨formatN 0x16, rdYearBody⟩

/-- RD_SEC (R94). -/
def execRdSec (s : State) : Host.Outcome State Fault Refusal := runOperation opRdSec s
/-- RD_MIN (R95). -/
def execRdMin (s : State) : Host.Outcome State Fault Refusal := runOperation opRdMin s
/-- RD_HOUR (R96). -/
def execRdHour (s : State) : Host.Outcome State Fault Refusal := runOperation opRdHour s
/-- RD_MDAY (R97). -/
def execRdMday (s : State) : Host.Outcome State Fault Refusal := runOperation opRdMday s
/-- RD_MON (R98). -/
def execRdMon (s : State) : Host.Outcome State Fault Refusal := runOperation opRdMon s
/-- RD_WDAY (R99). -/
def execRdWday (s : State) : Host.Outcome State Fault Refusal := runOperation opRdWday s
/-- RD_YEAR (R100). -/
def execRdYear (s : State) : Host.Outcome State Fault Refusal := runOperation opRdYear s

/-! ### Field writes -/

/-- WR_SEC with value `v` (R101): the halt bit of a raw preliminary read is kept (log entry 17). -/
def wrSecBody (v : Word) : Eng Word := do
  let c ← checkRange Field.seconds.min Field.seconds.max v
  let b ← encodeByte c
  let cur ← regRead 0x81
  update (State.setTcur cur)
  let kept ← look fun s => s.temps.cur
  let w ← writeAndCheck 0x80 (keepHalt b kept)
  pure (zext8 w)

def wrMinBody (v : Word) : Eng Word := fieldWrite .minutes v

/-- WR_HOUR with value `v` (R103): 24-hour mode is forced. -/
def wrHourBody (v : Word) : Eng Word := do
  let c ← checkRange Field.hours.min Field.hours.max v
  let b ← encodeByte c
  let w ← writeAndCheck 0x84 (force24 b)
  pure (zext8 w)

def wrMdayBody (v : Word) : Eng Word := fieldWrite .mday v
def wrMonBody (v : Word) : Eng Word := fieldWrite .month v
def wrWdayBody (v : Word) : Eng Word := fieldWrite .wday v
def wrYearBody (v : Word) : Eng Word := fieldWrite .year v

/-- A body whose value is the operand x[0]. -/
def withOperand (body : Word → Eng Word) : Eng Word := do
  let v ← operand 0
  body v

def opWrSec (v : Word) : Operation := ⟨formatV 0x20 v, withOperand wrSecBody⟩
def opWrMin (v : Word) : Operation := ⟨formatV 0x21 v, withOperand wrMinBody⟩
def opWrHour (v : Word) : Operation := ⟨formatV 0x22 v, withOperand wrHourBody⟩
def opWrMday (v : Word) : Operation := ⟨formatV 0x23 v, withOperand wrMdayBody⟩
def opWrMon (v : Word) : Operation := ⟨formatV 0x24 v, withOperand wrMonBody⟩
def opWrWday (v : Word) : Operation := ⟨formatV 0x25 v, withOperand wrWdayBody⟩
def opWrYear (v : Word) : Operation := ⟨formatV 0x26 v, withOperand wrYearBody⟩

/-- WR_SEC (R101). -/
def execWrSec (v : Word) (s : State) : Host.Outcome State Fault Refusal := runOperation (opWrSec v) s
/-- WR_MIN (R102). -/
def execWrMin (v : Word) (s : State) : Host.Outcome State Fault Refusal := runOperation (opWrMin v) s
/-- WR_HOUR (R103). -/
def execWrHour (v : Word) (s : State) : Host.Outcome State Fault Refusal := runOperation (opWrHour v) s
/-- WR_MDAY (R104). -/
def execWrMday (v : Word) (s : State) : Host.Outcome State Fault Refusal := runOperation (opWrMday v) s
/-- WR_MON (R105). -/
def execWrMon (v : Word) (s : State) : Host.Outcome State Fault Refusal := runOperation (opWrMon v) s
/-- WR_WDAY (R106). -/
def execWrWday (v : Word) (s : State) : Host.Outcome State Fault Refusal := runOperation (opWrWday v) s
/-- WR_YEAR (R107). -/
def execWrYear (v : Word) (s : State) : Host.Outcome State Fault Refusal := runOperation (opWrYear v) s

/-! ### Flag operations -/

/-- A flag read: one transaction, no decode, no range check (R108, R110 to R112). -/
def flagRead (addr : Byte) (flag : Byte → Byte) : Eng Word := do
  let raw ← regRead addr
  pure (zext8 (flag raw))

def rdChBody : Eng Word := flagRead 0x81 bit7
def rd24hBody : Eng Word := flagRead 0x85 mode24
def rdPmBody : Eng Word := flagRead 0x85 pmBit
def rdWpBody : Eng Word := flagRead 0x8F bit7

/-- WR_CH with flag `h` (R109). -/
def wrChBody (h : Word) : Eng Word := do
  let cur ← regRead 0x81
  update (State.setTcur cur)
  let kept ← look fun s => s.temps.cur
  let w ← writeAndCheck 0x80 (withHalt kept (h.setWidth 8))
  pure (zext8 w)

/-- WR_WP with flag `p` (R113; log entry 19). -/
def wrWpBody (p : Word) : Eng Word := do
  let w ← writeAndCheck 0x8E (protectByte (p.setWidth 8))
  pure (zext8 w)

def opRdCh : Operation := ⟨formatN 0x30, rdChBody⟩
def opWrCh (h : Word) : Operation := ⟨formatB 0x31 h, withOperand wrChBody⟩
def opRd24h : Operation := ⟨formatN 0x32, rd24hBody⟩
def opRdPm : Operation := ⟨formatN 0x33, rdPmBody⟩
def opRdWp : Operation := ⟨formatN 0x34, rdWpBody⟩
def opWrWp (p : Word) : Operation := ⟨formatB 0x35 p, withOperand wrWpBody⟩

/-- RD_CH (R108). -/
def execRdCh (s : State) : Host.Outcome State Fault Refusal := runOperation opRdCh s
/-- WR_CH (R109). -/
def execWrCh (h : Word) (s : State) : Host.Outcome State Fault Refusal := runOperation (opWrCh h) s
/-- RD_24H (R110). -/
def execRd24h (s : State) : Host.Outcome State Fault Refusal := runOperation opRd24h s
/-- RD_PM (R111). -/
def execRdPm (s : State) : Host.Outcome State Fault Refusal := runOperation opRdPm s
/-- RD_WP (R112). -/
def execRdWp (s : State) : Host.Outcome State Fault Refusal := runOperation opRdWp s
/-- WR_WP (R113). -/
def execWrWp (p : Word) (s : State) : Host.Outcome State Fault Refusal := runOperation (opWrWp p) s

end Sys2Proof.Machine
end

