-- ==== Sys2Proof/Machine/Date.lean ====
section
/-! DEFINITION. Machine/Date.lean: SETUP and the Date Transaction (44_date_setup.md). -/

namespace Sys2Proof.Machine

/-- Is a pin number in [2, 27], as a signed number (R114)? -/
def pinLegal (v : Word) : Bool := decide (Config.pinMin ≤ v.toInt) && decide (v.toInt ≤ Config.pinMax)

/-- The pin check of SETUP (R114, 60_exceptions.md R120). -/
def checkPin (v : Word) : Eng Unit :=
  if pinLegal v then pure () else raise .configuration

/-- Narrowing to a pin number, after the check (30_encoding.md R48). -/
def pinOf (v : Word) : Byte := v.extractLsb' 0 8

/-- The handle is stored and CONFIGURED set (R114). -/
def State.storeHandle (h : Handle) (s : State) : State := { s with handle := h, configured := true }

/-- RESULT of SETUP: PIN_CE, PIN_DAT, PIN_CLK packed, zero-extended (R114). -/
def packHandle (h : Handle) : Word := (h.ce ++ h.dat ++ h.clk).setWidth 32

/-- The body of SETUP (R114; log entry 16). -/
def setupBody : Eng Word := do
  let c ← operand 0
  let d ← operand 1
  let e ← operand 2
  checkPin c
  checkPin d
  checkPin e
  update (State.storeHandle ⟨pinOf c, pinOf d, pinOf e⟩)
  let h ← look State.handle
  emit .init
  emit (.setDir h.clk .output)
  emit (.setDir h.dat .output)
  emit (.setDir h.ce .output)
  stopWrites
  pure (packHandle h)

def opSetup (c d e : Word) : Operation := ⟨formatP 0x00 c d e, setupBody⟩

/-- SETUP (R114). -/
def execSetup (c d e : Word) (s : State) : Host.Outcome State Fault Refusal := runOperation (opSetup c d e) s

/-- Store into one of T_RB[0..5] (10_state.md R16). -/
def State.setRb (f : Six → Six) (s : State) : State := { s with temps := { s.temps with rb := f s.temps.rb } }

/-- The difference sum, in ARGW-bit arithmetic (R115 line 14, R118). -/
def differenceSum (x rb : Six) : Word :=
  (x.x0 - rb.x0) + (x.x1 - rb.x1) + (x.x2 - rb.x2) + (x.x3 - rb.x3) + (x.x4 - rb.x4) + (x.x5 - rb.x5)

/-- Lines 1 to 7 of WR_DATE (R115): write-protect off, then the six writes, each through its accessor. -/
def dateWrites : Eng Unit := do
  let _ ← wrWpBody 0
  let y ← operand 0
  let _ ← wrYearBody y
  let mo ← operand 1
  let _ ← wrMonBody mo
  let dd ← operand 2
  let _ ← wrMdayBody dd
  let h ← operand 3
  let _ ← wrHourBody h
  let mi ← operand 4
  let _ ← wrMinBody mi
  let se ← operand 5
  let _ ← wrSecBody se

/-- Lines 8 to 13 of WR_DATE (R115): the six re-reads (log entry 21 for their order). -/
def dateRereads : Eng Unit := do
  let y ← rdYearBody
  update (State.setRb fun r => { r with x0 := y })
  let mo ← rdMonBody
  update (State.setRb fun r => { r with x1 := mo })
  let dd ← rdMdayBody
  update (State.setRb fun r => { r with x2 := dd })
  let h ← rdHourBody
  update (State.setRb fun r => { r with x3 := h })
  let mi ← rdMinBody
  update (State.setRb fun r => { r with x4 := mi })
  let se ← rdSecBody
  update (State.setRb fun r => { r with x5 := se })

/-- The body of WR_DATE (R115): the 21 transactions of lines 1 to 13, seven writes and fourteen reads. R115, R35 and R154
count 25; their own lists, 2380 events and 112 `Read`s make 21: DEDUCED, log entry 31. -/
def wrDateBody : Eng Word := do
  dateWrites
  dateRereads
  look fun s => differenceSum s.a s.temps.rb

def opWrDate (y mo dd h mi se : Word) : Operation := ⟨formatD 0x40 y mo dd h mi se, wrDateBody⟩

/-- WR_DATE (R115). -/
def execWrDate (y mo dd h mi se : Word) (s : State) : Host.Outcome State Fault Refusal :=
  runOperation (opWrDate y mo dd h mi se) s

end Sys2Proof.Machine
end

