-- ==== Sys2Proof/Machine/Wire.lean ====
section
/-! DEFINITION. Machine/Wire.lean: the sixteen wire commands of 30_encoding.md R54, each one complete transaction of
41_command_transaction.md (R76 for a read, R77 for a write). Standing alone, a wire command is accepted and answered like
the test-access operation that hands the same procedure to the host (R80, R81): DESIGN CHOICE, log entry 8. -/

namespace Sys2Proof.Machine

/-- A wire read: `regRead` of the command byte, the byte read answered as X_RD answers it (R76, R80). -/
def wireRead (cmd : Byte) : Operation :=
  ⟨formatWire cmd, do
    let v ← regRead cmd
    pure (zext8 v)⟩

/-- A wire write: `regWrite` of the command byte, answered as X_WR answers (R77, R81). -/
def wireWrite (cmd v : Byte) : Operation :=
  ⟨formatWire cmd, do
    regWrite cmd v
    pure (zext8 v)⟩

def opWSec (v : Byte) : Operation := wireWrite 0x80 v
def opRSec : Operation := wireRead 0x81

/-- W.SEC (R54, R77). -/
def execWSec (v : Byte) (s : State) : Host.Outcome State Fault Refusal := runOperation (opWSec v) s
/-- R.SEC (R54, R76). -/
def execRSec (s : State) : Host.Outcome State Fault Refusal := runOperation opRSec s

def opWMin (v : Byte) : Operation := wireWrite 0x82 v
def opRMin : Operation := wireRead 0x83

/-- W.MIN (R54, R77). -/
def execWMin (v : Byte) (s : State) : Host.Outcome State Fault Refusal := runOperation (opWMin v) s
/-- R.MIN (R54, R76). -/
def execRMin (s : State) : Host.Outcome State Fault Refusal := runOperation opRMin s

def opWHour (v : Byte) : Operation := wireWrite 0x84 v
def opRHour : Operation := wireRead 0x85

/-- W.HOUR (R54, R77). -/
def execWHour (v : Byte) (s : State) : Host.Outcome State Fault Refusal := runOperation (opWHour v) s
/-- R.HOUR (R54, R76). -/
def execRHour (s : State) : Host.Outcome State Fault Refusal := runOperation opRHour s

def opWMday (v : Byte) : Operation := wireWrite 0x86 v
def opRMday : Operation := wireRead 0x87

/-- W.MDAY (R54, R77). -/
def execWMday (v : Byte) (s : State) : Host.Outcome State Fault Refusal := runOperation (opWMday v) s
/-- R.MDAY (R54, R76). -/
def execRMday (s : State) : Host.Outcome State Fault Refusal := runOperation opRMday s

def opWMon (v : Byte) : Operation := wireWrite 0x88 v
def opRMon : Operation := wireRead 0x89

/-- W.MON (R54, R77). -/
def execWMon (v : Byte) (s : State) : Host.Outcome State Fault Refusal := runOperation (opWMon v) s
/-- R.MON (R54, R76). -/
def execRMon (s : State) : Host.Outcome State Fault Refusal := runOperation opRMon s

def opWWday (v : Byte) : Operation := wireWrite 0x8A v
def opRWday : Operation := wireRead 0x8B

/-- W.WDAY (R54, R77). -/
def execWWday (v : Byte) (s : State) : Host.Outcome State Fault Refusal := runOperation (opWWday v) s
/-- R.WDAY (R54, R76). -/
def execRWday (s : State) : Host.Outcome State Fault Refusal := runOperation opRWday s

def opWYear (v : Byte) : Operation := wireWrite 0x8C v
def opRYear : Operation := wireRead 0x8D

/-- W.YEAR (R54, R77). -/
def execWYear (v : Byte) (s : State) : Host.Outcome State Fault Refusal := runOperation (opWYear v) s
/-- R.YEAR (R54, R76). -/
def execRYear (s : State) : Host.Outcome State Fault Refusal := runOperation opRYear s

def opWWp (v : Byte) : Operation := wireWrite 0x8E v
def opRWp : Operation := wireRead 0x8F

/-- W.WP (R54, R77). -/
def execWWp (v : Byte) (s : State) : Host.Outcome State Fault Refusal := runOperation (opWWp v) s
/-- R.WP (R54, R76). -/
def execRWp (s : State) : Host.Outcome State Fault Refusal := runOperation opRWp s

end Sys2Proof.Machine
end

