-- ==== Sys2Proof/Machine/Dispatch.lean ====
section
/-! DEFINITION. Machine/Dispatch.lean: one arm per instruction. -/

namespace Sys2Proof.Machine

def exec (i : Instr) (s : State) : Host.Outcome State Fault Refusal :=
  match i with
  | .setup c d e => Sys2Proof.Machine.execSetup c d e s
  | .rdSec => Sys2Proof.Machine.execRdSec s
  | .rdMin => Sys2Proof.Machine.execRdMin s
  | .rdHour => Sys2Proof.Machine.execRdHour s
  | .rdMday => Sys2Proof.Machine.execRdMday s
  | .rdMon => Sys2Proof.Machine.execRdMon s
  | .rdWday => Sys2Proof.Machine.execRdWday s
  | .rdYear => Sys2Proof.Machine.execRdYear s
  | .wrSec v => Sys2Proof.Machine.execWrSec v s
  | .wrMin v => Sys2Proof.Machine.execWrMin v s
  | .wrHour v => Sys2Proof.Machine.execWrHour v s
  | .wrMday v => Sys2Proof.Machine.execWrMday v s
  | .wrMon v => Sys2Proof.Machine.execWrMon v s
  | .wrWday v => Sys2Proof.Machine.execWrWday v s
  | .wrYear v => Sys2Proof.Machine.execWrYear v s
  | .rdCh => Sys2Proof.Machine.execRdCh s
  | .wrCh h => Sys2Proof.Machine.execWrCh h s
  | .rd24h => Sys2Proof.Machine.execRd24h s
  | .rdPm => Sys2Proof.Machine.execRdPm s
  | .rdWp => Sys2Proof.Machine.execRdWp s
  | .wrWp p => Sys2Proof.Machine.execWrWp p s
  | .wrDate y mo dd h mi se => Sys2Proof.Machine.execWrDate y mo dd h mi se s
  | .bcdEnc d => Sys2Proof.Machine.execBcdEnc d s
  | .bcdDec t raw => Sys2Proof.Machine.execBcdDec t raw s
  | .chkRng lo hi v => Sys2Proof.Machine.execChkRng lo hi v s
  | .xRd a => Sys2Proof.Machine.execXRd a s
  | .xWr a v => Sys2Proof.Machine.execXWr a v s
  | .xWrchk a v => Sys2Proof.Machine.execXWrchk a v s
  | .wSec v => Sys2Proof.Machine.execWSec v s
  | .rSec => Sys2Proof.Machine.execRSec s
  | .wMin v => Sys2Proof.Machine.execWMin v s
  | .rMin => Sys2Proof.Machine.execRMin s
  | .wHour v => Sys2Proof.Machine.execWHour v s
  | .rHour => Sys2Proof.Machine.execRHour s
  | .wMday v => Sys2Proof.Machine.execWMday v s
  | .rMday => Sys2Proof.Machine.execRMday s
  | .wMon v => Sys2Proof.Machine.execWMon v s
  | .rMon => Sys2Proof.Machine.execRMon s
  | .wWday v => Sys2Proof.Machine.execWWday v s
  | .rWday => Sys2Proof.Machine.execRWday s
  | .wYear v => Sys2Proof.Machine.execWYear v s
  | .rYear => Sys2Proof.Machine.execRYear s
  | .wWp v => Sys2Proof.Machine.execWWp v s
  | .rWp => Sys2Proof.Machine.execRWp s

end Sys2Proof.Machine
end

