-- ==== Sys2Proof/Machine/Fetch.lean ====
section
/-! DEFINITION. Machine/Fetch.lean: how something comes from the host port to the engine (30_encoding.md R46, R61). -/

namespace Sys2Proof.Machine

/-- Sampling what is presented: it leaves the script, its disturbance is armed, and a command word stands on CMD. -/
def State.sample (s : State) (p : Presented) (cut : Option Cut) (rest : List HostInput) : State :=
  match p with
  | .command w => { s with cmd := w, script := rest, cut := cut }
  | .frame _ => { s with script := rest, cut := cut }

/-- Something presented that is no instruction is refused (30_encoding.md R50, R61 test 2; log entry 9 for a frame). -/
def State.rejectUndecoded (s : State) : State := s.respond State.refuse

/-- Putting something at the head of what the host presents. -/
def State.presentNext (s : State) (p : Presented) : State := { s with script := .present p none :: s.script }

end Sys2Proof.Machine
end

