-- ==== Sys2Proof/Machine/Step.lean ====
section
/-! DEFINITION. Machine/Step.lean: one step of the machine (00_scope.md R8): the host's next input is taken and answered.
With no input the block is idle (60_exceptions.md R132). -/

namespace Sys2Proof.Machine

def step (s : State) : Host.Outcome State Fault Refusal :=
  match s.script with
  | [] => if s.busy then .refused .busy else .next s
  | .reset :: rest => .next { s.applyReset with script := rest }
  | .present p cut :: rest =>
    if s.busy then .refused .busy
    else match decode p with
      | .ok i => exec i (s.sample p cut rest)
      | .error _ => .next (s.sample p cut rest).rejectUndecoded

/-- The row's bits presented next (log entry 10). -/
def State.withFetchWord (s : State) (nbits w : Nat) : State := s.presentNext (tableWord nbits w)

end Sys2Proof.Machine
end

