-- ==== Sys2Proof/Machine/Midway.lean ====
section
/-! DEFINITION. Machine/Midway.lean: the small-step view of an instruction (10_state.md R14, R15): the state after each of
its events. -/

namespace Sys2Proof.Machine

/-- The operation an instruction runs. -/
def operationOf : Instr → Operation
  | .setup c d e => opSetup c d e
  | .rdSec => opRdSec
  | .rdMin => opRdMin
  | .rdHour => opRdHour
  | .rdMday => opRdMday
  | .rdMon => opRdMon
  | .rdWday => opRdWday
  | .rdYear => opRdYear
  | .wrSec v => opWrSec v
  | .wrMin v => opWrMin v
  | .wrHour v => opWrHour v
  | .wrMday v => opWrMday v
  | .wrMon v => opWrMon v
  | .wrWday v => opWrWday v
  | .wrYear v => opWrYear v
  | .rdCh => opRdCh
  | .wrCh h => opWrCh h
  | .rd24h => opRd24h
  | .rdPm => opRdPm
  | .rdWp => opRdWp
  | .wrWp p => opWrWp p
  | .wrDate y mo dd h mi se => opWrDate y mo dd h mi se
  | .bcdEnc d => opBcdEnc d
  | .bcdDec t raw => opBcdDec t raw
  | .chkRng lo hi v => opChkRng lo hi v
  | .xRd a => opXRd a
  | .xWr a v => opXWr a v
  | .xWrchk a v => opXWrchk a v
  | .wSec v => opWSec v
  | .rSec => opRSec
  | .wMin v => opWMin v
  | .rMin => opRMin
  | .wHour v => opWHour v
  | .rHour => opRHour
  | .wMday v => opWMday v
  | .rMday => opRMday
  | .wMon v => opWMon v
  | .rMon => opRMon
  | .wWday v => opWWday v
  | .rWday => opRWday
  | .wYear v => opWYear v
  | .rYear => opRYear
  | .wWp v => opWWp v
  | .rWp => opRWp

/-- The state in the middle of instruction `i`, accepted in `s`, after exactly `k` events and just before the next (log
entry 29 for what PHASE, DIRN, BITIDX and SR show there). -/
def midState (i : Instr) (k : Nat) (s : State) : Option State := midway (operationOf i) k s

end Sys2Proof.Machine
end

