-- ==== Sys2Proof/Safety.lean ====
section
/-! DEFINITION. Safety.lean: the predicates claims are stated in: when the block is ready, how an operation answers, what
it leaves alone, and the invariant of the block between operations. -/

namespace Sys2Proof.Machine

/-- The pin image when no transaction is in flight: clock, data and chip-enable low, the data pin in mode `m`
(10_state.md R17). -/
def restingPins (m : PinMode) : PinImage := ⟨false, false, false, m⟩

/-- The block waits for a command word, is not halted, and nothing disturbs the next operation (R8, R61). -/
structure Idle (s : State) : Prop where
  busy : s.busy = false
  faultKind : s.faultKind = .none
  phase : s.engine.phase = .idle
  cut : s.cut = none

/-- Idle and with a handle: what acceptance asks of the state for an operation that uses the bus (R61). -/
structure Ready (s : State) : Prop where
  idle : Idle s
  configured : s.configured = true

/-- The inputs and parameters, which no operation writes. -/
structure SameOutside (s t : State) : Prop where
  cmd : t.cmd = s.cmd
  script : t.script = s.script
  policy : t.policy = s.policy

/-- The block is between operations again: BUSY = 0, SEQ = 0, PHASE = IDLE (R14, R15). -/
structure AtRest (t : State) : Prop where
  busy : t.busy = false
  seq : t.seq = 0
  phase : t.engine.phase = .idle
  cut : t.cut = none

/-- Every register the reset table gives a value holds it, and the ghosts are empty (10_state.md R23). -/
structure ResetValues (t : State) : Prop where
  configured : t.configured = false
  faultKind : t.faultKind = .none
  result : t.result = 0
  rspKind : t.rspKind = .ok
  rest : AtRest t
  trace : t.trace = []
  diag : t.diag = []

/-- `t` is `s` after an operation of opcode `opc` that answered `kind` with `v`, issued `es`, took one answer
of the environment for each `Read` among them, reported `ds`, and left the handle and CONFIGURED alone. -/
structure Responds (s t : State) (opc : Byte) (kind : RspKind) (v : Word) (es : List Event) (ds : List Diagnostic) :
    Prop where
  rspKind : t.rspKind = kind
  result : t.result = v
  trace : t.trace = s.trace ++ es
  diag : t.diag = s.diag ++ ds
  op : t.op = opc
  rest : AtRest t
  outside : SameOutside s t
  answers : t.answers = s.answers.drop (es.countP Event.isRead)
  reads : t.reads = s.reads + es.countP Event.isRead
  handle : t.handle = s.handle
  configured : t.configured = s.configured

/-- `Responds` with RSP_KIND = OK, FAULT_KIND left alone (R51). -/
structure Completes (s t : State) (opc : Byte) (v : Word) (es : List Event) (ds : List Diagnostic) : Prop where
  responds : Responds s t opc .ok v es ds
  faultKind : t.faultKind = s.faultKind

/-- `Responds` with a fatal error: RESULT = 0 and, under HALT alone, FAULT_KIND latched (60_exceptions.md R126). -/
structure Fails (s t : State) (opc : Byte) (e : FatalError) (es : List Event) (ds : List Diagnostic) : Prop where
  responds : Responds s t opc (match e with | .configuration => .configError | .range => .rangeError) 0 es ds
  faultKind : t.faultKind = match s.policy with
    | .halt => match e with
      | .configuration => .config
      | .range => .range
    | .report => s.faultKind

/-- The packed BCD byte of a decimal: tens digit in the high nibble, ones digit in the low one (30_encoding.md R56). -/
def bcdOf (v : Word) : Byte := BitVec.ofNat 8 (v.toInt.toNat / 10 * 16 + v.toInt.toNat % 10)

/-- The signed value lies in [lo, hi] (42_codec_validator.md R88). -/
def Within (lo hi : Int) (v : Word) : Prop := lo ≤ v.toInt ∧ v.toInt ≤ hi

/-- Pin numbers of a stored handle lie in [2, 27] (10_state.md R9). -/
def Handle.Legal (h : Handle) : Prop :=
  (2 ≤ h.clk.toNat ∧ h.clk.toNat ≤ 27) ∧ (2 ≤ h.dat.toNat ∧ h.dat.toNat ≤ 27) ∧ (2 ≤ h.ce.toNat ∧ h.ce.toNat ≤ 27)

/-- The byte that names an instruction: OPC of a command word (30_encoding.md R46), the command byte of a frame (R53). -/
def opcodeByte (i : Instr) : Byte :=
  match encode i with
  | .command w => opcodeOf w
  | .frame w => wireByteOf w

/-- The operations that need no handle are SETUP and the three that touch no pin (30_encoding.md R61 test 4); a wire
command standing alone needs it (log entry 8). -/
def needsHandle : Instr → Bool
  | .setup _ _ _ => false
  | .rdSec => true
  | .rdMin => true
  | .rdHour => true
  | .rdMday => true
  | .rdMon => true
  | .rdWday => true
  | .rdYear => true
  | .wrSec _ => true
  | .wrMin _ => true
  | .wrHour _ => true
  | .wrMday _ => true
  | .wrMon _ => true
  | .wrWday _ => true
  | .wrYear _ => true
  | .rdCh => true
  | .wrCh _ => true
  | .rd24h => true
  | .rdPm => true
  | .rdWp => true
  | .wrWp _ => true
  | .wrDate _ _ _ _ _ _ => true
  | .bcdEnc _ => false
  | .bcdDec _ _ => false
  | .chkRng _ _ _ => false
  | .xRd _ => true
  | .xWr _ _ => true
  | .xWrchk _ _ => true
  | .wSec _ => true
  | .rSec => true
  | .wMin _ => true
  | .rMin => true
  | .wHour _ => true
  | .rHour => true
  | .wMday _ => true
  | .rMday => true
  | .wMon _ => true
  | .rMon => true
  | .wWday _ => true
  | .rWday => true
  | .wYear _ => true
  | .rYear => true
  | .wWp _ => true
  | .rWp => true

/-- Events, `Read` events and minimum time of an operation that no error cuts (70_reset_and_hazards.md R154; its count of
transactions for WR_DATE is log entry 31); a wire command is one transaction (R76, R77). -/
def busSize : Instr → Nat × Nat × Nat
  | .setup _ _ _ => (7, 0, 0)
  | .rdSec => (111, 8, 62)
  | .rdMin => (111, 8, 62)
  | .rdHour => (111, 8, 62)
  | .rdMday => (111, 8, 62)
  | .rdMon => (111, 8, 62)
  | .rdWday => (111, 8, 62)
  | .rdYear => (111, 8, 62)
  | .wrSec _ => (340, 16, 193)
  | .wrMin _ => (229, 8, 131)
  | .wrHour _ => (229, 8, 131)
  | .wrMday _ => (229, 8, 131)
  | .wrMon _ => (229, 8, 131)
  | .wrWday _ => (229, 8, 131)
  | .wrYear _ => (229, 8, 131)
  | .rdCh => (111, 8, 62)
  | .wrCh _ => (340, 16, 193)
  | .rd24h => (111, 8, 62)
  | .rdPm => (111, 8, 62)
  | .rdWp => (111, 8, 62)
  | .wrWp _ => (229, 8, 131)
  | .wrDate _ _ _ _ _ _ => (2380, 112, 1351)
  | .bcdEnc _ => (0, 0, 0)
  | .bcdDec _ _ => (0, 0, 0)
  | .chkRng _ _ _ => (0, 0, 0)
  | .xRd _ => (111, 8, 62)
  | .xWr _ _ => (118, 0, 69)
  | .xWrchk _ _ => (229, 8, 131)
  | .wSec _ => (118, 0, 69)
  | .rSec => (111, 8, 62)
  | .wMin _ => (118, 0, 69)
  | .rMin => (111, 8, 62)
  | .wHour _ => (118, 0, 69)
  | .rHour => (111, 8, 62)
  | .wMday _ => (118, 0, 69)
  | .rMday => (111, 8, 62)
  | .wMon _ => (118, 0, 69)
  | .rMon => (111, 8, 62)
  | .wWday _ => (118, 0, 69)
  | .rWday => (111, 8, 62)
  | .wYear _ => (118, 0, 69)
  | .rYear => (111, 8, 62)
  | .wWp _ => (118, 0, 69)
  | .rWp => (111, 8, 62)

/-- The invariant of the block between operations (R9, R11, R13, R14, R15, R17). -/
structure Inv (s : State) : Prop where
  rest : AtRest s
  legal : s.configured = true → s.handle.Legal
  pins : s.configured = true → ∃ m, s.image = restingPins m
  response : s.rspKind ≠ .ok → s.result = 0
  reported : s.policy = .report → s.faultKind = .none

/-- Nothing is asserted on the reset input in the next step. -/
structure NoReset (s : State) : Prop where
  between : s.script.head? ≠ some .reset
  during : ∀ p c, s.script.head? = some (.present p (some c)) → c.kind = .hang

/-- No GPIO primitive is stuck in the next step (U14). -/
def NoHang (s : State) : Prop := ∀ p c, s.script.head? = some (.present p (some c)) → c.kind = .reset

/-- The pin images at the rising clock edges of a list of events, from pin image `p`. -/
def risingEdges (h : Handle) : PinImage → List Event → List PinImage
  | _, [] => []
  | p, e :: es =>
    (if e = .write h.clk true ∧ p.clkO = false then [p] else []) ++ risingEdges h (p.load h e) es

/-- The levels on the data pin at the rising clock edges (40_bit_byte_channel.md R66). -/
def risingEdgeLevels (h : Handle) (p : PinImage) (es : List Event) : List Level := (risingEdges h p es).map PinImage.datO

/-- The levels on the chip-enable pin at the rising clock edges (30_encoding.md R55). -/
def chipEnableAtEdges (h : Handle) (p : PinImage) (es : List Event) : List Level := (risingEdges h p es).map PinImage.ceO

/-- The levels the `Read` events returned (00_scope.md R7). -/
def sampledLevels : List Event → List Level
  | [] => []
  | .read _ l :: es => l :: sampledLevels es
  | .init :: es => sampledLevels es
  | .setDir _ _ :: es => sampledLevels es
  | .write _ _ :: es => sampledLevels es
  | .delay _ :: es => sampledLevels es

/-- The bits of a byte in the order of transfer (20_memory.md R36). -/
def bitsOf (v : Byte) : List Level := bitOrder.map fun i => v.getLsbD i

/-! ### What the instructions of one shape answer -/

/-- `i` is a field read (43_register_accessors.md R92): while the decoded value lies in [lo, hi] it is answered. -/
def AnswersField (i : Instr) (opc addr : Byte) (tag : Int) (lo hi : Nat) : Prop :=
  ∀ s n, Ready s → bcdDecode tag (s.nextByte 0) = some n → lo ≤ n → n ≤ hi →
    ∃ t, exec i s = .next t ∧
      Completes s t opc (BitVec.ofNat 32 n) (regReadEvents s.handle addr (s.nextByte 0)) [] ∧
      t.temps = s.temps ∧ t.image = restingPins .input

/-- `i` is a field read: a decoded value outside [lo, hi] is a RangeError after the transaction (R92, R121). -/
def RejectsField (i : Instr) (opc addr : Byte) (tag : Int) (lo hi : Nat) : Prop :=
  ∀ s n, Ready s → bcdDecode tag (s.nextByte 0) = some n → n < lo ∨ hi < n →
    ∃ t, exec i s = .next t ∧
      Fails s t opc .range (regReadEvents s.handle addr (s.nextByte 0)) [] ∧
      t.temps = s.temps ∧ t.image = restingPins .input

/-- `i` is a field write of the packed byte (R93): an operand in [lo, hi] is written, verified and answered. -/
def WritesField (i : Word → Instr) (opc addr : Byte) (lo hi : Int) : Prop :=
  ∀ s v, Ready s → Within lo hi v →
    ∃ t, exec (i v) s = .next t ∧
      Completes s t opc ((bcdOf v).setWidth 32) (writeAndCheckEvents s.handle addr (bcdOf v) (s.nextByte 0))
        (mismatches addr (bcdOf v) (s.nextByte 0)) ∧
      t.temps = { s.temps with w := bcdOf v } ∧ t.image = restingPins .input

/-- `i` is a write whose operand outside [lo, hi] is a RangeError before any event (R93, R121). -/
def RejectsOperand (i : Word → Instr) (opc : Byte) (lo hi : Int) : Prop :=
  ∀ s v, Ready s → ¬ Within lo hi v →
    ∃ t, exec (i v) s = .next t ∧ Fails s t opc .range [] [] ∧ t.temps = s.temps ∧ t.image = s.image

/-- `i` reads one flag, `flag` of the byte at `addr` (R108, R110 to R112). -/
def AnswersFlag (i : Instr) (opc addr : Byte) (flag : Byte → Bool) : Prop :=
  ∀ s, Ready s →
    ∃ t, exec i s = .next t ∧
      Completes s t opc (if flag (s.nextByte 0) then 1 else 0) (regReadEvents s.handle addr (s.nextByte 0)) [] ∧
      t.temps = s.temps ∧ t.image = restingPins .input

/-- `i` is one read transaction whose byte is the answer (41_command_transaction.md R76). -/
def AnswersTheByteRead (i : Instr) (opc addr : Byte) : Prop :=
  ∀ s, Ready s →
    ∃ t, exec i s = .next t ∧
      Completes s t opc ((s.nextByte 0).setWidth 32) (regReadEvents s.handle addr (s.nextByte 0)) [] ∧
      t.temps = s.temps ∧ t.image = restingPins .input

/-- `i` is one write transaction whose byte is the answer (R77). -/
def AnswersTheByteWritten (i : Instr) (opc addr v : Byte) : Prop :=
  ∀ s, Ready s →
    ∃ t, exec i s = .next t ∧
      Completes s t opc (v.setWidth 32) (regWriteEvents s.handle addr v) [] ∧
      t.temps = s.temps ∧ t.image = restingPins .output

/-! ### WR_DATE (44_date_setup.md R115) -/

/-- The seconds byte WR_SEC sends: the halt bit of `cur` is kept (43_register_accessors.md R101). -/
def secondsByte (v : Word) (cur : Byte) : Byte := bcdOf v ||| (cur &&& 0x80)

/-- The events of lines 1 to 7, a list for each line; `g j` is the `j`-th byte the environment answers. -/
def dateWriteEvents (h : Handle) (g : Nat → Byte) (x : Six) : List (List Event) :=
  [writeAndCheckEvents h 0x8E 0x00 (g 0),
   writeAndCheckEvents h 0x8C (bcdOf x.x0) (g 1),
   writeAndCheckEvents h 0x88 (bcdOf x.x1) (g 2),
   writeAndCheckEvents h 0x86 (bcdOf x.x2) (g 3),
   writeAndCheckEvents h 0x84 (bcdOf x.x3) (g 4),
   writeAndCheckEvents h 0x82 (bcdOf x.x4) (g 5),
   regReadEvents h 0x81 (g 6) ++ writeAndCheckEvents h 0x80 (secondsByte x.x5 (g 6)) (g 7)]

/-- The diagnostics of lines 1 to 7, a list for each line. -/
def dateDiagnostics (g : Nat → Byte) (x : Six) : List (List Diagnostic) :=
  [mismatches 0x8E 0x00 (g 0),
   mismatches 0x8C (bcdOf x.x0) (g 1),
   mismatches 0x88 (bcdOf x.x1) (g 2),
   mismatches 0x86 (bcdOf x.x2) (g 3),
   mismatches 0x84 (bcdOf x.x3) (g 4),
   mismatches 0x82 (bcdOf x.x4) (g 5),
   mismatches 0x80 (secondsByte x.x5 (g 6)) (g 7)]

/-- The events of lines 8 to 13, a list for each line. -/
def dateRereadEvents (h : Handle) (g : Nat → Byte) : List (List Event) :=
  [regReadEvents h 0x8D (g 8), regReadEvents h 0x89 (g 9), regReadEvents h 0x87 (g 10), regReadEvents h 0x85 (g 11),
   regReadEvents h 0x83 (g 12), regReadEvents h 0x81 (g 13)]

/-- The operand of line `k + 2` lies in its domain. -/
def DateOperandLegal (x : Six) : Nat → Prop
  | 0 => Within 0 99 x.x0
  | 1 => Within 1 12 x.x1
  | 2 => Within 1 31 x.x2
  | 3 => Within 0 24 x.x3
  | 4 => Within 0 59 x.x4
  | _ => Within 0 59 x.x5

/-- The decimal re-read in line `k + 8` is `n`, whether or not it lies in its domain. -/
def DateReread (g : Nat → Byte) (k n : Nat) : Prop :=
  match k with
  | 0 => bcdDecode 8 (g 8) = some n
  | 1 => bcdDecode 5 (g 9) = some n
  | 2 => bcdDecode 6 (g 10) = some n
  | 3 => bcdDecode 6 (g 11) = some n
  | 4 => bcdDecode 7 (g 12) = some n
  | _ => bcdDecode 7 (g 13) = some n

/-- A re-read decimal lies in the domain of line `k + 8`. -/
def DateRereadLegal (k n : Nat) : Prop :=
  match k with
  | 0 => n ≤ 99
  | 1 => 1 ≤ n ∧ n ≤ 12
  | 2 => 1 ≤ n ∧ n ≤ 31
  | 3 => n ≤ 24
  | 4 => n ≤ 59
  | _ => n ≤ 59

/-! ### Where a fatal error is raised (60_exceptions.md R126, R128) -/

/-- A field read in `s` fails with `e` after `es`: the transaction has run and its byte decodes outside [lo, hi] (R92). -/
def FieldFailsAfter (s : State) (e : FatalError) (es : List Event) (addr : Byte) (tag : Int) (lo hi : Nat) : Prop :=
  e = .range ∧ es = regReadEvents s.handle addr (s.nextByte 0) ∧
    ∃ n, bcdDecode tag (s.nextByte 0) = some n ∧ (n < lo ∨ hi < n)

/-- A field write fails with `e` after `es`: no event has run and the operand lies outside [lo, hi] (R93). -/
def OperandFailsAfter (e : FatalError) (es : List Event) (lo hi : Int) (v : Word) : Prop :=
  e = .range ∧ es = [] ∧ ¬ Within lo hi v

/-- WR_DATE in `s` fails with `e` after `es`: at its first operand outside its domain, the lines before it and nothing else
having run, or, with legal operands, at the first re-read outside its domain, that re-read the last to run (R115, R117). -/
def DateFailsAfter (s : State) (e : FatalError) (es : List Event) (x : Six) : Prop :=
  e = .range ∧ ∃ k, k < 6 ∧
    (((∀ j, j < k → DateOperandLegal x j) ∧ ¬ DateOperandLegal x k ∧
        es = ((dateWriteEvents s.handle s.nextByte x).take (k + 1)).flatten) ∨
      ((∀ j, j < 6 → DateOperandLegal x j) ∧
        (∀ j, j < k → ∃ n, DateReread s.nextByte j n ∧ DateRereadLegal j n) ∧
        (∃ n, DateReread s.nextByte k n ∧ ¬ DateRereadLegal k n) ∧
        es = (dateWriteEvents s.handle s.nextByte x).flatten ++
          ((dateRereadEvents s.handle s.nextByte).take (k + 1)).flatten))

/-- A check of the instruction, accepted in `s`, fails with `e`, and `es` are the events before that check. An instruction
without a check never fails. -/
def FailsAfter (s : State) (e : FatalError) (es : List Event) : Instr → Prop
  | .setup c d p => e = .configuration ∧ es = [] ∧ ¬ (Within 2 27 c ∧ Within 2 27 d ∧ Within 2 27 p)
  | .rdSec => FieldFailsAfter s e es 0x81 7 0 59
  | .rdMin => FieldFailsAfter s e es 0x83 7 0 59
  | .rdHour => FieldFailsAfter s e es 0x85 6 0 24
  | .rdMday => FieldFailsAfter s e es 0x87 6 1 31
  | .rdMon => FieldFailsAfter s e es 0x89 5 1 12
  | .rdWday => FieldFailsAfter s e es 0x8B 3 1 7
  | .rdYear => FieldFailsAfter s e es 0x8D 8 0 99
  | .wrSec v => OperandFailsAfter e es 0 59 v
  | .wrMin v => OperandFailsAfter e es 0 59 v
  | .wrHour v => OperandFailsAfter e es 0 24 v
  | .wrMday v => OperandFailsAfter e es 1 31 v
  | .wrMon v => OperandFailsAfter e es 1 12 v
  | .wrWday v => OperandFailsAfter e es 1 7 v
  | .wrYear v => OperandFailsAfter e es 0 99 v
  | .rdCh => False
  | .wrCh _ => False
  | .rd24h => False
  | .rdPm => False
  | .rdWp => False
  | .wrWp _ => False
  | .wrDate y mo dd h mi se => DateFailsAfter s e es ⟨y, mo, dd, h, mi, se⟩
  | .bcdEnc _ => False
  | .bcdDec t _ => e = .configuration ∧ es = [] ∧ (t.toInt < 0 ∨ 8 < t.toInt)
  | .chkRng lo hi v => e = .range ∧ es = [] ∧ (v.toInt < lo.toInt ∨ hi.toInt < v.toInt)
  | .xRd _ => False
  | .xWr _ _ => False
  | .xWrchk _ _ => False
  | .wSec _ => False
  | .rSec => False
  | .wMin _ => False
  | .rMin => False
  | .wHour _ => False
  | .rHour => False
  | .wMday _ => False
  | .rMday => False
  | .wMon _ => False
  | .rMon => False
  | .wWday _ => False
  | .rWday => False
  | .wYear _ => False
  | .rYear => False
  | .wWp _ => False
  | .rWp => False

end Sys2Proof.Machine
end

