-- ==== Sys2Proof/WellFormed.lean ====
section
/-! DEFINITION. WellFormed.lean: which instructions the spec admits. Fields have the exact widths of the encoding, so what
is left to check is the operand tests of acceptance: a flag is exactly 0 or 1 (30_encoding.md R48, R61 test 5) and the
operand of BCD_ENC is in 0..99 (R61 test 6). -/

namespace Sys2Proof

/-- Every operand is one that R61 admits. -/
def Instr.wellFormed : Instr → Bool
  | .wrCh h => h == 0 || h == 1
  | .wrWp p => p == 0 || p == 1
  | .bcdEnc d => decide (0 ≤ d.toInt) && decide (d.toInt ≤ 99)
  | .setup _ _ _ => true
  | .rdSec => true
  | .rdMin => true
  | .rdHour => true
  | .rdMday => true
  | .rdMon => true
  | .rdWday => true
  | .rdYear => true
  | .wrSec _ => true
  | .wrMin _ => true
  | .wrHour _ => true
  | .wrMday _ => true
  | .wrMon _ => true
  | .wrWday _ => true
  | .wrYear _ => true
  | .rdCh => true
  | .rd24h => true
  | .rdPm => true
  | .rdWp => true
  | .wrDate _ _ _ _ _ _ => true
  | .bcdDec _ _ => true
  | .chkRng _ _ _ => true
  | .xRd _ => true
  | .xWr _ _ => true
  | .xWrchk _ _ => true
  | .wSec _ => true
  | .rSec => true
  | .wMin _ => true
  | .rMin => true
  | .wHour _ => true
  | .rHour => true
  | .wMday _ => true
  | .rMday => true
  | .wMon _ => true
  | .rMon => true
  | .wWday _ => true
  | .rWday => true
  | .wYear _ => true
  | .rYear => true
  | .wWp _ => true
  | .rWp => true

end Sys2Proof
end

