-- ==== Sys2Proof/Certificates/Slice0/Obligations.lean ====
section
/-! DEFINITION. Certificates/Slice0/Obligations.lean: the statements for the provers. -/

open Sys2Proof Sys2Proof.Machine

/-! ### Encoding -/

/-- Decoding gives every encoded instruction back, with every operand at every value (30_encoding.md R46 to R49, R53 to
R55). The layout of the command word is the spec's own choice (decisions D1, D2), the wire frame the model's (log entry 8). -/
def Obligations.DecodeOfEncodeIsTheInstruction : Prop :=
  ∀ i : Instr, decode (encode i) = .ok i

/-- What a format does not name has no effect on what is decoded (30_encoding.md R47, R48; decision D1 of the spec). -/
def Obligations.DecodingReadsOnlyTheNamedBits : Prop :=
  ∀ w w' : CommandWord, opcodeOf w = opcodeOf w' →
    ((opcodeOf w).toNat ∈ [0x10, 0x11, 0x12, 0x13, 0x14, 0x15, 0x16, 0x30, 0x32, 0x33, 0x34] →
      decodeCommand w = decodeCommand w') ∧
    ((opcodeOf w).toNat ∈ [0x20, 0x21, 0x22, 0x23, 0x24, 0x25, 0x26, 0x31, 0x35, 0x50] →
      slotOf w 0 = slotOf w' 0 → decodeCommand w = decodeCommand w') ∧
    ((opcodeOf w).toNat ∈ [0x00, 0x52] →
      slotOf w 0 = slotOf w' 0 → slotOf w 1 = slotOf w' 1 → slotOf w 2 = slotOf w' 2 →
      decodeCommand w = decodeCommand w') ∧
    ((opcodeOf w).toNat = 0x51 →
      slotOf w 0 = slotOf w' 0 → slotByte w 1 = slotByte w' 1 → decodeCommand w = decodeCommand w') ∧
    ((opcodeOf w).toNat = 0x60 → slotByte w 0 = slotByte w' 0 → decodeCommand w = decodeCommand w') ∧
    ((opcodeOf w).toNat ∈ [0x61, 0x62] →
      slotByte w 0 = slotByte w' 0 → slotByte w 1 = slotByte w' 1 → decodeCommand w = decodeCommand w')

/-- Words written out in the spec's test vectors, and wire frames from R54, decode to the instructions they stand for. -/
def Obligations.SpecWordsDecode : Prop :=
  decodeCommand 0x00000000000000000000000000000006000000050000000400 = .ok (.setup 4 5 6) ∧
  decodeCommand 0x00000000000000000000000000000000000000000000000016 = .ok .rdYear ∧
  decodeCommand 0x0000000000000000000000000000000000000000FFFFFFFF21 = .ok (.wrMin (-1)) ∧
  decodeCommand 0x00000000000000000000000000000000000000000000000131 = .ok (.wrCh 1) ∧
  decodeCommand 0x00000005000000040000000300000002000000010000001440 = .ok (.wrDate 20 1 2 3 4 5) ∧
  decodeCommand 0x00000000000000000000000000000000000000D90000000751 = .ok (.bcdDec 7 0xD9) ∧
  decodeCommand 0x0000000000000000000000000000000D0000000C0000000152 = .ok (.chkRng 1 12 13) ∧
  decodeCommand 0x00000000000000000000000000000000000000990000008C62 = .ok (.xWrchk 0x8C 0x99) ∧
  decodeFrame 0x208C = .ok (.wYear 0x20) ∧
  decodeFrame 0x0081 = .ok .rSec

/-- A word whose opcode R49 does not list is refused: RSP_KIND = REFUSED, RESULT = 0, nothing else of the block changes
(30_encoding.md R50; decision D6 of the spec). The inputs move on. A reset scheduled with the word is another statement's. -/
def Obligations.ReservedOpcodesAreRefused : Prop :=
  ∀ (s : State) (w : CommandWord) (c : Option Cut) (rest : List HostInput),
    s.busy = false → s.script = .present (.command w) c :: rest → (∀ k, c ≠ some ⟨k, .reset⟩) →
    (opcodeOf w).toNat ∉ [0x00, 0x10, 0x11, 0x12, 0x13, 0x14, 0x15, 0x16, 0x20, 0x21, 0x22, 0x23, 0x24, 0x25, 0x26,
      0x30, 0x31, 0x32, 0x33, 0x34, 0x35, 0x40, 0x50, 0x51, 0x52, 0x60, 0x61, 0x62] →
    step s = .next { s with result := 0, rspKind := .refused, cmd := w, script := rest, cut := none }

/-- The model's choice (log entry 9): a frame whose command byte R54 does not list is answered like a reserved opcode. -/
def Obligations.UnlistedFramesAreRefused : Prop :=
  ∀ (s : State) (w : WireFrame) (c : Option Cut) (rest : List HostInput),
    s.busy = false → s.script = .present (.frame w) c :: rest → (∀ k, c ≠ some ⟨k, .reset⟩) →
    (wireByteOf w).toNat < 0x80 ∨ 0x8F < (wireByteOf w).toNat →
    step s = .next { s with result := 0, rspKind := .refused, script := rest, cut := none }

/-! ### The step -/

/-- A step takes what the host presents next, puts a command word on CMD, and is `exec` of the decoded instruction. The
spec's host presents command words alone; that a wire frame presented is run, and leaves CMD alone, is the model's choice
(log entry 8). -/
def Obligations.StepRunsTheDecodedInstruction : Prop :=
  (∀ (s : State) (w : CommandWord) (c : Option Cut) (rest : List HostInput) (i : Instr),
    s.busy = false → s.script = .present (.command w) c :: rest → decode (.command w) = .ok i →
    step s = exec i { s with cmd := w, script := rest, cut := c }) ∧
  (∀ (s : State) (w : WireFrame) (c : Option Cut) (rest : List HostInput) (i : Instr),
    s.busy = false → s.script = .present (.frame w) c :: rest → decode (.frame w) = .ok i →
    step s = exec i { s with script := rest, cut := c })

/-- With nothing presented the block is idle (60_exceptions.md R132, decision D3), and nothing presented while BUSY = 1 is
sampled (30_encoding.md R61, 93_implementation_defined.md U11; log entry 11). -/
def Obligations.StepWithoutWork : Prop :=
  (∀ s : State, s.busy = false → s.script = [] → step s = .next s) ∧
  (∀ (s : State) (p : Presented) (c : Option Cut) (rest : List HostInput),
    s.busy = true → s.script = .present p c :: rest → step s = .refused .busy)

/-! ### Reset -/

/-- The reset values of 10_state.md R23 (decision D18 of the spec); what R23 leaves unspecified is not claimed. -/
def Obligations.ResetLeavesTheStatedValues : Prop :=
  State.reset.configured = false ∧ State.reset.faultKind = .none ∧ State.reset.result = 0 ∧
  State.reset.rspKind = .ok ∧ State.reset.busy = false ∧ State.reset.seq = 0 ∧
  State.reset.engine.phase = .idle ∧ State.reset.trace = [] ∧ State.reset.diag = [] ∧ State.reset.status = 0

/-- The reset input between operations, whatever the block was doing (70_reset_and_hazards.md R133; decision D18 of the
spec): the values of R23, no event. That the pin image, which R23 calls unspecified, keeps its value is the model's
inference from R133 (log entry 6). -/
def Obligations.ResetInputClearsTheBlock : Prop :=
  ∀ (s : State) (rest : List HostInput), s.script = .reset :: rest →
    ∃ t, step s = .next t ∧ t.configured = false ∧ t.faultKind = .none ∧ t.result = 0 ∧ t.rspKind = .ok ∧
      AtRest t ∧ t.trace = [] ∧ t.diag = [] ∧ t.status = 0 ∧ t.image = s.image ∧ t.script = rest ∧
      t.cmd = s.cmd ∧ t.policy = s.policy ∧ t.answers = s.answers ∧ t.reads = s.reads

/-- The reset input at any moment of what is presented (R133, decision D18): before the event that follows the first `k`,
or, where no such event is left (after the last one, in an operation without an event, where a check fails, in a refusal),
before the response. No response is given and every value of R23 holds. `midState` is the small-step view of R14. That the
pin image, which R23 calls unspecified, keeps the levels and the mode the events so far gave it is the model's inference
from R133 (log entry 6); when a reset with no event left to come before arrives is log entry 2. -/
def Obligations.ResetCutsAnOperation : Prop :=
  (∀ (i : Instr) (k : Nat) (s : State), s.busy = false → s.cut = some ⟨k, .reset⟩ →
    ∃ t, exec i s = .next t ∧ ResetValues t ∧ SameOutside s t ∧
      (∀ m, midState i k s = some m → t.image = m.image) ∧
      (midState i k s = none → ∃ u, exec i { s with cut := none } = .next u ∧ t.image = u.image)) ∧
  (∀ (s : State) (p : Presented) (k : Nat) (rest : List HostInput) (e : DecodeError), s.busy = false →
    s.script = .present p (some ⟨k, .reset⟩) :: rest → decode p = .error e →
    ∃ t, step s = .next t ∧ ResetValues t ∧ t.image = s.image ∧ t.script = rest ∧ t.policy = s.policy)

/-! ### The channels and the transaction -/

/-- `writeBit` (40_bit_byte_channel.md R62): seven events in order, and no register but the pin image and the two that
record events changes (how SEQ counts them is said elsewhere). -/
def Obligations.WriteBitIssuesItsSevenEvents : Prop :=
  ∀ (b : Level) (s : State), s.cut = none →
    let es : List Event := [.write s.handle.dat b, .delay 1, .write s.handle.clk true, .delay 2,
      .write s.handle.dat false, .delay 1, .write s.handle.clk false]
    ∃ t, writeBit b s = .ok () t ∧
      t = { s with trace := s.trace ++ es, seq := t.seq, image := es.foldl (PinImage.load s.handle) s.image }

/-- `readBit` (R63): six events in order, the sample first, the sampled level returned; one answer of the environment is
taken. -/
def Obligations.ReadBitSamplesBeforeTheClock : Prop :=
  ∀ s : State, s.cut = none →
    let b := s.level 0
    let es : List Event := [.read s.handle.dat b, .delay 1, .write s.handle.clk true, .delay 1,
      .write s.handle.clk false, .delay 1]
    ∃ t, readBit s = .ok b t ∧
      t = { s with trace := s.trace ++ es, seq := t.seq, image := es.foldl (PinImage.load s.handle) s.image,
                   answers := s.answers.drop 1, reads := s.reads + 1 }

/-- `writeByte` (R66): eight `writeBit`s, bit 0 first; 56 events, at least 32 microseconds; and with distinct clock and
data pins the level at the k-th rising clock edge is bit k. -/
def Obligations.WriteByteSendsLeastSignificantFirst : Prop :=
  (∀ (v : Byte) (s : State), s.cut = none →
    let es := (List.range 8).flatMap fun i => writeBitEvents s.handle (v.getLsbD i)
    ∃ t, writeByte v s = .ok () t ∧ t.trace = s.trace ++ es ∧ es.length = 56 ∧
      minimumTime es = 32 ∧ t.image = es.foldl (PinImage.load s.handle) s.image ∧
      t = { s with trace := t.trace, seq := t.seq, image := t.image, engine := t.engine }) ∧
  (∀ (h : Handle) (p : PinImage) (v : Byte), h.clk ≠ h.dat → p.clkO = false →
    risingEdgeLevels h p (writeByteEvents h v) = (List.range 8).map fun i => v.getLsbD i)

/-- `readByte` (R67): eight `readBit`s; the k-th sampled level is bit k of the byte; 48 events, 8 of them `Read`, at least
24 microseconds. -/
def Obligations.ReadByteAssemblesEightSamples : Prop :=
  ∀ s : State, s.cut = none →
    let es := (List.range 8).flatMap fun k => readBitEvents s.handle (s.level k)
    ∃ v t, readByte s = .ok v t ∧ (∀ k, k < 8 → v.getLsbD k = s.level k) ∧
      t.trace = s.trace ++ es ∧ es.length = 48 ∧ es.countP Event.isRead = 8 ∧ minimumTime es = 24 ∧
      readByteEvents s.handle v = es ∧ t.image = es.foldl (PinImage.load s.handle) s.image ∧
      t = { s with trace := t.trace, seq := t.seq, image := t.image, engine := t.engine,
                   answers := s.answers.drop 8, reads := s.reads + 8 }

/-- The four steps of a transaction that move no data (41_command_transaction.md R71, R72, R75) and the registers of the
transaction engine they set (10_state.md R15, decision D23). R15 fixes no event boundary at which PHASE and DIRN change:
their values at the end of a step are the model's choice (log entry 29), those left by Stop are R15's. -/
def Obligations.TransactionStepsIssueTheirEvents : Prop :=
  ∀ s : State, s.cut = none →
    let h := s.handle
    (∀ r : Bool, startStep r s = .ok () { s with
      trace := s.trace ++ [.write h.ce true, .delay 5], seq := s.seq + 2,
      image := (s.image.load h (.write h.ce true)),
      engine := { s.engine with phase := .start, dirn := r } }) ∧
    dirStepRead s = .ok () { s with
      trace := s.trace ++ [.setDir h.dat .input, .delay 1], seq := s.seq + 2,
      image := { s.image with datDir := .input }, engine := { s.engine with phase := .dirset } } ∧
    dirStepWrite s = .ok () { s with
      trace := s.trace ++ [.setDir h.dat .output], seq := s.seq + 1,
      image := { s.image with datDir := .output }, engine := { s.engine with phase := .dirset } } ∧
    (∃ t, stopStep s = .ok () t ∧ t.trace = s.trace ++ [.write h.clk false, .write h.ce false, .write h.dat false] ∧
      t.seq = s.seq + 3 ∧ t.image = restingPins s.image.datDir ∧ t.engine.phase = .idle ∧
      t = { s with trace := t.trace, seq := t.seq, image := t.image, engine := t.engine, era := t.era })

/-- The phases that move the command byte and the data byte (R73, R74), with SEQ counting the events (10_state.md
R14, decision D23). R15 fixes no event boundary at which PHASE, DIRN, BITIDX and SR change: their values at the end of a
phase are the model's choice (log entry 29). -/
def Obligations.TransactionPhasesMoveOneByte : Prop :=
  ∀ (s : State) (b : Byte), s.cut = none →
    let sent := writeByteEvents s.handle b
    let heard := readByteEvents s.handle (s.nextByte 0)
    commandPhase b s = .ok () { s with
      trace := s.trace ++ sent, seq := s.seq + 56, image := sent.foldl (PinImage.load s.handle) s.image,
      engine := ⟨.cmd, s.engine.dirn, 7, b⟩ } ∧
    dataPhaseWrite b s = .ok () { s with
      trace := s.trace ++ sent, seq := s.seq + 56, image := sent.foldl (PinImage.load s.handle) s.image,
      engine := ⟨.data, s.engine.dirn, 7, b⟩ } ∧
    dataPhaseRead s = .ok (s.nextByte 0) { s with
      trace := s.trace ++ heard, seq := s.seq + 48, image := heard.foldl (PinImage.load s.handle) s.image,
      engine := ⟨.data, s.engine.dirn, 7, s.nextByte 0⟩, answers := s.answers.drop 8, reads := s.reads + 8 }

/-- `regRead` (R76): its events in order, the byte the environment answers returned, whatever bit 0 of the address is;
111 events, 8 `Read`s, at least 62 microseconds; pins low and the data pin an input at the end. -/
def Obligations.RegReadIsOneReadTransaction : Prop :=
  ∀ (addr : Byte) (s : State), s.cut = none →
    let h := s.handle
    let v := s.nextByte 0
    let es : List Event := [.write h.ce true, .delay 5, .setDir h.dat .input, .delay 1] ++
      writeByteEvents h (addr ||| 0x01) ++ readByteEvents h v ++ [.write h.clk false, .write h.ce false, .write h.dat false]
    ∃ t, regRead addr s = .ok v t ∧ t.trace = s.trace ++ es ∧ es.length = 111 ∧
      es.countP Event.isRead = 8 ∧ minimumTime es = 62 ∧ t.image = restingPins .input ∧
      regReadEvents h (addr ||| 0x01) v = es ∧ regReadEvents h (addr &&& 0xFE) v = es ∧
      t = { s with trace := t.trace, seq := t.seq, image := t.image, engine := t.engine, era := t.era,
                   answers := s.answers.drop 8, reads := s.reads + 8 }

/-- `regWrite` (R77): its events in order, whatever bit 0 of the address is; 118 events, no `Read`, at least 69
microseconds; pins low and the data pin an output at the end. -/
def Obligations.RegWriteIsOneWriteTransaction : Prop :=
  ∀ (addr value : Byte) (s : State), s.cut = none →
    let h := s.handle
    let es : List Event := [.write h.ce true, .delay 5, .setDir h.dat .output] ++
      writeByteEvents h (addr &&& 0xFE) ++ writeByteEvents h value ++
      [.write h.clk false, .write h.ce false, .write h.dat false]
    ∃ t, regWrite addr value s = .ok () t ∧ t.trace = s.trace ++ es ∧ es.length = 118 ∧
      es.countP Event.isRead = 0 ∧ minimumTime es = 69 ∧ t.image = restingPins .output ∧
      regWriteEvents h (addr ||| 0x01) value = es ∧ regWriteEvents h (addr &&& 0xFE) value = es ∧
      t = { s with trace := t.trace, seq := t.seq, image := t.image, engine := t.engine, era := t.era }

/-- `writeAndCheck` (R79): the write transaction, then the read transaction, one diagnostic exactly when the bytes differ,
and the byte that was to be written returned whatever the environment answers. -/
def Obligations.WriteAndCheckReturnsTheIntendedByte : Prop :=
  ∀ (addr value : Byte) (s : State), s.cut = none →
    let got := s.nextByte 0
    let es := regWriteEvents s.handle addr value ++ regReadEvents s.handle (addr ||| 0x01) got
    ∃ t, writeAndCheck addr value s = .ok value t ∧ t.trace = s.trace ++ es ∧ es.length = 229 ∧
      minimumTime es = 131 ∧ t.image = restingPins .input ∧
      t.temps = { s.temps with w := value } ∧
      t.diag = s.diag ++ (if got = value then [] else [⟨addr, value, got⟩]) ∧
      t = { s with trace := t.trace, seq := t.seq, image := t.image, engine := t.engine, temps := t.temps,
                   diag := t.diag, era := t.era, answers := s.answers.drop 8, reads := s.reads + 8 }

/-- Sixteen clock pulses, every one while chip-enable is high, the command byte first, each byte bit 0 first, the data byte
of a write driven by the block and that of a read sampled (30_encoding.md R55; 20_memory.md R36). The three pins are
distinct and the clock starts low, as between transactions (10_state.md R17). -/
def Obligations.TransactionsClockSixteenBits : Prop :=
  ∀ (h : Handle) (p : PinImage) (addr v : Byte), h.clk ≠ h.dat → h.clk ≠ h.ce → h.dat ≠ h.ce → p.clkO = false →
    risingEdgeLevels h p (regWriteEvents h addr v) = bitsOf (addr &&& 0xFE) ++ bitsOf v ∧
    (risingEdgeLevels h p (regReadEvents h addr v)).take 8 = bitsOf (addr ||| 0x01) ∧
    sampledLevels (regReadEvents h addr v) = bitsOf v ∧ sampledLevels (regWriteEvents h addr v) = [] ∧
    chipEnableAtEdges h p (regWriteEvents h addr v) = List.replicate 16 true ∧
    chipEnableAtEdges h p (regReadEvents h addr v) = List.replicate 16 true

/-! ### Codec and validator -/

/-- `encode` (42_codec_validator.md R84, 30_encoding.md R56): tens digit high, ones digit low on 0..99, no value
elsewhere. -/
def Obligations.EncodePacksTwoDigits : Prop :=
  ∀ d : Int,
    (0 ≤ d → d ≤ 99 → ∃ b, bcdEncode d = some b ∧ (b >>> 4).toNat = d.toNat / 10 ∧
      (b &&& 0x0F).toNat = d.toNat % 10 ∧ b.toNat ≤ 0x99 ∧ (b.getLsbD 7 = true ↔ 80 ≤ d)) ∧
    (d < 0 ∨ 99 < d → bcdEncode d = none)

/-- `decode` (R85): the value for each tag, from the low bits of the byte that the tag counts and no others; at most 165;
any other tag raises ConfigurationError; no state is written either way. -/
def Obligations.DecodeFollowsTheTagTable : Prop :=
  ∀ (t : Int) (raw raw' : Byte),
    (0 ≤ t → t ≤ 4 → bcdDecode t raw = some (raw.toNat % 2 ^ t.toNat)) ∧
    (5 ≤ t → t ≤ 8 → bcdDecode t raw = some (raw.toNat % 16 + raw.toNat / 16 % 2 ^ (t.toNat - 4) * 10)) ∧
    (t < 0 ∨ 8 < t → bcdDecode t raw = none ∧ ∀ s, decodeByte t raw s = .error (.raised .configuration) s) ∧
    (raw.toNat % 2 ^ t.toNat = raw'.toNat % 2 ^ t.toNat → bcdDecode t raw = bcdDecode t raw') ∧
    (∀ n, bcdDecode t raw = some n → n ≤ 165 ∧ ∀ s, decodeByte t raw s = .ok (BitVec.ofNat 32 n) s)

/-- Decoding an encoded decimal gives it back exactly below the tag's bound (R87, a law the spec derives from R84 and R85),
and for every field and every value of its domain also under any flag bits above the tag. -/
def Obligations.DecodeOfEncodeHoldsBelowTheTagsBound : Prop :=
  (∀ tb ∈ ([(0, 1), (1, 2), (2, 4), (3, 8), (4, 10), (5, 20), (6, 40), (7, 80), (8, 100)] : List (Int × Nat)),
    ∀ (v : Nat) (b : Byte), bcdEncode v = some b → (bcdDecode tb.1 b = some v ↔ v < tb.2)) ∧
  (∀ f ∈ [Field.seconds, Field.minutes, Field.hours, Field.mday, Field.month, Field.wday, Field.year],
    ∀ (v : Word) (b flags : Byte), Within f.min.toInt f.max.toInt v → bcdEncode v.toInt = some b →
      flags.toNat % 2 ^ f.widthTag.toNat = 0 → bcdDecode f.widthTag (b ||| flags) = some v.toInt.toNat)

/-- `checkRange` (R88): signed, both bounds inclusive, no state touched. -/
def Obligations.CheckRangeComparesSignedInclusive : Prop :=
  ∀ (lo hi v : Word) (s : State),
    (lo.toInt ≤ v.toInt ∧ v.toInt ≤ hi.toInt → checkRange lo hi v s = .ok v s) ∧
    (v.toInt < lo.toInt ∨ hi.toInt < v.toInt → checkRange lo hi v s = .error (.raised .range) s)

/-- BCD_ENC (R89; the spec's own decision D4): answered on 0..99 with or without a handle, refused elsewhere. -/
def Obligations.BcdEncAnswersThePackedByte : Prop :=
  ∀ (s : State) (d : Word), Idle s →
    (Within 0 99 d → ∃ t, exec (.bcdEnc d) s = .next t ∧ Completes s t 0x50 ((bcdOf d).setWidth 32) [] [] ∧
      t.temps = s.temps ∧ t.image = s.image) ∧
    (¬ Within 0 99 d → exec (.bcdEnc d) s = .next { s with result := 0, rspKind := .refused })

/-- BCD_DEC (R90; decision D4): the decimal for a tag in 0..8, a ConfigurationError for any other, with or without a
handle. -/
def Obligations.BcdDecAnswersOrRaises : Prop :=
  ∀ (s : State) (w : Word) (raw : Byte), Idle s →
    (∀ n, bcdDecode w.toInt raw = some n →
      ∃ t, exec (.bcdDec w raw) s = .next t ∧ Completes s t 0x51 (BitVec.ofNat 32 n) [] [] ∧
        t.temps = s.temps ∧ t.image = s.image) ∧
    (w.toInt < 0 ∨ 8 < w.toInt →
      ∃ t, exec (.bcdDec w raw) s = .next t ∧ Fails s t 0x51 .configuration [] [] ∧
        t.temps = s.temps ∧ t.image = s.image)

/-- CHK_RNG (R91; decision D4): the value itself, or a RangeError, with or without a handle. -/
def Obligations.ChkRngAnswersOrRaises : Prop :=
  ∀ (s : State) (lo hi v : Word), Idle s →
    (lo.toInt ≤ v.toInt → v.toInt ≤ hi.toInt →
      ∃ t, exec (.chkRng lo hi v) s = .next t ∧ Completes s t 0x52 v [] [] ∧ t.temps = s.temps ∧ t.image = s.image) ∧
    (v.toInt < lo.toInt ∨ hi.toInt < v.toInt →
      ∃ t, exec (.chkRng lo hi v) s = .next t ∧ Fails s t 0x52 .range [] [] ∧ t.temps = s.temps ∧ t.image = s.image)

/-! ### Register accessors -/

/-- The seven field reads (43_register_accessors.md R92, R94 to R100) answer the decoded value when it lies in the
domain. -/
def Obligations.FieldReadsAnswerTheDecodedValue : Prop :=
  AnswersField .rdSec 0x10 0x81 7 0 59 ∧ AnswersField .rdMin 0x11 0x83 7 0 59 ∧
  AnswersField .rdHour 0x12 0x85 6 0 24 ∧ AnswersField .rdMday 0x13 0x87 6 1 31 ∧
  AnswersField .rdMon 0x14 0x89 5 1 12 ∧ AnswersField .rdWday 0x15 0x8B 3 1 7 ∧
  AnswersField .rdYear 0x16 0x8D 8 0 99

/-- The seven field reads (R92, R94 to R100) raise RangeError, after the whole transaction, when the decoded value lies
outside the domain. -/
def Obligations.FieldReadsRejectABadByte : Prop :=
  RejectsField .rdSec 0x10 0x81 7 0 59 ∧ RejectsField .rdMin 0x11 0x83 7 0 59 ∧
  RejectsField .rdHour 0x12 0x85 6 0 24 ∧ RejectsField .rdMday 0x13 0x87 6 1 31 ∧
  RejectsField .rdMon 0x14 0x89 5 1 12 ∧ RejectsField .rdWday 0x15 0x8B 3 1 7 ∧
  RejectsField .rdYear 0x16 0x8D 8 0 99

/-- A chip that answers 0x00, or 0xFF, to every read (70_reset_and_hazards.md R145, which the spec derives from R94 to
R100): which field reads then pass, and with what value, and which are fatal. -/
def Obligations.SilentBusIsFatalForSomeReads : Prop :=
  ∀ s, Ready s →
    (s.nextByte 0 = 0x00 →
      (∀ i ∈ [Instr.rdSec, .rdMin, .rdHour, .rdYear], ∃ t, exec i s = .next t ∧ t.rspKind = .ok ∧ t.result = 0) ∧
      (∀ i ∈ [Instr.rdMday, .rdMon, .rdWday], ∃ t, exec i s = .next t ∧ t.rspKind = .rangeError ∧
        (s.policy = .halt → t.faultKind = .range))) ∧
    (s.nextByte 0 = 0xFF →
      (∃ t, exec .rdWday s = .next t ∧ t.rspKind = .ok ∧ t.result = 7) ∧
      (∀ i ∈ [Instr.rdSec, .rdMin, .rdHour, .rdMday, .rdMon, .rdYear], ∃ t, exec i s = .next t ∧
        t.rspKind = .rangeError ∧ (s.policy = .halt → t.faultKind = .range)))

/-- WR_MIN, WR_MDAY, WR_MON, WR_WDAY, WR_YEAR (R102, R104 to R107): an operand in the domain is packed, written, verified
and answered as the byte. -/
def Obligations.FieldWritesSendThePackedByte : Prop :=
  WritesField .wrMin 0x21 0x82 0 59 ∧ WritesField .wrMday 0x23 0x86 1 31 ∧ WritesField .wrMon 0x24 0x88 1 12 ∧
  WritesField .wrWday 0x25 0x8A 1 7 ∧ WritesField .wrYear 0x26 0x8C 0 99

/-- WR_HOUR (R103): hours 0 to 24 are written with bit 7 clear, whatever the register held, and answered as the byte. -/
def Obligations.WrHourForcesTwentyFourHourMode : Prop :=
  WritesField .wrHour 0x22 0x84 0 24 ∧ ∀ v, Within 0 24 v → (bcdOf v).getLsbD 7 = false

/-- Every field write raises RangeError before any event when the operand lies outside the domain (R93, R101 to R107;
the order of check and first event is the spec's decision D11). -/
def Obligations.FieldWritesRejectABadOperand : Prop :=
  RejectsOperand .wrSec 0x20 0 59 ∧ RejectsOperand .wrMin 0x21 0 59 ∧ RejectsOperand .wrHour 0x22 0 24 ∧
  RejectsOperand .wrMday 0x23 1 31 ∧ RejectsOperand .wrMon 0x24 1 12 ∧ RejectsOperand .wrWday 0x25 1 7 ∧
  RejectsOperand .wrYear 0x26 0 99

/-- WR_SEC (R101; the raw preliminary read is the spec's decision D12): the seconds byte goes out with the halt bit just
read. -/
def Obligations.WrSecKeepsTheHaltBit : Prop :=
  ∀ s v, Ready s → Within 0 59 v →
    let cur := s.nextByte 0
    let b := bcdOf v ||| (cur &&& 0x80)
    (∃ t, exec (.wrSec v) s = .next t ∧
      Completes s t 0x20 (b.setWidth 32)
        (regReadEvents s.handle 0x81 cur ++ writeAndCheckEvents s.handle 0x80 b (s.nextByte 1))
        (mismatches 0x80 b (s.nextByte 1)) ∧
      t.temps = { s.temps with cur := cur, w := b } ∧ t.image = restingPins .input) ∧
    b.getLsbD 7 = cur.getLsbD 7 ∧ (b &&& 0x7F) = bcdOf v

/-- RD_CH and RD_WP (R108, R112): bit 7 of the register, never an error. -/
def Obligations.HaltAndProtectFlagsAreBitSeven : Prop :=
  AnswersFlag .rdCh 0x30 0x81 (fun b => b.getLsbD 7) ∧ AnswersFlag .rdWp 0x34 0x8F (fun b => b.getLsbD 7)

/-- RD_24H and RD_PM (R110, R111; the formulas are the spec's decision D15): bit 7 inverted, and bit 5, of the hours
register. -/
def Obligations.HourModeFlagsAreBitsSevenAndFive : Prop :=
  AnswersFlag .rd24h 0x32 0x85 (fun b => !b.getLsbD 7) ∧ AnswersFlag .rdPm 0x33 0x85 (fun b => b.getLsbD 5)

/-- WR_CH (R109; the raw read is decision D12): the seven low bits just read go back with the new halt bit. A flag operand
other than 0 or 1 is refused (R61; decision D27). -/
def Obligations.WrChReplacesTheHaltBit : Prop :=
  ∀ s h, Ready s →
    (h = 0 ∨ h = 1 →
      let cur := s.nextByte 0
      let b := (cur &&& 0x7F) ||| (if h = 1 then 0x80 else 0x00)
      ∃ t, exec (.wrCh h) s = .next t ∧
        Completes s t 0x31 (b.setWidth 32)
          (regReadEvents s.handle 0x81 cur ++ writeAndCheckEvents s.handle 0x80 b (s.nextByte 1))
          (mismatches 0x80 b (s.nextByte 1)) ∧
        t.temps = { s.temps with cur := cur, w := b } ∧ t.image = restingPins .input) ∧
    (h ≠ 0 ∧ h ≠ 1 → exec (.wrCh h) s = .next { s with result := 0, rspKind := .refused })

/-- WR_WP (R113; decision D14): the flag in bit 7, zeros elsewhere. A flag operand other than 0 or 1 is refused (R61;
decision D27). -/
def Obligations.WrWpWritesTheFlagAlone : Prop :=
  ∀ s p, Ready s →
    (p = 0 ∨ p = 1 →
      let b : Byte := if p = 1 then 0x80 else 0x00
      ∃ t, exec (.wrWp p) s = .next t ∧
        Completes s t 0x35 (b.setWidth 32) (writeAndCheckEvents s.handle 0x8E b (s.nextByte 0))
          (mismatches 0x8E b (s.nextByte 0)) ∧
        t.temps = { s.temps with w := b } ∧ t.image = restingPins .input) ∧
    (p ≠ 0 ∧ p ≠ 1 → exec (.wrWp p) s = .next { s with result := 0, rspKind := .refused })

/-! ### Test access and wire commands -/

/-- X_RD, X_WR and X_WRCHK (41_command_transaction.md R80 to R82; the spec's own decision D4), on every address byte. -/
def Obligations.TestAccessOperationsAnswer : Prop :=
  (∀ a, AnswersTheByteRead (.xRd a) 0x60 a) ∧ (∀ a v, AnswersTheByteWritten (.xWr a v) 0x61 a v) ∧
  (∀ a v s, Ready s →
    ∃ t, exec (.xWrchk a v) s = .next t ∧
      Completes s t 0x62 (v.setWidth 32) (writeAndCheckEvents s.handle a v (s.nextByte 0))
        (mismatches a v (s.nextByte 0)) ∧
      t.temps = { s.temps with w := v } ∧ t.image = restingPins .input)

/-- The eight wire reads of 30_encoding.md R54 are the read transaction of R76. Standing alone each answers like X_RD: the
model's choice, log entry 8. -/
def Obligations.WireReadsAnswerTheByte : Prop :=
  AnswersTheByteRead .rSec 0x81 0x81 ∧ AnswersTheByteRead .rMin 0x83 0x83 ∧ AnswersTheByteRead .rHour 0x85 0x85 ∧
  AnswersTheByteRead .rMday 0x87 0x87 ∧ AnswersTheByteRead .rMon 0x89 0x89 ∧ AnswersTheByteRead .rWday 0x8B 0x8B ∧
  AnswersTheByteRead .rYear 0x8D 0x8D ∧ AnswersTheByteRead .rWp 0x8F 0x8F

/-- The eight wire writes of R54 are the write transaction of R77. Standing alone each answers like X_WR: the model's
choice, log entry 8. -/
def Obligations.WireWritesSendTheByte : Prop :=
  ∀ v, AnswersTheByteWritten (.wSec v) 0x80 0x80 v ∧ AnswersTheByteWritten (.wMin v) 0x82 0x82 v ∧
    AnswersTheByteWritten (.wHour v) 0x84 0x84 v ∧ AnswersTheByteWritten (.wMday v) 0x86 0x86 v ∧
    AnswersTheByteWritten (.wMon v) 0x88 0x88 v ∧ AnswersTheByteWritten (.wWday v) 0x8A 0x8A v ∧
    AnswersTheByteWritten (.wYear v) 0x8C 0x8C v ∧ AnswersTheByteWritten (.wWp v) 0x8E 0x8E v

/-! ### SETUP and WR_DATE -/

/-- SETUP with three legal pins (44_date_setup.md R114; the events and the packing are the spec's decision D8). -/
def Obligations.SetupStoresTheHandle : Prop :=
  ∀ (s : State) (c d e : Word), Idle s → s.configured = false → Within 2 27 c → Within 2 27 d → Within 2 27 e →
    let h : Handle := ⟨BitVec.ofInt 8 c.toInt, BitVec.ofInt 8 d.toInt, BitVec.ofInt 8 e.toInt⟩
    ∃ t, exec (.setup c d e) s = .next t ∧ t.rspKind = .ok ∧
      t.result.toInt = e.toInt * 65536 + d.toInt * 256 + c.toInt ∧
      t.trace = s.trace ++ [.init, .setDir h.clk .output, .setDir h.dat .output, .setDir h.ce .output,
        .write h.clk false, .write h.ce false, .write h.dat false] ∧
      t.handle = h ∧ (h.clk.toNat : Int) = c.toInt ∧ (h.dat.toNat : Int) = d.toInt ∧ (h.ce.toNat : Int) = e.toInt ∧
      t.configured = true ∧ t.image = restingPins .output ∧ t.op = 0x00 ∧ AtRest t ∧ SameOutside s t ∧
      t.faultKind = .none ∧ t.diag = s.diag ∧ t.temps = s.temps ∧ t.answers = s.answers ∧ t.reads = s.reads

/-- SETUP with a pin outside [2, 27], compared as a signed 32-bit number (R114, R120): ConfigurationError, nothing stored,
no event; and a second SETUP is refused (R61; decision D6). -/
def Obligations.SetupRejectsABadPin : Prop :=
  ∀ (s : State) (c d e : Word), Idle s →
    (s.configured = false → ¬ (Within 2 27 c ∧ Within 2 27 d ∧ Within 2 27 e) →
      ∃ t, exec (.setup c d e) s = .next t ∧ Fails s t 0x00 .configuration [] [] ∧
        t.temps = s.temps ∧ t.image = s.image) ∧
    (s.configured = true → exec (.setup c d e) s = .next { s with result := 0, rspKind := .refused })

/-- WR_DATE when every check passes (R115, R118; the re-read order and the decimal sum are the spec's decision D16): the
21 transactions of its lines 1 to 13 (R115's own count of 25 is log entry 31), T_CUR, T_W and T_RB, and the signed sum of the differences as the answer. -/
def Obligations.WrDateAnswersTheDifferenceSum : Prop :=
  ∀ (s : State) (x : Six) (r : Nat → Nat), Ready s → (∀ k, k < 6 → DateOperandLegal x k) →
    (∀ k, k < 6 → DateReread s.nextByte k (r k) ∧ DateRereadLegal k (r k)) →
    let sum : Int := (x.x0.toInt - r 0) + (x.x1.toInt - r 1) + (x.x2.toInt - r 2) + (x.x3.toInt - r 3) +
      (x.x4.toInt - r 4) + (x.x5.toInt - r 5)
    let b := secondsByte x.x5 (s.nextByte 6)
    ∃ t, exec (.wrDate x.x0 x.x1 x.x2 x.x3 x.x4 x.x5) s = .next t ∧
      Completes s t 0x40 (BitVec.ofInt 32 sum)
        ((dateWriteEvents s.handle s.nextByte x).flatten ++ (dateRereadEvents s.handle s.nextByte).flatten)
        (dateDiagnostics s.nextByte x).flatten ∧
      t.result.toInt = sum ∧ -282 ≤ sum ∧ sum ≤ 282 ∧ t.trace.length = s.trace.length + 2380 ∧
      t.temps = ⟨s.nextByte 6, b, ⟨BitVec.ofNat 32 (r 0), BitVec.ofNat 32 (r 1), BitVec.ofNat 32 (r 2),
        BitVec.ofNat 32 (r 3), BitVec.ofNat 32 (r 4), BitVec.ofNat 32 (r 5)⟩⟩ ∧
      t.image = restingPins .input

/-- WR_DATE with its first illegal operand in position `k + 1` (R117, whose event count the spec derives from R115): the
fields before it have been written, nothing after it is; 229 events a position. -/
def Obligations.WrDateStopsAtTheFirstBadOperand : Prop :=
  ∀ (s : State) (x : Six) (k : Nat), Ready s → k < 6 → (∀ j, j < k → DateOperandLegal x j) → ¬ DateOperandLegal x k →
    ∃ t, exec (.wrDate x.x0 x.x1 x.x2 x.x3 x.x4 x.x5) s = .next t ∧
      Fails s t 0x40 .range ((dateWriteEvents s.handle s.nextByte x).take (k + 1)).flatten
        ((dateDiagnostics s.nextByte x).take (k + 1)).flatten ∧
      t.trace.length = s.trace.length + 229 * (k + 1) ∧
      t.temps.cur = s.temps.cur ∧ t.temps.rb = s.temps.rb ∧ t.image = restingPins .input

/-- WR_DATE with legal operands whose first re-read outside its domain is that of line `k + 8` (R115, R121; the order is
decision D16): every write has been made, and the re-reads up to that one. -/
def Obligations.WrDateStopsAtTheFirstBadReread : Prop :=
  ∀ (s : State) (x : Six) (k n : Nat) (r : Nat → Nat), Ready s → (∀ j, j < 6 → DateOperandLegal x j) → k < 6 →
    (∀ j, j < k → DateReread s.nextByte j (r j) ∧ DateRereadLegal j (r j)) →
    DateReread s.nextByte k n → ¬ DateRereadLegal k n →
    ∃ t, exec (.wrDate x.x0 x.x1 x.x2 x.x3 x.x4 x.x5) s = .next t ∧
      Fails s t 0x40 .range ((dateWriteEvents s.handle s.nextByte x).flatten ++
          ((dateRereadEvents s.handle s.nextByte).take (k + 1)).flatten)
        (dateDiagnostics s.nextByte x).flatten ∧
      t.trace.length = s.trace.length + 1714 + 111 * (k + 1) ∧
      t.temps.cur = s.nextByte 6 ∧ t.temps.w = secondsByte x.x5 (s.nextByte 6) ∧ t.image = restingPins .input

/-! ### Acceptance, errors and the whole machine -/

/-- Acceptance (30_encoding.md R61, 60_exceptions.md R123; decision D6 of the spec): an instruction is refused, and nothing
but RESULT and RSP_KIND of the block changes, exactly when one of the tests fails; otherwise it is answered with another
kind. A reset scheduled with it is another statement's. -/
def Obligations.AcceptanceTestsDecideRefusal : Prop :=
  ∀ (i : Instr) (s : State), s.busy = false →
    let fails := s.faultKind ≠ .none ∨ ((∃ c d e, i = .setup c d e) ∧ s.configured = true) ∨
      (needsHandle i = true ∧ s.configured = false) ∨ i.wellFormed = false
    (fails → (∀ k, s.cut ≠ some ⟨k, .reset⟩) → exec i s = .next { s with result := 0, rspKind := .refused, cut := none }) ∧
    (¬ fails → s.cut = none → ∃ t, exec i s = .next t ∧ t.rspKind ≠ .refused ∧ t.op = opcodeByte i)

/-- Fatal error entry (60_exceptions.md R126, R128; decision D5 of the spec) for every instruction: exactly the events
before the failing check have been issued, RESULT 0, the code of the error, FAULT_KIND under HALT alone, the handle and
CONFIGURED untouched, the bus idle. -/
def Obligations.FatalErrorEntryIsPrecise : Prop :=
  ∀ (i : Instr) (s t : State), s.busy = false → s.engine.phase = .idle → s.cut = none → exec i s = .next t →
    t.rspKind = .configError ∨ t.rspKind = .rangeError →
    (∃ e es, FailsAfter s e es i ∧ (e = .configuration ↔ t.rspKind = .configError) ∧ t.trace = s.trace ++ es) ∧
    t.result = 0 ∧ t.busy = false ∧ t.seq = 0 ∧ t.engine.phase = .idle ∧ t.handle = s.handle ∧
    t.configured = s.configured ∧ (t.image = s.image ∨ ∃ m, t.image = restingPins m) ∧
    (s.policy = .halt → t.faultKind = if t.rspKind = .configError then .config else .range) ∧
    (s.policy = .report → t.faultKind = s.faultKind) ∧ s.faultKind = .none

/-- FAULT_KIND, once set, stays, and every later word is refused without an event, until reset (10_state.md R11, R126;
decision D5 of the spec). -/
def Obligations.FaultKindIsSticky : Prop :=
  ∀ s t : State, s.faultKind ≠ .none → NoReset s → step s = .next t →
    t.faultKind = s.faultKind ∧ t.trace = s.trace ∧ t.diag = s.diag ∧ t.image = s.image ∧ t.handle = s.handle ∧
    t.configured = s.configured ∧ (s.script ≠ [] → t.rspKind = .refused ∧ t.result = 0)

/-- The handle and CONFIGURED are written once, by a successful SETUP, and never again until reset (10_state.md R9, R10): a
step that sets CONFIGURED took a SETUP, answers OK, and stores the operands, which are legal pins. -/
def Obligations.HandleIsImmutableOnceStored : Prop :=
  ∀ s t : State, NoReset s → step s = .next t →
    (s.configured = true → t.configured = true ∧ t.handle = s.handle) ∧
    (t.configured = true → s.configured = false → t.rspKind = .ok ∧ t.handle.Legal ∧
      ∃ p cut rest c d e, s.script = .present p cut :: rest ∧ decode p = .ok (.setup c d e) ∧
        (t.handle.clk.toNat : Int) = c.toInt ∧ (t.handle.dat.toNat : Int) = d.toInt ∧
        (t.handle.ce.toNat : Int) = e.toInt) ∧
    (t.configured = false → t.handle = s.handle)

/-- Before SETUP the block issues no event (10_state.md R10, R23, 70_reset_and_hazards.md R135; decisions D6, D18): a step
of an unconfigured block that issues one leaves it configured. -/
def Obligations.NoEventBeforeSetup : Prop :=
  ∀ s t : State, s.configured = false → NoReset s → step s = .next t →
    (t.trace = s.trace ∧ t.image = s.image) ∨ (t.configured = true ∧ t.trace = s.trace ++ setupEvents t.handle)

/-- TRACE and DIAG only grow until reset, and no step touches FAULT_POLICY (10_state.md R18; 00_scope.md R4; decision D17 of the spec). -/
def Obligations.GhostsOnlyGrow : Prop :=
  ∀ s t : State, step s = .next t →
    t.policy = s.policy ∧ (NoReset s → s.trace <+: t.trace ∧ s.diag <+: t.diag)

/-- Every step of a block that is not busy answers, and leaves it not busy, unless a GPIO primitive never returns: no
instruction, operand or answer of the environment stops the machine (70_reset_and_hazards.md R153, R154; 00_scope.md R8). -/
def Obligations.EveryStepAnswersUnlessAPrimitiveHangs : Prop :=
  ∀ s : State, s.busy = false → NoHang s → ∃ t, step s = .next t ∧ t.busy = false

/-- The invariant holds after reset. -/
def Obligations.InvariantHoldsAtReset : Prop := Inv State.reset

/-- Every step keeps the invariant: at rest between operations (10_state.md R14, R15), legal pins whenever CONFIGURED
(R9), all pins low whenever CONFIGURED (R17), RESULT 0 unless OK (R13), FAULT_KIND NONE under REPORT (R11). -/
def Obligations.EveryStepKeepsTheInvariant : Prop :=
  ∀ s t : State, Inv s → step s = .next t → Inv t

/-- The two views of an operation agree event for event (10_state.md R14; decision D23 of the spec): the state in the
middle exists for every position before the last event, has SEQ at that position, OP at the opcode and BUSY set, and its
trace is that much of the whole operation's. That a wire command standing alone puts its command byte in OP is the model's
choice (log entry 8). -/
def Obligations.SmallStepsAgreeWithTheBigStep : Prop :=
  ∀ (i : Instr) (s t : State), s.busy = false → s.cut = none → exec i s = .next t →
    (∀ k, s.trace.length + k < t.trace.length → (midState i k s).isSome = true) ∧
    (∀ k m, midState i k s = some m →
      m.busy = true ∧ m.seq = k ∧ m.op = opcodeByte i ∧ m.trace <+: t.trace ∧
      m.trace.length = s.trace.length + k ∧ s.trace.length + k < t.trace.length)

/-- All six slots are latched at acceptance, the ones a format does not name too, and stay while the operation runs
(10_state.md R12, 30_encoding.md R48; decision D19 of the spec; log entry 13 for the ignored bits). -/
def Obligations.LatchesHoldTheSlotsWhileRunning : Prop :=
  ∀ (s m : State) (i : Instr) (k : Nat), decodeCommand s.cmd = .ok i → midState i k s = some m →
    m.a = ⟨slotOf s.cmd 0, slotOf s.cmd 1, slotOf s.cmd 2, slotOf s.cmd 3, slotOf s.cmd 4, slotOf s.cmd 5⟩ ∧
    m.op = opcodeOf s.cmd

/-- Every operation that answers OK issues the number of events, of `Read`s among them, and stands for the minimum time, of
its row in 70_reset_and_hazards.md R154 (figures the spec derives from R69, R76, R77, R79; its count of transactions for
WR_DATE, which log entry 31 takes for an error, is not claimed); for a wire command those of its transaction. -/
def Obligations.OperationsHaveTheirStatedSize : Prop :=
  ∀ (i : Instr) (s t : State), s.busy = false → s.cut = none → exec i s = .next t → t.rspKind = .ok →
    ∃ es, t.trace = s.trace ++ es ∧ busSize i = (es.length, es.countP Event.isRead, minimumTime es)

/-- What an operation does is a function of the handle, its operands and the levels the environment answers, and of nothing
else (10_state.md R14, R16, R17, R18, R19): two blocks that agree in these and in the acceptance state answer alike,
issue the same events and agree in all of this again, whatever their pin image, temporaries, latches, response, ghosts and command port hold. -/
def Obligations.OutcomeDependsOnOperandsAndReadsOnly : Prop :=
  ∀ (i : Instr) (s s' : State), s.busy = false → s'.busy = false → s.cut = none → s'.cut = none →
    s'.handle = s.handle → s'.configured = s.configured → s'.faultKind = s.faultKind → s'.policy = s.policy →
    s'.answers = s.answers → s'.reads = s.reads →
    ∃ t t' es ds, exec i s = .next t ∧ exec i s' = .next t' ∧ t'.response = t.response ∧ t'.status = t.status ∧
      t.trace = s.trace ++ es ∧ t'.trace = s'.trace ++ es ∧ t.diag = s.diag ++ ds ∧ t'.diag = s'.diag ++ ds ∧
      t'.handle = t.handle ∧ t'.answers = t.answers ∧ t'.reads = t.reads ∧ t'.policy = t.policy

/-- The words the host sees (10_state.md R21, 30_encoding.md R51, R52; decisions D3, D17 of the spec): STATUS, RSP and
DIAGW, bit by bit. -/
def Obligations.HostWordsHaveTheirLayout : Prop :=
  (∀ s : State, s.status.getLsbD 0 = s.busy ∧ s.status.getLsbD 1 = s.configured ∧
    s.status.extractLsb' 2 2 = s.faultKind.code ∧ s.response.extractLsb' 32 2 = s.rspKind.code ∧
    s.response.extractLsb' 0 32 = s.result) ∧
  (∀ d : Diagnostic, d.word.extractLsb' 16 8 = d.addr ∧ d.word.extractLsb' 8 8 = d.want ∧
    d.word.extractLsb' 0 8 = d.got) ∧
  FaultKind.none.code = 0 ∧ FaultKind.config.code = 1 ∧ FaultKind.range.code = 2 ∧
  RspKind.ok.code = 0 ∧ RspKind.configError.code = 1 ∧ RspKind.rangeError.code = 2 ∧ RspKind.refused.code = 3
end

