-- ==== Sys2Proof/Laws/State.lean ====
section
/-! SUPPORT. Laws/State.lean: what each update of State does to each field, by definition. -/

namespace Sys2Proof.Machine

@[simp] theorem State.issue_handle (e : Event) (s : State) : (s.issue e).handle = s.handle := rfl
@[simp] theorem State.issue_configured (e : Event) (s : State) : (s.issue e).configured = s.configured := rfl
@[simp] theorem State.issue_faultKind (e : Event) (s : State) : (s.issue e).faultKind = s.faultKind := rfl
@[simp] theorem State.issue_a (e : Event) (s : State) : (s.issue e).a = s.a := rfl
@[simp] theorem State.issue_result (e : Event) (s : State) : (s.issue e).result = s.result := rfl
@[simp] theorem State.issue_rspKind (e : Event) (s : State) : (s.issue e).rspKind = s.rspKind := rfl
@[simp] theorem State.issue_busy (e : Event) (s : State) : (s.issue e).busy = s.busy := rfl
@[simp] theorem State.issue_op (e : Event) (s : State) : (s.issue e).op = s.op := rfl
@[simp] theorem State.issue_seq (e : Event) (s : State) : (s.issue e).seq = s.seq + 1 := rfl
@[simp] theorem State.issue_engine (e : Event) (s : State) : (s.issue e).engine = s.engine := rfl
@[simp] theorem State.issue_temps (e : Event) (s : State) : (s.issue e).temps = s.temps := rfl
@[simp] theorem State.issue_image (e : Event) (s : State) : (s.issue e).image = s.image.load s.handle e := rfl
@[simp] theorem State.issue_trace (e : Event) (s : State) : (s.issue e).trace = s.trace ++ [e] := rfl
@[simp] theorem State.issue_diag (e : Event) (s : State) : (s.issue e).diag = s.diag := rfl
@[simp] theorem State.issue_cmd (e : Event) (s : State) : (s.issue e).cmd = s.cmd := rfl
@[simp] theorem State.issue_script (e : Event) (s : State) : (s.issue e).script = s.script := rfl
@[simp] theorem State.issue_answers (e : Event) (s : State) : (s.issue e).answers = s.answers := rfl
@[simp] theorem State.issue_cut (e : Event) (s : State) : (s.issue e).cut = s.cut := rfl
@[simp] theorem State.issue_policy (e : Event) (s : State) : (s.issue e).policy = s.policy := rfl
@[simp] theorem State.issue_reads (e : Event) (s : State) : (s.issue e).reads = s.reads := rfl
@[simp] theorem State.issue_era (e : Event) (s : State) : (s.issue e).era = s.era := rfl

@[simp] theorem State.takeAnswer_handle (s : State) : (s.takeAnswer).handle = s.handle := rfl
@[simp] theorem State.takeAnswer_configured (s : State) : (s.takeAnswer).configured = s.configured := rfl
@[simp] theorem State.takeAnswer_faultKind (s : State) : (s.takeAnswer).faultKind = s.faultKind := rfl
@[simp] theorem State.takeAnswer_a (s : State) : (s.takeAnswer).a = s.a := rfl
@[simp] theorem State.takeAnswer_result (s : State) : (s.takeAnswer).result = s.result := rfl
@[simp] theorem State.takeAnswer_rspKind (s : State) : (s.takeAnswer).rspKind = s.rspKind := rfl
@[simp] theorem State.takeAnswer_busy (s : State) : (s.takeAnswer).busy = s.busy := rfl
@[simp] theorem State.takeAnswer_op (s : State) : (s.takeAnswer).op = s.op := rfl
@[simp] theorem State.takeAnswer_seq (s : State) : (s.takeAnswer).seq = s.seq := rfl
@[simp] theorem State.takeAnswer_engine (s : State) : (s.takeAnswer).engine = s.engine := rfl
@[simp] theorem State.takeAnswer_temps (s : State) : (s.takeAnswer).temps = s.temps := rfl
@[simp] theorem State.takeAnswer_image (s : State) : (s.takeAnswer).image = s.image := rfl
@[simp] theorem State.takeAnswer_trace (s : State) : (s.takeAnswer).trace = s.trace := rfl
@[simp] theorem State.takeAnswer_diag (s : State) : (s.takeAnswer).diag = s.diag := rfl
@[simp] theorem State.takeAnswer_cmd (s : State) : (s.takeAnswer).cmd = s.cmd := rfl
@[simp] theorem State.takeAnswer_script (s : State) : (s.takeAnswer).script = s.script := rfl
@[simp] theorem State.takeAnswer_answers (s : State) : (s.takeAnswer).answers = s.answers.drop 1 := rfl
@[simp] theorem State.takeAnswer_cut (s : State) : (s.takeAnswer).cut = s.cut := rfl
@[simp] theorem State.takeAnswer_policy (s : State) : (s.takeAnswer).policy = s.policy := rfl
@[simp] theorem State.takeAnswer_reads (s : State) : (s.takeAnswer).reads = s.reads + 1 := rfl
@[simp] theorem State.takeAnswer_era (s : State) : (s.takeAnswer).era = s.era := rfl

@[simp] theorem State.endTransaction_handle (s : State) : (s.endTransaction).handle = s.handle := rfl
@[simp] theorem State.endTransaction_configured (s : State) : (s.endTransaction).configured = s.configured := rfl
@[simp] theorem State.endTransaction_faultKind (s : State) : (s.endTransaction).faultKind = s.faultKind := rfl
@[simp] theorem State.endTransaction_a (s : State) : (s.endTransaction).a = s.a := rfl
@[simp] theorem State.endTransaction_result (s : State) : (s.endTransaction).result = s.result := rfl
@[simp] theorem State.endTransaction_rspKind (s : State) : (s.endTransaction).rspKind = s.rspKind := rfl
@[simp] theorem State.endTransaction_busy (s : State) : (s.endTransaction).busy = s.busy := rfl
@[simp] theorem State.endTransaction_op (s : State) : (s.endTransaction).op = s.op := rfl
@[simp] theorem State.endTransaction_seq (s : State) : (s.endTransaction).seq = s.seq := rfl
@[simp] theorem State.endTransaction_engine (s : State) : (s.endTransaction).engine = idleEngine s.era := rfl
@[simp] theorem State.endTransaction_temps (s : State) : (s.endTransaction).temps = s.temps := rfl
@[simp] theorem State.endTransaction_image (s : State) : (s.endTransaction).image = s.image := rfl
@[simp] theorem State.endTransaction_trace (s : State) : (s.endTransaction).trace = s.trace := rfl
@[simp] theorem State.endTransaction_diag (s : State) : (s.endTransaction).diag = s.diag := rfl
@[simp] theorem State.endTransaction_cmd (s : State) : (s.endTransaction).cmd = s.cmd := rfl
@[simp] theorem State.endTransaction_script (s : State) : (s.endTransaction).script = s.script := rfl
@[simp] theorem State.endTransaction_answers (s : State) : (s.endTransaction).answers = s.answers := rfl
@[simp] theorem State.endTransaction_cut (s : State) : (s.endTransaction).cut = s.cut := rfl
@[simp] theorem State.endTransaction_policy (s : State) : (s.endTransaction).policy = s.policy := rfl
@[simp] theorem State.endTransaction_reads (s : State) : (s.endTransaction).reads = s.reads := rfl
@[simp] theorem State.endTransaction_era (s : State) : (s.endTransaction).era = s.era + 1 := rfl

@[simp] theorem State.refuse_handle (s : State) : (s.refuse).handle = s.handle := rfl
@[simp] theorem State.refuse_configured (s : State) : (s.refuse).configured = s.configured := rfl
@[simp] theorem State.refuse_faultKind (s : State) : (s.refuse).faultKind = s.faultKind := rfl
@[simp] theorem State.refuse_a (s : State) : (s.refuse).a = s.a := rfl
@[simp] theorem State.refuse_result (s : State) : (s.refuse).result = 0 := rfl
@[simp] theorem State.refuse_rspKind (s : State) : (s.refuse).rspKind = .refused := rfl
@[simp] theorem State.refuse_busy (s : State) : (s.refuse).busy = s.busy := rfl
@[simp] theorem State.refuse_op (s : State) : (s.refuse).op = s.op := rfl
@[simp] theorem State.refuse_seq (s : State) : (s.refuse).seq = s.seq := rfl
@[simp] theorem State.refuse_engine (s : State) : (s.refuse).engine = s.engine := rfl
@[simp] theorem State.refuse_temps (s : State) : (s.refuse).temps = s.temps := rfl
@[simp] theorem State.refuse_image (s : State) : (s.refuse).image = s.image := rfl
@[simp] theorem State.refuse_trace (s : State) : (s.refuse).trace = s.trace := rfl
@[simp] theorem State.refuse_diag (s : State) : (s.refuse).diag = s.diag := rfl
@[simp] theorem State.refuse_cmd (s : State) : (s.refuse).cmd = s.cmd := rfl
@[simp] theorem State.refuse_script (s : State) : (s.refuse).script = s.script := rfl
@[simp] theorem State.refuse_answers (s : State) : (s.refuse).answers = s.answers := rfl
@[simp] theorem State.refuse_cut (s : State) : (s.refuse).cut = none := rfl
@[simp] theorem State.refuse_policy (s : State) : (s.refuse).policy = s.policy := rfl
@[simp] theorem State.refuse_reads (s : State) : (s.refuse).reads = s.reads := rfl
@[simp] theorem State.refuse_era (s : State) : (s.refuse).era = s.era := rfl

@[simp] theorem State.begin_handle (h : OpHead) (s : State) : (s.begin h).handle = s.handle := rfl
@[simp] theorem State.begin_configured (h : OpHead) (s : State) : (s.begin h).configured = s.configured := rfl
@[simp] theorem State.begin_faultKind (h : OpHead) (s : State) : (s.begin h).faultKind = s.faultKind := rfl
@[simp] theorem State.begin_a (h : OpHead) (s : State) : (s.begin h).a = h.latch s := rfl
@[simp] theorem State.begin_result (h : OpHead) (s : State) : (s.begin h).result = s.result := rfl
@[simp] theorem State.begin_rspKind (h : OpHead) (s : State) : (s.begin h).rspKind = s.rspKind := rfl
@[simp] theorem State.begin_busy (h : OpHead) (s : State) : (s.begin h).busy = true := rfl
@[simp] theorem State.begin_op (h : OpHead) (s : State) : (s.begin h).op = h.opc := rfl
@[simp] theorem State.begin_seq (h : OpHead) (s : State) : (s.begin h).seq = 0 := rfl
@[simp] theorem State.begin_engine (h : OpHead) (s : State) : (s.begin h).engine = s.engine := rfl
@[simp] theorem State.begin_temps (h : OpHead) (s : State) : (s.begin h).temps = s.temps := rfl
@[simp] theorem State.begin_image (h : OpHead) (s : State) : (s.begin h).image = s.image := rfl
@[simp] theorem State.begin_trace (h : OpHead) (s : State) : (s.begin h).trace = s.trace := rfl
@[simp] theorem State.begin_diag (h : OpHead) (s : State) : (s.begin h).diag = s.diag := rfl
@[simp] theorem State.begin_cmd (h : OpHead) (s : State) : (s.begin h).cmd = s.cmd := rfl
@[simp] theorem State.begin_script (h : OpHead) (s : State) : (s.begin h).script = s.script := rfl
@[simp] theorem State.begin_answers (h : OpHead) (s : State) : (s.begin h).answers = s.answers := rfl
@[simp] theorem State.begin_cut (h : OpHead) (s : State) : (s.begin h).cut = s.cut := rfl
@[simp] theorem State.begin_policy (h : OpHead) (s : State) : (s.begin h).policy = s.policy := rfl
@[simp] theorem State.begin_reads (h : OpHead) (s : State) : (s.begin h).reads = s.reads := rfl
@[simp] theorem State.begin_era (h : OpHead) (s : State) : (s.begin h).era = s.era := rfl

@[simp] theorem State.finish_handle (s : State) : (s.finish).handle = s.handle := rfl
@[simp] theorem State.finish_configured (s : State) : (s.finish).configured = s.configured := rfl
@[simp] theorem State.finish_faultKind (s : State) : (s.finish).faultKind = s.faultKind := rfl
@[simp] theorem State.finish_a (s : State) : (s.finish).a = unspecifiedSix s.era 3 := rfl
@[simp] theorem State.finish_result (s : State) : (s.finish).result = s.result := rfl
@[simp] theorem State.finish_rspKind (s : State) : (s.finish).rspKind = s.rspKind := rfl
@[simp] theorem State.finish_busy (s : State) : (s.finish).busy = false := rfl
@[simp] theorem State.finish_op (s : State) : (s.finish).op = s.op := rfl
@[simp] theorem State.finish_seq (s : State) : (s.finish).seq = 0 := rfl
@[simp] theorem State.finish_engine (s : State) : (s.finish).engine = s.engine := rfl
@[simp] theorem State.finish_temps (s : State) : (s.finish).temps = s.temps := rfl
@[simp] theorem State.finish_image (s : State) : (s.finish).image = s.image := rfl
@[simp] theorem State.finish_trace (s : State) : (s.finish).trace = s.trace := rfl
@[simp] theorem State.finish_diag (s : State) : (s.finish).diag = s.diag := rfl
@[simp] theorem State.finish_cmd (s : State) : (s.finish).cmd = s.cmd := rfl
@[simp] theorem State.finish_script (s : State) : (s.finish).script = s.script := rfl
@[simp] theorem State.finish_answers (s : State) : (s.finish).answers = s.answers := rfl
@[simp] theorem State.finish_cut (s : State) : (s.finish).cut = none := rfl
@[simp] theorem State.finish_policy (s : State) : (s.finish).policy = s.policy := rfl
@[simp] theorem State.finish_reads (s : State) : (s.finish).reads = s.reads := rfl
@[simp] theorem State.finish_era (s : State) : (s.finish).era = s.era + 1 := rfl

@[simp] theorem State.answer_handle (v : Word) (s : State) : (s.answer v).handle = s.handle := rfl
@[simp] theorem State.answer_configured (v : Word) (s : State) : (s.answer v).configured = s.configured := rfl
@[simp] theorem State.answer_faultKind (v : Word) (s : State) : (s.answer v).faultKind = s.faultKind := rfl
@[simp] theorem State.answer_a (v : Word) (s : State) : (s.answer v).a = unspecifiedSix s.era 3 := rfl
@[simp] theorem State.answer_result (v : Word) (s : State) : (s.answer v).result = v := rfl
@[simp] theorem State.answer_rspKind (v : Word) (s : State) : (s.answer v).rspKind = .ok := rfl
@[simp] theorem State.answer_busy (v : Word) (s : State) : (s.answer v).busy = false := rfl
@[simp] theorem State.answer_op (v : Word) (s : State) : (s.answer v).op = s.op := rfl
@[simp] theorem State.answer_seq (v : Word) (s : State) : (s.answer v).seq = 0 := rfl
@[simp] theorem State.answer_engine (v : Word) (s : State) : (s.answer v).engine = s.engine := rfl
@[simp] theorem State.answer_temps (v : Word) (s : State) : (s.answer v).temps = s.temps := rfl
@[simp] theorem State.answer_image (v : Word) (s : State) : (s.answer v).image = s.image := rfl
@[simp] theorem State.answer_trace (v : Word) (s : State) : (s.answer v).trace = s.trace := rfl
@[simp] theorem State.answer_diag (v : Word) (s : State) : (s.answer v).diag = s.diag := rfl
@[simp] theorem State.answer_cmd (v : Word) (s : State) : (s.answer v).cmd = s.cmd := rfl
@[simp] theorem State.answer_script (v : Word) (s : State) : (s.answer v).script = s.script := rfl
@[simp] theorem State.answer_answers (v : Word) (s : State) : (s.answer v).answers = s.answers := rfl
@[simp] theorem State.answer_cut (v : Word) (s : State) : (s.answer v).cut = none := rfl
@[simp] theorem State.answer_policy (v : Word) (s : State) : (s.answer v).policy = s.policy := rfl
@[simp] theorem State.answer_reads (v : Word) (s : State) : (s.answer v).reads = s.reads := rfl
@[simp] theorem State.answer_era (v : Word) (s : State) : (s.answer v).era = s.era + 1 := rfl

@[simp] theorem State.takeFatal_handle (e : FatalError) (s : State) : (s.takeFatal e).handle = s.handle := rfl
@[simp] theorem State.takeFatal_configured (e : FatalError) (s : State) : (s.takeFatal e).configured = s.configured := rfl
@[simp] theorem State.takeFatal_faultKind (e : FatalError) (s : State) : (s.takeFatal e).faultKind = match s.policy with | .halt => e.kind | .report => s.faultKind := rfl
@[simp] theorem State.takeFatal_a (e : FatalError) (s : State) : (s.takeFatal e).a = unspecifiedSix s.era 3 := rfl
@[simp] theorem State.takeFatal_result (e : FatalError) (s : State) : (s.takeFatal e).result = 0 := rfl
@[simp] theorem State.takeFatal_rspKind (e : FatalError) (s : State) : (s.takeFatal e).rspKind = e.rsp := rfl
@[simp] theorem State.takeFatal_busy (e : FatalError) (s : State) : (s.takeFatal e).busy = false := rfl
@[simp] theorem State.takeFatal_op (e : FatalError) (s : State) : (s.takeFatal e).op = s.op := rfl
@[simp] theorem State.takeFatal_seq (e : FatalError) (s : State) : (s.takeFatal e).seq = 0 := rfl
@[simp] theorem State.takeFatal_engine (e : FatalError) (s : State) : (s.takeFatal e).engine = s.engine := rfl
@[simp] theorem State.takeFatal_temps (e : FatalError) (s : State) : (s.takeFatal e).temps = s.temps := rfl
@[simp] theorem State.takeFatal_image (e : FatalError) (s : State) : (s.takeFatal e).image = s.image := rfl
@[simp] theorem State.takeFatal_trace (e : FatalError) (s : State) : (s.takeFatal e).trace = s.trace := rfl
@[simp] theorem State.takeFatal_diag (e : FatalError) (s : State) : (s.takeFatal e).diag = s.diag := rfl
@[simp] theorem State.takeFatal_cmd (e : FatalError) (s : State) : (s.takeFatal e).cmd = s.cmd := rfl
@[simp] theorem State.takeFatal_script (e : FatalError) (s : State) : (s.takeFatal e).script = s.script := rfl
@[simp] theorem State.takeFatal_answers (e : FatalError) (s : State) : (s.takeFatal e).answers = s.answers := rfl
@[simp] theorem State.takeFatal_cut (e : FatalError) (s : State) : (s.takeFatal e).cut = none := rfl
@[simp] theorem State.takeFatal_policy (e : FatalError) (s : State) : (s.takeFatal e).policy = s.policy := rfl
@[simp] theorem State.takeFatal_reads (e : FatalError) (s : State) : (s.takeFatal e).reads = s.reads := rfl
@[simp] theorem State.takeFatal_era (e : FatalError) (s : State) : (s.takeFatal e).era = s.era + 1 := rfl

@[simp] theorem State.applyReset_handle (s : State) : (s.applyReset).handle = ⟨unspecifiedByte s.era 9, unspecifiedByte s.era 10, unspecifiedByte s.era 11⟩ := rfl
@[simp] theorem State.applyReset_configured (s : State) : (s.applyReset).configured = false := rfl
@[simp] theorem State.applyReset_faultKind (s : State) : (s.applyReset).faultKind = .none := rfl
@[simp] theorem State.applyReset_a (s : State) : (s.applyReset).a = unspecifiedSix s.era 3 := rfl
@[simp] theorem State.applyReset_result (s : State) : (s.applyReset).result = 0 := rfl
@[simp] theorem State.applyReset_rspKind (s : State) : (s.applyReset).rspKind = .ok := rfl
@[simp] theorem State.applyReset_busy (s : State) : (s.applyReset).busy = false := rfl
@[simp] theorem State.applyReset_op (s : State) : (s.applyReset).op = unspecifiedByte s.era 12 := rfl
@[simp] theorem State.applyReset_seq (s : State) : (s.applyReset).seq = 0 := rfl
@[simp] theorem State.applyReset_engine (s : State) : (s.applyReset).engine = idleEngine s.era := rfl
@[simp] theorem State.applyReset_temps (s : State) : (s.applyReset).temps = ⟨unspecifiedByte s.era 13, unspecifiedByte s.era 14, unspecifiedSix s.era 15⟩ := rfl
@[simp] theorem State.applyReset_image (s : State) : (s.applyReset).image = s.image := rfl
@[simp] theorem State.applyReset_trace (s : State) : (s.applyReset).trace = [] := rfl
@[simp] theorem State.applyReset_diag (s : State) : (s.applyReset).diag = [] := rfl
@[simp] theorem State.applyReset_cmd (s : State) : (s.applyReset).cmd = s.cmd := rfl
@[simp] theorem State.applyReset_script (s : State) : (s.applyReset).script = s.script := rfl
@[simp] theorem State.applyReset_answers (s : State) : (s.applyReset).answers = s.answers := rfl
@[simp] theorem State.applyReset_cut (s : State) : (s.applyReset).cut = none := rfl
@[simp] theorem State.applyReset_policy (s : State) : (s.applyReset).policy = s.policy := rfl
@[simp] theorem State.applyReset_reads (s : State) : (s.applyReset).reads = s.reads := rfl
@[simp] theorem State.applyReset_era (s : State) : (s.applyReset).era = s.era + 1 := rfl

@[simp] theorem State.setSr_handle (v : Byte) (s : State) : (s.setSr v).handle = s.handle := rfl
@[simp] theorem State.setSr_configured (v : Byte) (s : State) : (s.setSr v).configured = s.configured := rfl
@[simp] theorem State.setSr_faultKind (v : Byte) (s : State) : (s.setSr v).faultKind = s.faultKind := rfl
@[simp] theorem State.setSr_a (v : Byte) (s : State) : (s.setSr v).a = s.a := rfl
@[simp] theorem State.setSr_result (v : Byte) (s : State) : (s.setSr v).result = s.result := rfl
@[simp] theorem State.setSr_rspKind (v : Byte) (s : State) : (s.setSr v).rspKind = s.rspKind := rfl
@[simp] theorem State.setSr_busy (v : Byte) (s : State) : (s.setSr v).busy = s.busy := rfl
@[simp] theorem State.setSr_op (v : Byte) (s : State) : (s.setSr v).op = s.op := rfl
@[simp] theorem State.setSr_seq (v : Byte) (s : State) : (s.setSr v).seq = s.seq := rfl
@[simp] theorem State.setSr_engine (v : Byte) (s : State) : (s.setSr v).engine = ⟨s.engine.phase, s.engine.dirn, s.engine.bitIdx, v⟩ := rfl
@[simp] theorem State.setSr_temps (v : Byte) (s : State) : (s.setSr v).temps = s.temps := rfl
@[simp] theorem State.setSr_image (v : Byte) (s : State) : (s.setSr v).image = s.image := rfl
@[simp] theorem State.setSr_trace (v : Byte) (s : State) : (s.setSr v).trace = s.trace := rfl
@[simp] theorem State.setSr_diag (v : Byte) (s : State) : (s.setSr v).diag = s.diag := rfl
@[simp] theorem State.setSr_cmd (v : Byte) (s : State) : (s.setSr v).cmd = s.cmd := rfl
@[simp] theorem State.setSr_script (v : Byte) (s : State) : (s.setSr v).script = s.script := rfl
@[simp] theorem State.setSr_answers (v : Byte) (s : State) : (s.setSr v).answers = s.answers := rfl
@[simp] theorem State.setSr_cut (v : Byte) (s : State) : (s.setSr v).cut = s.cut := rfl
@[simp] theorem State.setSr_policy (v : Byte) (s : State) : (s.setSr v).policy = s.policy := rfl
@[simp] theorem State.setSr_reads (v : Byte) (s : State) : (s.setSr v).reads = s.reads := rfl
@[simp] theorem State.setSr_era (v : Byte) (s : State) : (s.setSr v).era = s.era := rfl

@[simp] theorem State.setBitIdx_handle (i : Nat) (s : State) : (s.setBitIdx i).handle = s.handle := rfl
@[simp] theorem State.setBitIdx_configured (i : Nat) (s : State) : (s.setBitIdx i).configured = s.configured := rfl
@[simp] theorem State.setBitIdx_faultKind (i : Nat) (s : State) : (s.setBitIdx i).faultKind = s.faultKind := rfl
@[simp] theorem State.setBitIdx_a (i : Nat) (s : State) : (s.setBitIdx i).a = s.a := rfl
@[simp] theorem State.setBitIdx_result (i : Nat) (s : State) : (s.setBitIdx i).result = s.result := rfl
@[simp] theorem State.setBitIdx_rspKind (i : Nat) (s : State) : (s.setBitIdx i).rspKind = s.rspKind := rfl
@[simp] theorem State.setBitIdx_busy (i : Nat) (s : State) : (s.setBitIdx i).busy = s.busy := rfl
@[simp] theorem State.setBitIdx_op (i : Nat) (s : State) : (s.setBitIdx i).op = s.op := rfl
@[simp] theorem State.setBitIdx_seq (i : Nat) (s : State) : (s.setBitIdx i).seq = s.seq := rfl
@[simp] theorem State.setBitIdx_engine (i : Nat) (s : State) : (s.setBitIdx i).engine = ⟨s.engine.phase, s.engine.dirn, BitVec.ofNat 3 i, s.engine.sr⟩ := rfl
@[simp] theorem State.setBitIdx_temps (i : Nat) (s : State) : (s.setBitIdx i).temps = s.temps := rfl
@[simp] theorem State.setBitIdx_image (i : Nat) (s : State) : (s.setBitIdx i).image = s.image := rfl
@[simp] theorem State.setBitIdx_trace (i : Nat) (s : State) : (s.setBitIdx i).trace = s.trace := rfl
@[simp] theorem State.setBitIdx_diag (i : Nat) (s : State) : (s.setBitIdx i).diag = s.diag := rfl
@[simp] theorem State.setBitIdx_cmd (i : Nat) (s : State) : (s.setBitIdx i).cmd = s.cmd := rfl
@[simp] theorem State.setBitIdx_script (i : Nat) (s : State) : (s.setBitIdx i).script = s.script := rfl
@[simp] theorem State.setBitIdx_answers (i : Nat) (s : State) : (s.setBitIdx i).answers = s.answers := rfl
@[simp] theorem State.setBitIdx_cut (i : Nat) (s : State) : (s.setBitIdx i).cut = s.cut := rfl
@[simp] theorem State.setBitIdx_policy (i : Nat) (s : State) : (s.setBitIdx i).policy = s.policy := rfl
@[simp] theorem State.setBitIdx_reads (i : Nat) (s : State) : (s.setBitIdx i).reads = s.reads := rfl
@[simp] theorem State.setBitIdx_era (i : Nat) (s : State) : (s.setBitIdx i).era = s.era := rfl

@[simp] theorem State.setPhase_handle (p : Phase) (s : State) : (s.setPhase p).handle = s.handle := rfl
@[simp] theorem State.setPhase_configured (p : Phase) (s : State) : (s.setPhase p).configured = s.configured := rfl
@[simp] theorem State.setPhase_faultKind (p : Phase) (s : State) : (s.setPhase p).faultKind = s.faultKind := rfl
@[simp] theorem State.setPhase_a (p : Phase) (s : State) : (s.setPhase p).a = s.a := rfl
@[simp] theorem State.setPhase_result (p : Phase) (s : State) : (s.setPhase p).result = s.result := rfl
@[simp] theorem State.setPhase_rspKind (p : Phase) (s : State) : (s.setPhase p).rspKind = s.rspKind := rfl
@[simp] theorem State.setPhase_busy (p : Phase) (s : State) : (s.setPhase p).busy = s.busy := rfl
@[simp] theorem State.setPhase_op (p : Phase) (s : State) : (s.setPhase p).op = s.op := rfl
@[simp] theorem State.setPhase_seq (p : Phase) (s : State) : (s.setPhase p).seq = s.seq := rfl
@[simp] theorem State.setPhase_engine (p : Phase) (s : State) : (s.setPhase p).engine = ⟨p, s.engine.dirn, s.engine.bitIdx, s.engine.sr⟩ := rfl
@[simp] theorem State.setPhase_temps (p : Phase) (s : State) : (s.setPhase p).temps = s.temps := rfl
@[simp] theorem State.setPhase_image (p : Phase) (s : State) : (s.setPhase p).image = s.image := rfl
@[simp] theorem State.setPhase_trace (p : Phase) (s : State) : (s.setPhase p).trace = s.trace := rfl
@[simp] theorem State.setPhase_diag (p : Phase) (s : State) : (s.setPhase p).diag = s.diag := rfl
@[simp] theorem State.setPhase_cmd (p : Phase) (s : State) : (s.setPhase p).cmd = s.cmd := rfl
@[simp] theorem State.setPhase_script (p : Phase) (s : State) : (s.setPhase p).script = s.script := rfl
@[simp] theorem State.setPhase_answers (p : Phase) (s : State) : (s.setPhase p).answers = s.answers := rfl
@[simp] theorem State.setPhase_cut (p : Phase) (s : State) : (s.setPhase p).cut = s.cut := rfl
@[simp] theorem State.setPhase_policy (p : Phase) (s : State) : (s.setPhase p).policy = s.policy := rfl
@[simp] theorem State.setPhase_reads (p : Phase) (s : State) : (s.setPhase p).reads = s.reads := rfl
@[simp] theorem State.setPhase_era (p : Phase) (s : State) : (s.setPhase p).era = s.era := rfl

@[simp] theorem State.report_handle (d : Diagnostic) (s : State) : (s.report d).handle = s.handle := rfl
@[simp] theorem State.report_configured (d : Diagnostic) (s : State) : (s.report d).configured = s.configured := rfl
@[simp] theorem State.report_faultKind (d : Diagnostic) (s : State) : (s.report d).faultKind = s.faultKind := rfl
@[simp] theorem State.report_a (d : Diagnostic) (s : State) : (s.report d).a = s.a := rfl
@[simp] theorem State.report_result (d : Diagnostic) (s : State) : (s.report d).result = s.result := rfl
@[simp] theorem State.report_rspKind (d : Diagnostic) (s : State) : (s.report d).rspKind = s.rspKind := rfl
@[simp] theorem State.report_busy (d : Diagnostic) (s : State) : (s.report d).busy = s.busy := rfl
@[simp] theorem State.report_op (d : Diagnostic) (s : State) : (s.report d).op = s.op := rfl
@[simp] theorem State.report_seq (d : Diagnostic) (s : State) : (s.report d).seq = s.seq := rfl
@[simp] theorem State.report_engine (d : Diagnostic) (s : State) : (s.report d).engine = s.engine := rfl
@[simp] theorem State.report_temps (d : Diagnostic) (s : State) : (s.report d).temps = s.temps := rfl
@[simp] theorem State.report_image (d : Diagnostic) (s : State) : (s.report d).image = s.image := rfl
@[simp] theorem State.report_trace (d : Diagnostic) (s : State) : (s.report d).trace = s.trace := rfl
@[simp] theorem State.report_diag (d : Diagnostic) (s : State) : (s.report d).diag = s.diag ++ [d] := rfl
@[simp] theorem State.report_cmd (d : Diagnostic) (s : State) : (s.report d).cmd = s.cmd := rfl
@[simp] theorem State.report_script (d : Diagnostic) (s : State) : (s.report d).script = s.script := rfl
@[simp] theorem State.report_answers (d : Diagnostic) (s : State) : (s.report d).answers = s.answers := rfl
@[simp] theorem State.report_cut (d : Diagnostic) (s : State) : (s.report d).cut = s.cut := rfl
@[simp] theorem State.report_policy (d : Diagnostic) (s : State) : (s.report d).policy = s.policy := rfl
@[simp] theorem State.report_reads (d : Diagnostic) (s : State) : (s.report d).reads = s.reads := rfl
@[simp] theorem State.report_era (d : Diagnostic) (s : State) : (s.report d).era = s.era := rfl

@[simp] theorem State.setTw_handle (v : Byte) (s : State) : (s.setTw v).handle = s.handle := rfl
@[simp] theorem State.setTw_configured (v : Byte) (s : State) : (s.setTw v).configured = s.configured := rfl
@[simp] theorem State.setTw_faultKind (v : Byte) (s : State) : (s.setTw v).faultKind = s.faultKind := rfl
@[simp] theorem State.setTw_a (v : Byte) (s : State) : (s.setTw v).a = s.a := rfl
@[simp] theorem State.setTw_result (v : Byte) (s : State) : (s.setTw v).result = s.result := rfl
@[simp] theorem State.setTw_rspKind (v : Byte) (s : State) : (s.setTw v).rspKind = s.rspKind := rfl
@[simp] theorem State.setTw_busy (v : Byte) (s : State) : (s.setTw v).busy = s.busy := rfl
@[simp] theorem State.setTw_op (v : Byte) (s : State) : (s.setTw v).op = s.op := rfl
@[simp] theorem State.setTw_seq (v : Byte) (s : State) : (s.setTw v).seq = s.seq := rfl
@[simp] theorem State.setTw_engine (v : Byte) (s : State) : (s.setTw v).engine = s.engine := rfl
@[simp] theorem State.setTw_temps (v : Byte) (s : State) : (s.setTw v).temps = ⟨s.temps.cur, v, s.temps.rb⟩ := rfl
@[simp] theorem State.setTw_image (v : Byte) (s : State) : (s.setTw v).image = s.image := rfl
@[simp] theorem State.setTw_trace (v : Byte) (s : State) : (s.setTw v).trace = s.trace := rfl
@[simp] theorem State.setTw_diag (v : Byte) (s : State) : (s.setTw v).diag = s.diag := rfl
@[simp] theorem State.setTw_cmd (v : Byte) (s : State) : (s.setTw v).cmd = s.cmd := rfl
@[simp] theorem State.setTw_script (v : Byte) (s : State) : (s.setTw v).script = s.script := rfl
@[simp] theorem State.setTw_answers (v : Byte) (s : State) : (s.setTw v).answers = s.answers := rfl
@[simp] theorem State.setTw_cut (v : Byte) (s : State) : (s.setTw v).cut = s.cut := rfl
@[simp] theorem State.setTw_policy (v : Byte) (s : State) : (s.setTw v).policy = s.policy := rfl
@[simp] theorem State.setTw_reads (v : Byte) (s : State) : (s.setTw v).reads = s.reads := rfl
@[simp] theorem State.setTw_era (v : Byte) (s : State) : (s.setTw v).era = s.era := rfl

@[simp] theorem State.setTcur_handle (v : Byte) (s : State) : (s.setTcur v).handle = s.handle := rfl
@[simp] theorem State.setTcur_configured (v : Byte) (s : State) : (s.setTcur v).configured = s.configured := rfl
@[simp] theorem State.setTcur_faultKind (v : Byte) (s : State) : (s.setTcur v).faultKind = s.faultKind := rfl
@[simp] theorem State.setTcur_a (v : Byte) (s : State) : (s.setTcur v).a = s.a := rfl
@[simp] theorem State.setTcur_result (v : Byte) (s : State) : (s.setTcur v).result = s.result := rfl
@[simp] theorem State.setTcur_rspKind (v : Byte) (s : State) : (s.setTcur v).rspKind = s.rspKind := rfl
@[simp] theorem State.setTcur_busy (v : Byte) (s : State) : (s.setTcur v).busy = s.busy := rfl
@[simp] theorem State.setTcur_op (v : Byte) (s : State) : (s.setTcur v).op = s.op := rfl
@[simp] theorem State.setTcur_seq (v : Byte) (s : State) : (s.setTcur v).seq = s.seq := rfl
@[simp] theorem State.setTcur_engine (v : Byte) (s : State) : (s.setTcur v).engine = s.engine := rfl
@[simp] theorem State.setTcur_temps (v : Byte) (s : State) : (s.setTcur v).temps = ⟨v, s.temps.w, s.temps.rb⟩ := rfl
@[simp] theorem State.setTcur_image (v : Byte) (s : State) : (s.setTcur v).image = s.image := rfl
@[simp] theorem State.setTcur_trace (v : Byte) (s : State) : (s.setTcur v).trace = s.trace := rfl
@[simp] theorem State.setTcur_diag (v : Byte) (s : State) : (s.setTcur v).diag = s.diag := rfl
@[simp] theorem State.setTcur_cmd (v : Byte) (s : State) : (s.setTcur v).cmd = s.cmd := rfl
@[simp] theorem State.setTcur_script (v : Byte) (s : State) : (s.setTcur v).script = s.script := rfl
@[simp] theorem State.setTcur_answers (v : Byte) (s : State) : (s.setTcur v).answers = s.answers := rfl
@[simp] theorem State.setTcur_cut (v : Byte) (s : State) : (s.setTcur v).cut = s.cut := rfl
@[simp] theorem State.setTcur_policy (v : Byte) (s : State) : (s.setTcur v).policy = s.policy := rfl
@[simp] theorem State.setTcur_reads (v : Byte) (s : State) : (s.setTcur v).reads = s.reads := rfl
@[simp] theorem State.setTcur_era (v : Byte) (s : State) : (s.setTcur v).era = s.era := rfl

@[simp] theorem State.storeHandle_handle (h : Handle) (s : State) : (s.storeHandle h).handle = h := rfl
@[simp] theorem State.storeHandle_configured (h : Handle) (s : State) : (s.storeHandle h).configured = true := rfl
@[simp] theorem State.storeHandle_faultKind (h : Handle) (s : State) : (s.storeHandle h).faultKind = s.faultKind := rfl
@[simp] theorem State.storeHandle_a (h : Handle) (s : State) : (s.storeHandle h).a = s.a := rfl
@[simp] theorem State.storeHandle_result (h : Handle) (s : State) : (s.storeHandle h).result = s.result := rfl
@[simp] theorem State.storeHandle_rspKind (h : Handle) (s : State) : (s.storeHandle h).rspKind = s.rspKind := rfl
@[simp] theorem State.storeHandle_busy (h : Handle) (s : State) : (s.storeHandle h).busy = s.busy := rfl
@[simp] theorem State.storeHandle_op (h : Handle) (s : State) : (s.storeHandle h).op = s.op := rfl
@[simp] theorem State.storeHandle_seq (h : Handle) (s : State) : (s.storeHandle h).seq = s.seq := rfl
@[simp] theorem State.storeHandle_engine (h : Handle) (s : State) : (s.storeHandle h).engine = s.engine := rfl
@[simp] theorem State.storeHandle_temps (h : Handle) (s : State) : (s.storeHandle h).temps = s.temps := rfl
@[simp] theorem State.storeHandle_image (h : Handle) (s : State) : (s.storeHandle h).image = s.image := rfl
@[simp] theorem State.storeHandle_trace (h : Handle) (s : State) : (s.storeHandle h).trace = s.trace := rfl
@[simp] theorem State.storeHandle_diag (h : Handle) (s : State) : (s.storeHandle h).diag = s.diag := rfl
@[simp] theorem State.storeHandle_cmd (h : Handle) (s : State) : (s.storeHandle h).cmd = s.cmd := rfl
@[simp] theorem State.storeHandle_script (h : Handle) (s : State) : (s.storeHandle h).script = s.script := rfl
@[simp] theorem State.storeHandle_answers (h : Handle) (s : State) : (s.storeHandle h).answers = s.answers := rfl
@[simp] theorem State.storeHandle_cut (h : Handle) (s : State) : (s.storeHandle h).cut = s.cut := rfl
@[simp] theorem State.storeHandle_policy (h : Handle) (s : State) : (s.storeHandle h).policy = s.policy := rfl
@[simp] theorem State.storeHandle_reads (h : Handle) (s : State) : (s.storeHandle h).reads = s.reads := rfl
@[simp] theorem State.storeHandle_era (h : Handle) (s : State) : (s.storeHandle h).era = s.era := rfl

@[simp] theorem State.setRb_handle (f : Six → Six) (s : State) : (s.setRb f).handle = s.handle := rfl
@[simp] theorem State.setRb_configured (f : Six → Six) (s : State) : (s.setRb f).configured = s.configured := rfl
@[simp] theorem State.setRb_faultKind (f : Six → Six) (s : State) : (s.setRb f).faultKind = s.faultKind := rfl
@[simp] theorem State.setRb_a (f : Six → Six) (s : State) : (s.setRb f).a = s.a := rfl
@[simp] theorem State.setRb_result (f : Six → Six) (s : State) : (s.setRb f).result = s.result := rfl
@[simp] theorem State.setRb_rspKind (f : Six → Six) (s : State) : (s.setRb f).rspKind = s.rspKind := rfl
@[simp] theorem State.setRb_busy (f : Six → Six) (s : State) : (s.setRb f).busy = s.busy := rfl
@[simp] theorem State.setRb_op (f : Six → Six) (s : State) : (s.setRb f).op = s.op := rfl
@[simp] theorem State.setRb_seq (f : Six → Six) (s : State) : (s.setRb f).seq = s.seq := rfl
@[simp] theorem State.setRb_engine (f : Six → Six) (s : State) : (s.setRb f).engine = s.engine := rfl
@[simp] theorem State.setRb_temps (f : Six → Six) (s : State) : (s.setRb f).temps = ⟨s.temps.cur, s.temps.w, f s.temps.rb⟩ := rfl
@[simp] theorem State.setRb_image (f : Six → Six) (s : State) : (s.setRb f).image = s.image := rfl
@[simp] theorem State.setRb_trace (f : Six → Six) (s : State) : (s.setRb f).trace = s.trace := rfl
@[simp] theorem State.setRb_diag (f : Six → Six) (s : State) : (s.setRb f).diag = s.diag := rfl
@[simp] theorem State.setRb_cmd (f : Six → Six) (s : State) : (s.setRb f).cmd = s.cmd := rfl
@[simp] theorem State.setRb_script (f : Six → Six) (s : State) : (s.setRb f).script = s.script := rfl
@[simp] theorem State.setRb_answers (f : Six → Six) (s : State) : (s.setRb f).answers = s.answers := rfl
@[simp] theorem State.setRb_cut (f : Six → Six) (s : State) : (s.setRb f).cut = s.cut := rfl
@[simp] theorem State.setRb_policy (f : Six → Six) (s : State) : (s.setRb f).policy = s.policy := rfl
@[simp] theorem State.setRb_reads (f : Six → Six) (s : State) : (s.setRb f).reads = s.reads := rfl
@[simp] theorem State.setRb_era (f : Six → Six) (s : State) : (s.setRb f).era = s.era := rfl

@[simp] theorem State.resetPending_cut (c : Option Cut) (s : State) :
    State.resetPending { s with cut := c } = match c with
      | some c => decide (c.kind = .reset)
      | none => false := rfl

theorem State.resetPending_of_cut_none {s : State} (h : s.cut = none) : s.resetPending = false := by
  simp [State.resetPending, h]

theorem State.resetPending_iff (s : State) : s.resetPending = true ↔ ∃ k, s.cut = some ⟨k, .reset⟩ := by
  unfold State.resetPending
  cases h : s.cut with
  | none => simp
  | some c => cases c; simp

/-- A response that no reset prevents. -/
theorem State.respond_of_not_pending {s : State} (h : s.resetPending = false) (f : State → State) : s.respond f = f s := by
  simp [State.respond, h]

/-- A reset that comes before the response (R133). -/
theorem State.respond_of_pending {s : State} (h : s.resetPending = true) (f : State → State) :
    s.respond f = s.applyReset := by
  simp [State.respond, h]

@[simp] theorem State.presentNext_handle (p : Presented) (s : State) : (s.presentNext p).handle = s.handle := rfl
@[simp] theorem State.presentNext_configured (p : Presented) (s : State) : (s.presentNext p).configured = s.configured := rfl
@[simp] theorem State.presentNext_faultKind (p : Presented) (s : State) : (s.presentNext p).faultKind = s.faultKind := rfl
@[simp] theorem State.presentNext_a (p : Presented) (s : State) : (s.presentNext p).a = s.a := rfl
@[simp] theorem State.presentNext_result (p : Presented) (s : State) : (s.presentNext p).result = s.result := rfl
@[simp] theorem State.presentNext_rspKind (p : Presented) (s : State) : (s.presentNext p).rspKind = s.rspKind := rfl
@[simp] theorem State.presentNext_busy (p : Presented) (s : State) : (s.presentNext p).busy = s.busy := rfl
@[simp] theorem State.presentNext_op (p : Presented) (s : State) : (s.presentNext p).op = s.op := rfl
@[simp] theorem State.presentNext_seq (p : Presented) (s : State) : (s.presentNext p).seq = s.seq := rfl
@[simp] theorem State.presentNext_engine (p : Presented) (s : State) : (s.presentNext p).engine = s.engine := rfl
@[simp] theorem State.presentNext_temps (p : Presented) (s : State) : (s.presentNext p).temps = s.temps := rfl
@[simp] theorem State.presentNext_image (p : Presented) (s : State) : (s.presentNext p).image = s.image := rfl
@[simp] theorem State.presentNext_trace (p : Presented) (s : State) : (s.presentNext p).trace = s.trace := rfl
@[simp] theorem State.presentNext_diag (p : Presented) (s : State) : (s.presentNext p).diag = s.diag := rfl
@[simp] theorem State.presentNext_cmd (p : Presented) (s : State) : (s.presentNext p).cmd = s.cmd := rfl
@[simp] theorem State.presentNext_script (p : Presented) (s : State) : (s.presentNext p).script = .present p none :: s.script := rfl
@[simp] theorem State.presentNext_answers (p : Presented) (s : State) : (s.presentNext p).answers = s.answers := rfl
@[simp] theorem State.presentNext_cut (p : Presented) (s : State) : (s.presentNext p).cut = s.cut := rfl
@[simp] theorem State.presentNext_policy (p : Presented) (s : State) : (s.presentNext p).policy = s.policy := rfl
@[simp] theorem State.presentNext_reads (p : Presented) (s : State) : (s.presentNext p).reads = s.reads := rfl
@[simp] theorem State.presentNext_era (p : Presented) (s : State) : (s.presentNext p).era = s.era := rfl

theorem State.sample_command (s : State) (w : CommandWord) (c : Option Cut) (r : List HostInput) :
    s.sample (.command w) c r = { s with cmd := w, script := r, cut := c } := rfl

theorem State.sample_frame (s : State) (w : WireFrame) (c : Option Cut) (r : List HostInput) :
    s.sample (.frame w) c r = { s with script := r, cut := c } := rfl

@[simp] theorem State.sample_handle (s : State) (p : Presented) (c : Option Cut) (r : List HostInput) :
    (s.sample p c r).handle = s.handle := by cases p <;> rfl
@[simp] theorem State.sample_configured (s : State) (p : Presented) (c : Option Cut) (r : List HostInput) :
    (s.sample p c r).configured = s.configured := by cases p <;> rfl
@[simp] theorem State.sample_faultKind (s : State) (p : Presented) (c : Option Cut) (r : List HostInput) :
    (s.sample p c r).faultKind = s.faultKind := by cases p <;> rfl
@[simp] theorem State.sample_a (s : State) (p : Presented) (c : Option Cut) (r : List HostInput) :
    (s.sample p c r).a = s.a := by cases p <;> rfl
@[simp] theorem State.sample_result (s : State) (p : Presented) (c : Option Cut) (r : List HostInput) :
    (s.sample p c r).result = s.result := by cases p <;> rfl
@[simp] theorem State.sample_rspKind (s : State) (p : Presented) (c : Option Cut) (r : List HostInput) :
    (s.sample p c r).rspKind = s.rspKind := by cases p <;> rfl
@[simp] theorem State.sample_busy (s : State) (p : Presented) (c : Option Cut) (r : List HostInput) :
    (s.sample p c r).busy = s.busy := by cases p <;> rfl
@[simp] theorem State.sample_op (s : State) (p : Presented) (c : Option Cut) (r : List HostInput) :
    (s.sample p c r).op = s.op := by cases p <;> rfl
@[simp] theorem State.sample_seq (s : State) (p : Presented) (c : Option Cut) (r : List HostInput) :
    (s.sample p c r).seq = s.seq := by cases p <;> rfl
@[simp] theorem State.sample_engine (s : State) (p : Presented) (c : Option Cut) (r : List HostInput) :
    (s.sample p c r).engine = s.engine := by cases p <;> rfl
@[simp] theorem State.sample_temps (s : State) (p : Presented) (c : Option Cut) (r : List HostInput) :
    (s.sample p c r).temps = s.temps := by cases p <;> rfl
@[simp] theorem State.sample_image (s : State) (p : Presented) (c : Option Cut) (r : List HostInput) :
    (s.sample p c r).image = s.image := by cases p <;> rfl
@[simp] theorem State.sample_trace (s : State) (p : Presented) (c : Option Cut) (r : List HostInput) :
    (s.sample p c r).trace = s.trace := by cases p <;> rfl
@[simp] theorem State.sample_diag (s : State) (p : Presented) (c : Option Cut) (r : List HostInput) :
    (s.sample p c r).diag = s.diag := by cases p <;> rfl
@[simp] theorem State.sample_script (s : State) (p : Presented) (c : Option Cut) (r : List HostInput) :
    (s.sample p c r).script = r := by cases p <;> rfl
@[simp] theorem State.sample_answers (s : State) (p : Presented) (c : Option Cut) (r : List HostInput) :
    (s.sample p c r).answers = s.answers := by cases p <;> rfl
@[simp] theorem State.sample_cut (s : State) (p : Presented) (c : Option Cut) (r : List HostInput) :
    (s.sample p c r).cut = c := by cases p <;> rfl
@[simp] theorem State.sample_policy (s : State) (p : Presented) (c : Option Cut) (r : List HostInput) :
    (s.sample p c r).policy = s.policy := by cases p <;> rfl
@[simp] theorem State.sample_reads (s : State) (p : Presented) (c : Option Cut) (r : List HostInput) :
    (s.sample p c r).reads = s.reads := by cases p <;> rfl
@[simp] theorem State.sample_era (s : State) (p : Presented) (c : Option Cut) (r : List HostInput) :
    (s.sample p c r).era = s.era := by cases p <;> rfl

@[simp] theorem State.compare_handle (addr got : Byte) (s : State) : (s.compare addr got).handle = s.handle := by
  unfold State.compare; split <;> rfl
@[simp] theorem State.compare_configured (addr got : Byte) (s : State) : (s.compare addr got).configured = s.configured := by
  unfold State.compare; split <;> rfl
@[simp] theorem State.compare_faultKind (addr got : Byte) (s : State) : (s.compare addr got).faultKind = s.faultKind := by
  unfold State.compare; split <;> rfl
@[simp] theorem State.compare_a (addr got : Byte) (s : State) : (s.compare addr got).a = s.a := by
  unfold State.compare; split <;> rfl
@[simp] theorem State.compare_result (addr got : Byte) (s : State) : (s.compare addr got).result = s.result := by
  unfold State.compare; split <;> rfl
@[simp] theorem State.compare_rspKind (addr got : Byte) (s : State) : (s.compare addr got).rspKind = s.rspKind := by
  unfold State.compare; split <;> rfl
@[simp] theorem State.compare_busy (addr got : Byte) (s : State) : (s.compare addr got).busy = s.busy := by
  unfold State.compare; split <;> rfl
@[simp] theorem State.compare_op (addr got : Byte) (s : State) : (s.compare addr got).op = s.op := by
  unfold State.compare; split <;> rfl
@[simp] theorem State.compare_seq (addr got : Byte) (s : State) : (s.compare addr got).seq = s.seq := by
  unfold State.compare; split <;> rfl
@[simp] theorem State.compare_engine (addr got : Byte) (s : State) : (s.compare addr got).engine = s.engine := by
  unfold State.compare; split <;> rfl
@[simp] theorem State.compare_temps (addr got : Byte) (s : State) : (s.compare addr got).temps = s.temps := by
  unfold State.compare; split <;> rfl
@[simp] theorem State.compare_image (addr got : Byte) (s : State) : (s.compare addr got).image = s.image := by
  unfold State.compare; split <;> rfl
@[simp] theorem State.compare_trace (addr got : Byte) (s : State) : (s.compare addr got).trace = s.trace := by
  unfold State.compare; split <;> rfl
@[simp] theorem State.compare_cmd (addr got : Byte) (s : State) : (s.compare addr got).cmd = s.cmd := by
  unfold State.compare; split <;> rfl
@[simp] theorem State.compare_script (addr got : Byte) (s : State) : (s.compare addr got).script = s.script := by
  unfold State.compare; split <;> rfl
@[simp] theorem State.compare_answers (addr got : Byte) (s : State) : (s.compare addr got).answers = s.answers := by
  unfold State.compare; split <;> rfl
@[simp] theorem State.compare_cut (addr got : Byte) (s : State) : (s.compare addr got).cut = s.cut := by
  unfold State.compare; split <;> rfl
@[simp] theorem State.compare_policy (addr got : Byte) (s : State) : (s.compare addr got).policy = s.policy := by
  unfold State.compare; split <;> rfl
@[simp] theorem State.compare_reads (addr got : Byte) (s : State) : (s.compare addr got).reads = s.reads := by
  unfold State.compare; split <;> rfl
@[simp] theorem State.compare_era (addr got : Byte) (s : State) : (s.compare addr got).era = s.era := by
  unfold State.compare; split <;> rfl

/-- A `writeAndCheck` reports exactly its mismatches (R79, R122). -/
theorem State.compare_diag (addr got : Byte) (s : State) :
    (s.compare addr got).diag = s.diag ++ mismatches addr s.temps.w got := by
  unfold State.compare mismatches; split <;> simp

end Sys2Proof.Machine
end

