-- ==== Sys2Proof/Laws/Engine.lean ====
section
/-! SUPPORT. Laws/Engine.lean: what a procedure of the engine can do, said once. A procedure is described by its outcome,
the state it leaves and the events it issues (10_state.md R14: both views); `Runs` says that it does exactly that, and
that a disturbance cuts it after exactly the events before it. Procedures are put together with `Runs.bind`. -/

namespace Sys2Proof.Machine

/-- What a procedure does from a state when nothing cuts it. -/
structure Deed (α : Type) where
  out : State → Except FatalError α
  nxt : State → State
  evs : State → List Event

/-- The result of a deed as the engine gives it. -/
def Deed.result {α : Type} (d : Deed α) (s : State) : EStateM.Result Abort State α :=
  match d.out s with
  | .ok a => .ok a (d.nxt s)
  | .error e => .error (.raised e) (d.nxt s)

/-- No disturbance falls on the next `n` events. -/
def State.spares (s : State) (n : Nat) : Prop :=
  ∀ c, s.cut = some c → c.after < s.seq ∨ s.seq + n ≤ c.after

/-- What no procedure of an operation's body changes: these registers are written at acceptance, at the end, by a fatal
error or by reset, and the inputs not at all. -/
structure Steady (s t : State) : Prop where
  a : t.a = s.a
  result : t.result = s.result
  rspKind : t.rspKind = s.rspKind
  faultKind : t.faultKind = s.faultKind
  busy : t.busy = s.busy
  op : t.op = s.op
  cmd : t.cmd = s.cmd
  script : t.script = s.script
  cut : t.cut = s.cut
  policy : t.policy = s.policy

/-- A state in the middle of a procedure that would issue `es`, cut at `c`. -/
structure Midst (s t : State) (es : List Event) (c : Cut) : Prop where
  trace : t.trace = s.trace ++ es.take (c.after - s.seq)
  seq : t.seq = c.after
  steady : Steady s t

/-- The procedure does the deed. -/
structure Runs {α : Type} (m : Eng α) (d : Deed α) : Prop where
  goes : ∀ s, s.spares (d.evs s).length → m s = d.result s
  stops : ∀ s c, s.cut = some c → s.seq ≤ c.after → c.after < s.seq + (d.evs s).length →
    ∃ t, m s = .error (.cut c.kind) t ∧ Midst s t (d.evs s) c
  trace : ∀ s, (d.nxt s).trace = s.trace ++ d.evs s
  seq : ∀ s, (d.nxt s).seq = s.seq + (d.evs s).length
  steady : ∀ s, Steady s (d.nxt s)

theorem Steady.refl (s : State) : Steady s s := ⟨rfl, rfl, rfl, rfl, rfl, rfl, rfl, rfl, rfl, rfl⟩

theorem Steady.trans {s t u : State} (h : Steady s t) (k : Steady t u) : Steady s u :=
  ⟨k.a.trans h.a, k.result.trans h.result, k.rspKind.trans h.rspKind, k.faultKind.trans h.faultKind,
    k.busy.trans h.busy, k.op.trans h.op, k.cmd.trans h.cmd, k.script.trans h.script, k.cut.trans h.cut,
    k.policy.trans h.policy⟩

theorem State.spares_zero (s : State) : s.spares 0 := fun c _ => by omega

theorem State.spares_of_cut_none {s : State} (h : s.cut = none) (n : Nat) : s.spares n := by
  intro c hc; simp [h] at hc

/-- The engine's sequencing. -/
theorem eng_bind {α β : Type} (m : Eng α) (k : α → Eng β) (s : State) :
    (m >>= k) s = match m s with
      | .ok a t => k a t
      | .error e t => .error e t := by
  simp only [bind, EStateM.bind]
  cases m s <;> rfl

theorem eng_pure {α : Type} (a : α) (s : State) : (pure a : Eng α) s = .ok a s := rfl

namespace Deed

/-- Nothing but a value. -/
def value {α : Type} (f : State → α) : Deed α := ⟨fun s => .ok (f s), id, fun _ => []⟩

/-- A change of registers, no event. -/
def change (f : State → State) : Deed Unit := ⟨fun _ => .ok (), f, fun _ => []⟩

/-- One event that is not a `Read`. -/
def event (e : Event) : Deed Unit := ⟨fun _ => .ok (), State.issue e, fun _ => [e]⟩

/-- A fatal error. -/
def fatal {α : Type} (e : FatalError) : Deed α := ⟨fun _ => .error e, id, fun _ => []⟩

/-- One deed after another; an error ends them. -/
def andThen {α β : Type} (d : Deed α) (k : α → Deed β) : Deed β where
  out s := match d.out s with
    | .ok a => (k a).out (d.nxt s)
    | .error e => .error e
  nxt s := match d.out s with
    | .ok a => (k a).nxt (d.nxt s)
    | .error _ => d.nxt s
  evs s := match d.out s with
    | .ok a => d.evs s ++ (k a).evs (d.nxt s)
    | .error _ => d.evs s

end Deed

theorem Runs.value {α : Type} (f : State → α) : Runs (look f) (.value f) where
  goes _ _ := rfl
  stops s c _ h1 h2 := by simp [Deed.value] at h2; omega
  trace s := by simp [Deed.value]
  seq s := rfl
  steady s := Steady.refl s

theorem Runs.pure {α : Type} (a : α) : Runs (Pure.pure a) (.value fun _ => a) := Runs.value fun _ => a

theorem Runs.fatal {α : Type} (e : FatalError) : Runs (raise e : Eng α) (.fatal e) where
  goes _ _ := rfl
  stops s c _ h1 h2 := by simp [Deed.fatal] at h2; omega
  trace s := by simp [Deed.fatal]
  seq s := rfl
  steady s := Steady.refl s

/-- A change of registers that leaves the trace, SEQ and the steady part alone. -/
theorem Runs.change {f : State → State} (ht : ∀ s, (f s).trace = s.trace) (hq : ∀ s, (f s).seq = s.seq)
    (hs : ∀ s, Steady s (f s)) : Runs (update f) (.change f) where
  goes _ _ := rfl
  stops s c _ h1 h2 := by simp [Deed.change] at h2; omega
  trace s := by simp [Deed.change, ht]
  seq s := by simp [Deed.change, hq]
  steady := hs

theorem State.dueCut_of_spares {s : State} (h : s.spares 1) : s.dueCut = none := by
  unfold State.dueCut
  split
  · next c hc => have := h c hc; rw [if_neg (by omega)]
  · rfl

theorem Runs.event (e : Event) : Runs (emit e) (.event e) where
  goes s h := by
    have := State.dueCut_of_spares (s := s) (by simpa [Deed.event] using h)
    simp only [emit, eng_bind, proceed, this]; rfl
  stops s c hc h1 h2 := by
    have h3 : c.after = s.seq := by simp [Deed.event] at h2; omega
    refine ⟨s, ?_, ⟨by simp [h3], h3.symm, Steady.refl s⟩⟩
    simp only [emit, eng_bind, proceed, State.dueCut, hc, h3, if_true]
  trace s := rfl
  seq s := rfl
  steady s := ⟨rfl, rfl, rfl, rfl, rfl, rfl, rfl, rfl, rfl, rfl⟩

/-- `Read`: the environment's next level, one answer taken, one event. -/
def Deed.sampled (pin : Byte) : Deed Level :=
  ⟨fun s => .ok (s.level 0), fun s => s.takeAnswer.issue (.read pin (s.level 0)), fun s => [.read pin (s.level 0)]⟩

theorem Runs.sampled (pin : Byte) : Runs (readPin pin) (.sampled pin) where
  goes s h := by
    have := State.dueCut_of_spares (s := s) (by simpa [Deed.sampled] using h)
    simp only [readPin, eng_bind, proceed, this]; rfl
  stops s c hc h1 h2 := by
    have h3 : c.after = s.seq := by simp [Deed.sampled] at h2; omega
    refine ⟨s, ?_, ⟨by simp [h3], h3.symm, Steady.refl s⟩⟩
    simp only [readPin, eng_bind, proceed, State.dueCut, hc, h3, if_true]
  trace s := rfl
  seq s := rfl
  steady s := ⟨rfl, rfl, rfl, rfl, rfl, rfl, rfl, rfl, rfl, rfl⟩

theorem Runs.bind {α β : Type} {m : Eng α} {d : Deed α} {k : α → Eng β} {e : α → Deed β} (hm : Runs m d)
    (hk : ∀ a, Runs (k a) (e a)) : Runs (m >>= k) (d.andThen e) where
  goes s h := by
    cases ho : d.out s with
    | error x =>
      have h1 : m s = _ := hm.goes s (by simpa [Deed.andThen, ho] using h)
      simp [eng_bind, h1, Deed.result, ho, Deed.andThen]
    | ok a =>
      simp only [Deed.andThen, ho, List.length_append] at h
      have h1 : m s = _ := hm.goes s fun c hc => by have := h c hc; omega
      have h2 := (hk a).goes (d.nxt s) fun c hc => by
        rw [(hm.steady s).cut] at hc; have := h c hc; rw [hm.seq]; omega
      simp [eng_bind, h1, Deed.result, ho, Deed.andThen, h2]
  stops s c hc h1 h2 := by
    cases ho : d.out s with
    | error x =>
      simp only [Deed.andThen, ho] at h2 ⊢
      obtain ⟨t, ht, hmid⟩ := hm.stops s c hc h1 h2
      exact ⟨t, by simp [eng_bind, ht], hmid⟩
    | ok a =>
      simp only [Deed.andThen, ho, List.length_append] at h2 ⊢
      by_cases h3 : c.after < s.seq + (d.evs s).length
      · obtain ⟨t, ht, hmid⟩ := hm.stops s c hc h1 h3
        refine ⟨t, by simp [eng_bind, ht], ⟨?_, hmid.seq, hmid.steady⟩⟩
        rw [hmid.trace, List.take_append_of_le_length (by omega)]
      · have g : m s = _ := hm.goes s fun c' hc' => by
          rw [hc] at hc'; cases hc'; omega
        have q := hm.seq s
        obtain ⟨t, ht, hmid⟩ := (hk a).stops (d.nxt s) c ((hm.steady s).cut.trans hc) (by omega) (by omega)
        refine ⟨t, by simp [eng_bind, g, Deed.result, ho, ht], ⟨?_, hmid.seq, (hm.steady s).trans hmid.steady⟩⟩
        have hsplit : c.after - s.seq - (d.evs s).length = c.after - (s.seq + (d.evs s).length) := by omega
        have hlen : (d.evs s).length ≤ c.after - s.seq := by omega
        rw [hmid.trace, hm.trace, q, List.take_append, List.take_of_length_le hlen, List.append_assoc, hsplit]
  trace s := by
    cases ho : d.out s with
    | error x => simp [Deed.andThen, ho, hm.trace]
    | ok a => simp [Deed.andThen, ho, hm.trace, (hk a).trace]
  seq s := by
    cases ho : d.out s with
    | error x => simp [Deed.andThen, ho, hm.seq]
    | ok a => simp [Deed.andThen, ho, hm.seq, (hk a).seq, Nat.add_assoc]
  steady s := by
    cases ho : d.out s with
    | error x => simpa [Deed.andThen, ho] using hm.steady s
    | ok a => simpa [Deed.andThen, ho] using (hm.steady s).trans ((hk a).steady _)

/-- A deed may be described in other words that agree with it. -/
theorem Runs.restate {α : Type} {m : Eng α} {d e : Deed α} (h : Runs m d) (ho : ∀ s, d.out s = e.out s)
    (hn : ∀ s, d.nxt s = e.nxt s) (he : ∀ s, d.evs s = e.evs s) : Runs m e := by
  have : d = e := by
    cases d; cases e
    simp only [Deed.mk.injEq]
    exact ⟨funext ho, funext hn, funext he⟩
  exact this ▸ h

/-- An undisturbed procedure, from its deed. -/
theorem Runs.undisturbed {α : Type} {m : Eng α} {d : Deed α} (h : Runs m d) {s : State} (hs : s.cut = none) :
    m s = d.result s := h.goes s (State.spares_of_cut_none hs _)

/-- A procedure either does its deed whole or is cut in its midst. -/
theorem Runs.cases {α : Type} {m : Eng α} {d : Deed α} (h : Runs m d) (s : State) :
    m s = d.result s ∨ ∃ c t, s.cut = some c ∧ m s = .error (.cut c.kind) t ∧ Midst s t (d.evs s) c := by
  by_cases hs : s.spares (d.evs s).length
  · exact .inl (h.goes s hs)
  · simp only [State.spares, not_forall, not_or, Nat.not_lt, Nat.not_le] at hs
    obtain ⟨c, hc, h1, h2⟩ := hs
    obtain ⟨t, ht, hmid⟩ := h.stops s c hc h1 h2
    exact .inr ⟨c, t, hc, ht, hmid⟩

end Sys2Proof.Machine
end

