-- ==== Sys2Proof/Laws/Channel.lean ====
section
/-! SUPPORT. Laws/Channel.lean: the Bit Channel and the Byte Channel as deeds (40_bit_byte_channel.md). -/

namespace Sys2Proof.Machine

/-- Issuing a list of events, in order. -/
def State.issueAll (s : State) (es : List Event) : State :=
  { s with
    image := es.foldl (PinImage.load s.handle) s.image
    trace := s.trace ++ es
    seq := s.seq + es.length }

theorem State.issue_eq_issueAll (s : State) (e : Event) : s.issue e = s.issueAll [e] := rfl

theorem State.issueAll_nil (s : State) : s.issueAll [] = s := by simp [State.issueAll]

theorem State.issueAll_issueAll (s : State) (es fs : List Event) :
    (s.issueAll es).issueAll fs = s.issueAll (es ++ fs) := by
  simp [State.issueAll, Nat.add_assoc]

@[simp] theorem State.issueAll_handle (s : State) (es : List Event) : (s.issueAll es).handle = s.handle := rfl
@[simp] theorem State.issueAll_engine (s : State) (es : List Event) : (s.issueAll es).engine = s.engine := rfl
@[simp] theorem State.issueAll_temps (s : State) (es : List Event) : (s.issueAll es).temps = s.temps := rfl
@[simp] theorem State.issueAll_trace (s : State) (es : List Event) : (s.issueAll es).trace = s.trace ++ es := rfl
@[simp] theorem State.issueAll_diag (s : State) (es : List Event) : (s.issueAll es).diag = s.diag := rfl
@[simp] theorem State.issueAll_configured (s : State) (es : List Event) : (s.issueAll es).configured = s.configured := rfl
@[simp] theorem State.issueAll_a (s : State) (es : List Event) : (s.issueAll es).a = s.a := rfl
@[simp] theorem State.issueAll_seq (s : State) (es : List Event) : (s.issueAll es).seq = s.seq + es.length := rfl
@[simp] theorem State.issueAll_cut (s : State) (es : List Event) : (s.issueAll es).cut = s.cut := rfl
@[simp] theorem State.issueAll_image (s : State) (es : List Event) :
    (s.issueAll es).image = es.foldl (PinImage.load s.handle) s.image := rfl
@[simp] theorem State.issueAll_level (s : State) (es : List Event) (k : Nat) : (s.issueAll es).level k = s.level k := rfl
@[simp] theorem State.issueAll_nextByte (s : State) (es : List Event) (j : Nat) :
    (s.issueAll es).nextByte j = s.nextByte j := rfl

/-- Taking `n` answers of the environment. -/
def State.takeAnswers (s : State) (n : Nat) : State := { s with answers := s.answers.drop n, reads := s.reads + n }

theorem State.takeAnswer_eq (s : State) : s.takeAnswer = s.takeAnswers 1 := rfl

theorem State.takeAnswers_takeAnswers (s : State) (m n : Nat) :
    (s.takeAnswers m).takeAnswers n = s.takeAnswers (m + n) := by
  simp [State.takeAnswers, Nat.add_assoc]

@[simp] theorem State.takeAnswers_level (s : State) (n k : Nat) : (s.takeAnswers n).level k = s.level (n + k) := by
  simp [State.takeAnswers, State.level, Nat.add_assoc]

@[simp] theorem State.takeAnswers_nextByte (s : State) (j : Nat) : (s.takeAnswers 8).nextByte j = s.nextByte (j + 1) := by
  simp only [State.nextByte, State.takeAnswers_level]
  rw [show 8 * (j + 1) = 8 + 8 * j by omega]
  simp only [Nat.add_assoc]

/-- The bits of the byte the environment answers are its levels in order (R67). -/
theorem State.nextByte_getLsbD (s : State) (j i : Nat) (hi : i < 8) :
    (s.nextByte j).getLsbD i = s.level (8 * j + i) := by
  have h : i = 0 ∨ i = 1 ∨ i = 2 ∨ i = 3 ∨ i = 4 ∨ i = 5 ∨ i = 6 ∨ i = 7 := by omega
  rcases h with rfl | rfl | rfl | rfl | rfl | rfl | rfl | rfl <;>
    simp [State.nextByte, bitOrder]

@[simp] theorem State.setSr_level (s : State) (v : Byte) (k : Nat) : (s.setSr v).level k = s.level k := rfl
@[simp] theorem State.setBitIdx_level (s : State) (i k : Nat) : (s.setBitIdx i).level k = s.level k := rfl
@[simp] theorem State.takeAnswers_handle (s : State) (n : Nat) : (s.takeAnswers n).handle = s.handle := rfl
@[simp] theorem State.takeAnswers_engine (s : State) (n : Nat) : (s.takeAnswers n).engine = s.engine := rfl

theorem Runs.setSr (v : Byte) : Runs (update (State.setSr v)) (.change (State.setSr v)) :=
  .change (fun _ => rfl) (fun _ => rfl) fun _ => ⟨rfl, rfl, rfl, rfl, rfl, rfl, rfl, rfl, rfl, rfl⟩

theorem Runs.setBitIdx (i : Nat) : Runs (update (State.setBitIdx i)) (.change (State.setBitIdx i)) :=
  .change (fun _ => rfl) (fun _ => rfl) fun _ => ⟨rfl, rfl, rfl, rfl, rfl, rfl, rfl, rfl, rfl, rfl⟩

theorem Runs.orBit (b : Level) : Runs (update (State.orBit b)) (.change (State.orBit b)) :=
  .change (fun _ => rfl) (fun _ => rfl) fun _ => ⟨rfl, rfl, rfl, rfl, rfl, rfl, rfl, rfl, rfl, rfl⟩

/-- The eight `readBit`s of a byte show the environment's levels (R67). -/
theorem readByteEvents_nextByte (h : Handle) (s : State) (j : Nat) :
    readByteEvents h (s.nextByte j) = bitOrder.flatMap fun i => readBitEvents h (s.level (8 * j + i)) := by
  unfold readByteEvents
  apply List.flatMap_congr
  intro i hi
  rw [State.nextByte_getLsbD s j i (by simp [bitOrder] at hi; omega)]

/-- `writeBit` as a deed (R62). -/
def Deed.writeBit (b : Level) : Deed Unit :=
  ⟨fun _ => .ok (), fun s => s.issueAll (writeBitEvents s.handle b), fun s => writeBitEvents s.handle b⟩

theorem writeBit_runs (b : Level) : Runs (writeBit b) (.writeBit b) := by
  refine ((Runs.value State.handle).bind fun h => (Runs.event _).bind fun _ => (Runs.event _).bind fun _ =>
    (Runs.event _).bind fun _ => (Runs.event _).bind fun _ => (Runs.event _).bind fun _ => (Runs.event _).bind fun _ =>
      Runs.event _).restate (fun _ => rfl) (fun s => ?_) (fun _ => rfl)
  simp only [Deed.andThen, Deed.value, Deed.event, State.issue_eq_issueAll, State.issueAll_issueAll]
  rfl

/-- `readBit` as a deed (R63). -/
def Deed.readBit : Deed Level :=
  ⟨fun s => .ok (s.level 0), fun s => (s.takeAnswers 1).issueAll (readBitEvents s.handle (s.level 0)),
    fun s => readBitEvents s.handle (s.level 0)⟩

theorem readBit_runs : Runs readBit .readBit := by
  refine ((Runs.value State.handle).bind fun h => (Runs.sampled _).bind fun _ => (Runs.event _).bind fun _ =>
    (Runs.event _).bind fun _ => (Runs.event _).bind fun _ => (Runs.event _).bind fun _ => (Runs.event _).bind fun _ =>
      Runs.pure _).restate (fun _ => rfl) (fun s => ?_) (fun _ => rfl)
  simp only [Deed.andThen, Deed.value, Deed.event, Deed.sampled, State.issue_eq_issueAll, State.issueAll_issueAll]
  rfl

/-- `sendBit` as a deed. -/
def Deed.sendBit (i : Nat) : Deed Unit :=
  ⟨fun _ => .ok (), fun s => (s.setBitIdx i).issueAll (writeBitEvents s.handle (s.engine.sr.getLsbD (i % 8))),
    fun s => writeBitEvents s.handle (s.engine.sr.getLsbD (i % 8))⟩

theorem sendBit_runs (i : Nat) : Runs (sendBit i) (.sendBit i) := by
  refine ((Runs.setBitIdx i).bind fun _ =>
    (Runs.value fun s => s.engine.sr.getLsbD s.engine.bitIdx.toNat).bind fun b => writeBit_runs b).restate (fun _ => rfl) (fun s => ?_) (fun s => ?_)
  · simp [Deed.andThen, Deed.value, Deed.change, Deed.writeBit, Deed.sendBit]
  · simp [Deed.andThen, Deed.value, Deed.change, Deed.writeBit, Deed.sendBit]

/-- `receiveBit` as a deed. -/
def Deed.receiveBit (i : Nat) : Deed Unit :=
  ⟨fun _ => .ok (),
    fun s => ((s.takeAnswers 1).setBitIdx i).setSr
      (s.engine.sr ||| ((BitVec.ofBool (s.level 0)).setWidth 8 <<< (i % 8))) |>.issueAll (readBitEvents s.handle (s.level 0)),
    fun s => readBitEvents s.handle (s.level 0)⟩

theorem receiveBit_runs (i : Nat) : Runs (receiveBit i) (.receiveBit i) := by
  refine ((Runs.setBitIdx i).bind fun _ => readBit_runs.bind fun b => Runs.orBit b).restate (fun _ => rfl) (fun s => ?_) (fun s => ?_)
  · show State.orBit _ _ = _
    simp [Deed.change, Deed.readBit, Deed.receiveBit, State.orBit, State.setSr, State.issueAll, State.takeAnswers,
      State.setBitIdx, State.level]
  · simp [Deed.andThen, Deed.change, Deed.readBit, Deed.receiveBit]

/-- `writeByte` as a deed (R66). -/
def Deed.writeByte (v : Byte) : Deed Unit :=
  ⟨fun _ => .ok (), fun s => ((s.setSr v).setBitIdx 7).issueAll (writeByteEvents s.handle v),
    fun s => writeByteEvents s.handle v⟩

theorem writeByte_runs (v : Byte) : Runs (writeByte v) (.writeByte v) := by
  refine ((Runs.setSr v).bind fun _ =>
    (sendBit_runs 0).bind fun _ => (sendBit_runs 1).bind fun _ => (sendBit_runs 2).bind fun _ =>
    (sendBit_runs 3).bind fun _ => (sendBit_runs 4).bind fun _ => (sendBit_runs 5).bind fun _ =>
    (sendBit_runs 6).bind fun _ => (sendBit_runs 7).bind fun _ => Runs.pure ()).restate
      (fun _ => rfl) (fun s => ?_) (fun s => ?_)
  · simp only [Deed.andThen, Deed.value, Deed.change, Deed.sendBit, Deed.writeByte, id]
    simp [State.issueAll, writeByteEvents, bitOrder, State.setSr, State.setBitIdx, Nat.add_assoc]
  · simp [Deed.andThen, Deed.value, Deed.change, Deed.sendBit, Deed.writeByte, writeByteEvents, bitOrder]

/-- `readByte` as a deed (R67). -/
def Deed.readByte : Deed Byte :=
  ⟨fun s => .ok (s.nextByte 0),
    fun s => (((s.takeAnswers 8).setSr (s.nextByte 0)).setBitIdx 7).issueAll (readByteEvents s.handle (s.nextByte 0)),
    fun s => readByteEvents s.handle (s.nextByte 0)⟩

theorem readByte_runs : Runs readByte .readByte := by
  refine ((Runs.setSr 0).bind fun _ =>
    Runs.bind ((receiveBit_runs 0).bind fun _ => (receiveBit_runs 1).bind fun _ => (receiveBit_runs 2).bind fun _ =>
    (receiveBit_runs 3).bind fun _ => (receiveBit_runs 4).bind fun _ => (receiveBit_runs 5).bind fun _ =>
    (receiveBit_runs 6).bind fun _ => (receiveBit_runs 7).bind fun _ => Runs.pure ()) fun _ =>
      Runs.value (fun s => s.engine.sr)).restate (fun s => ?_) (fun s => ?_) (fun s => ?_)
  · simp [Deed.andThen, Deed.value, Deed.change, Deed.receiveBit, Deed.readByte, State.nextByte, bitOrder]
  · simp only [Deed.andThen, Deed.value, Deed.change, Deed.receiveBit, Deed.readByte, id, readByteEvents_nextByte]
    simp [State.issueAll, bitOrder]
    simp [State.takeAnswers, State.setSr, State.nextByte, bitOrder, State.level, Nat.add_assoc]
  · simp [Deed.andThen, Deed.value, Deed.change, Deed.receiveBit, Deed.readByte, readByteEvents_nextByte, bitOrder]

end Sys2Proof.Machine
end

