-- ==== Sys2Proof/Laws/Transaction.lean ====
section
/-! SUPPORT. Laws/Transaction.lean: the Command Transaction as deeds (41_command_transaction.md R70 to R79). -/

namespace Sys2Proof.Machine

theorem Runs.setPhase (p : Phase) : Runs (update (State.setPhase p)) (.change (State.setPhase p)) :=
  .change (fun _ => rfl) (fun _ => rfl) fun _ => ⟨rfl, rfl, rfl, rfl, rfl, rfl, rfl, rfl, rfl, rfl⟩

theorem Runs.endTransaction : Runs (update State.endTransaction) (.change State.endTransaction) :=
  .change (fun _ => rfl) (fun _ => rfl) fun _ => ⟨rfl, rfl, rfl, rfl, rfl, rfl, rfl, rfl, rfl, rfl⟩

theorem Runs.setTw (v : Byte) : Runs (update (State.setTw v)) (.change (State.setTw v)) :=
  .change (fun _ => rfl) (fun _ => rfl) fun _ => ⟨rfl, rfl, rfl, rfl, rfl, rfl, rfl, rfl, rfl, rfl⟩

theorem Runs.setTcur (v : Byte) : Runs (update (State.setTcur v)) (.change (State.setTcur v)) :=
  .change (fun _ => rfl) (fun _ => rfl) fun _ => ⟨rfl, rfl, rfl, rfl, rfl, rfl, rfl, rfl, rfl, rfl⟩

theorem Runs.setRb (f : Six → Six) : Runs (update (State.setRb f)) (.change (State.setRb f)) :=
  .change (fun _ => rfl) (fun _ => rfl) fun _ => ⟨rfl, rfl, rfl, rfl, rfl, rfl, rfl, rfl, rfl, rfl⟩

theorem Runs.compare (addr got : Byte) : Runs (update (State.compare addr got)) (.change (State.compare addr got)) :=
  .change (fun s => State.compare_trace addr got s) (fun s => State.compare_seq addr got s) fun s =>
    ⟨by simp, by simp, by simp, by simp, by simp, by simp, by simp, by simp, by simp, by simp⟩

/-! ### The steps -/

/-- A change of the engine's registers together with some events. -/
def Deed.step (f : Engine → Engine) (es : Handle → List Event) : Deed Unit :=
  ⟨fun _ => .ok (), fun s => { s with engine := f s.engine }.issueAll (es s.handle), fun s => es s.handle⟩

theorem startStep_runs (r : Bool) :
    Runs (startStep r) (.step (fun e => { e with phase := .start, dirn := r }) fun h => [.write h.ce true, .delay 5]) := by
  refine ((Runs.change (f := fun s : State => { s with engine := { s.engine with phase := .start, dirn := r } })
      (fun _ => rfl) (fun _ => rfl) (fun _ => ⟨rfl, rfl, rfl, rfl, rfl, rfl, rfl, rfl, rfl, rfl⟩)).bind fun _ =>
    (Runs.value State.handle).bind fun h => (Runs.event _).bind fun _ => Runs.event _).restate
      (fun _ => rfl) (fun s => ?_) (fun _ => rfl)
  simp only [Deed.andThen, Deed.value, Deed.change, Deed.event, State.issue_eq_issueAll, State.issueAll_issueAll]
  rfl

theorem dirStepRead_runs :
    Runs dirStepRead (.step (fun e => { e with phase := .dirset }) fun h => [.setDir h.dat .input, .delay 1]) := by
  refine ((Runs.setPhase .dirset).bind fun _ => (Runs.value State.handle).bind fun h => (Runs.event _).bind fun _ =>
    Runs.event _).restate (fun _ => rfl) (fun s => ?_) (fun _ => rfl)
  simp only [Deed.andThen, Deed.value, Deed.change, Deed.event, State.issue_eq_issueAll, State.issueAll_issueAll]
  rfl

theorem dirStepWrite_runs :
    Runs dirStepWrite (.step (fun e => { e with phase := .dirset }) fun h => [.setDir h.dat .output]) :=
  ((Runs.setPhase .dirset).bind fun _ => (Runs.value State.handle).bind fun _ => Runs.event _).restate
    (fun _ => rfl) (fun _ => rfl) (fun _ => rfl)

theorem commandPhase_runs (cmd : Byte) :
    Runs (commandPhase cmd) (.step (fun e => ⟨.cmd, e.dirn, 7, cmd⟩) fun h => writeByteEvents h cmd) :=
  ((Runs.setPhase .cmd).bind fun _ => writeByte_runs cmd).restate (fun _ => rfl) (fun _ => rfl) (fun _ => rfl)

theorem dataPhaseWrite_runs (v : Byte) :
    Runs (dataPhaseWrite v) (.step (fun e => ⟨.data, e.dirn, 7, v⟩) fun h => writeByteEvents h v) :=
  ((Runs.setPhase .data).bind fun _ => writeByte_runs v).restate (fun _ => rfl) (fun _ => rfl) (fun _ => rfl)

theorem dataPhaseRead_runs : Runs dataPhaseRead
    ⟨fun s => .ok (s.nextByte 0),
      fun s => { s.takeAnswers 8 with engine := ⟨.data, s.engine.dirn, 7, s.nextByte 0⟩ }.issueAll
        (readByteEvents s.handle (s.nextByte 0)),
      fun s => readByteEvents s.handle (s.nextByte 0)⟩ :=
  ((Runs.setPhase .data).bind fun _ => readByte_runs).restate (fun _ => rfl) (fun _ => rfl) (fun _ => rfl)

theorem stopWrites_runs : Runs stopWrites (.step id stopEvents) := by
  refine ((Runs.value State.handle).bind fun h => (Runs.event _).bind fun _ => (Runs.event _).bind fun _ =>
    Runs.event _).restate (fun _ => rfl) (fun s => ?_) (fun _ => rfl)
  simp only [Deed.andThen, Deed.value, Deed.event, State.issue_eq_issueAll, State.issueAll_issueAll]
  rfl

theorem stopStep_runs : Runs stopStep
    ⟨fun _ => .ok (), fun s => s.endTransaction.issueAll (stopEvents s.handle), fun s => stopEvents s.handle⟩ := by
  refine ((Runs.setPhase .stop).bind fun _ => stopWrites_runs.bind fun _ => Runs.endTransaction).restate
    (fun _ => rfl) (fun _ => rfl) (fun s => ?_)
  simp [Deed.andThen, Deed.change, Deed.step]

/-! ### The transactions -/

/-- `regRead` as a deed (R76). -/
def Deed.regRead (addr : Byte) : Deed Byte :=
  ⟨fun s => .ok (s.nextByte 0),
    fun s => (s.takeAnswers 8).endTransaction.issueAll (regReadEvents s.handle addr (s.nextByte 0)),
    fun s => regReadEvents s.handle addr (s.nextByte 0)⟩

theorem regRead_runs (addr : Byte) : Runs (regRead addr) (.regRead addr) := by
  refine ((startStep_runs true).bind fun _ => dirStepRead_runs.bind fun _ => (commandPhase_runs _).bind fun _ =>
    dataPhaseRead_runs.bind fun v => stopStep_runs.bind fun _ => Runs.pure v).restate
      (fun _ => rfl) (fun s => ?_) (fun s => ?_)
  · show State.issueAll _ _ = _
    simp [Deed.step, Deed.regRead, State.issueAll, State.endTransaction, State.takeAnswers,
      regReadEvents, readCommand, State.nextByte, State.level, Nat.add_assoc]
    omega
  · simp [Deed.andThen, Deed.value, Deed.step, Deed.regRead, regReadEvents, readCommand, State.nextByte, State.level]
    simp [State.issueAll]

/-- `regWrite` as a deed (R77). -/
def Deed.regWrite (addr value : Byte) : Deed Unit :=
  ⟨fun _ => .ok (), fun s => s.endTransaction.issueAll (regWriteEvents s.handle addr value),
    fun s => regWriteEvents s.handle addr value⟩

theorem regWrite_runs (addr value : Byte) : Runs (regWrite addr value) (.regWrite addr value) := by
  refine ((startStep_runs false).bind fun _ => dirStepWrite_runs.bind fun _ => (commandPhase_runs _).bind fun _ =>
    (dataPhaseWrite_runs value).bind fun v => stopStep_runs).restate (fun _ => rfl) (fun s => ?_) (fun s => ?_)
  · show State.issueAll _ _ = _
    simp [Deed.step, Deed.regWrite, State.issueAll, State.endTransaction, regWriteEvents, writeCommand,
      Nat.add_assoc]
    omega
  · simp [Deed.andThen, Deed.step, Deed.regWrite, regWriteEvents, writeCommand]

/-- `writeAndCheck` as a deed (R79). -/
def Deed.writeAndCheck (addr value : Byte) : Deed Byte :=
  ⟨fun _ => .ok value,
    fun s => { (((s.setTw value).endTransaction.endTransaction).takeAnswers 8) with
        diag := s.diag ++ mismatches addr value (s.nextByte 0) }.issueAll
      (writeAndCheckEvents s.handle addr value (s.nextByte 0)),
    fun s => writeAndCheckEvents s.handle addr value (s.nextByte 0)⟩

theorem writeAndCheck_runs (addr value : Byte) : Runs (writeAndCheck addr value) (.writeAndCheck addr value) := by
  refine ((Runs.setTw value).bind fun _ => (regWrite_runs addr value).bind fun _ => (regRead_runs (addr ||| 0x01)).bind
    fun got => (Runs.compare addr got).bind fun _ => Runs.value (fun s => s.temps.w)).restate
      (fun s => ?_) (fun s => ?_) (fun s => ?_)
  · simp [Deed.andThen, Deed.value, Deed.change, Deed.regWrite, Deed.regRead, Deed.writeAndCheck, State.takeAnswers]
  · simp only [Deed.andThen, Deed.value, Deed.change, Deed.regWrite, Deed.regRead, Deed.writeAndCheck, id]
    unfold State.compare
    split
    · next h =>
      simp [State.takeAnswers, State.issueAll, State.nextByte, State.level] at h
      simp [State.issueAll, State.takeAnswers, State.endTransaction, State.setTw, writeAndCheckEvents, mismatches,
        State.nextByte, State.level, h, Nat.add_assoc]
    · next h =>
      simp [State.takeAnswers, State.issueAll, State.nextByte, State.level] at h
      simp [State.issueAll, State.takeAnswers, State.endTransaction, State.setTw, writeAndCheckEvents, mismatches,
        State.nextByte, State.level, h, Nat.add_assoc, State.report]
  · simp [Deed.andThen, Deed.value, Deed.change, Deed.regWrite, Deed.regRead, Deed.writeAndCheck, writeAndCheckEvents]
    rfl

/-! ### What the event lists come to -/

/-- Event counts (R69, R76, R77). -/
theorem writeByteEvents_length (h : Handle) (v : Byte) : (writeByteEvents h v).length = 56 := by
  simp [writeByteEvents, bitOrder, writeBitEvents]

theorem readByteEvents_length (h : Handle) (v : Byte) : (readByteEvents h v).length = 48 := by
  simp [readByteEvents, bitOrder, readBitEvents]

@[simp] theorem regReadEvents_length (h : Handle) (addr v : Byte) : (regReadEvents h addr v).length = 111 := by
  simp [regReadEvents, writeByteEvents_length, readByteEvents_length, stopEvents]

@[simp] theorem regWriteEvents_length (h : Handle) (addr v : Byte) : (regWriteEvents h addr v).length = 118 := by
  simp [regWriteEvents, writeByteEvents_length, stopEvents]

@[simp] theorem writeAndCheckEvents_length (h : Handle) (addr v got : Byte) :
    (writeAndCheckEvents h addr v got).length = 229 := by
  simp [writeAndCheckEvents]

/-- `Read` events (R69, R76, R77). -/
theorem writeByteEvents_reads (h : Handle) (v : Byte) : (writeByteEvents h v).countP Event.isRead = 0 := by
  simp [writeByteEvents, bitOrder, writeBitEvents, Event.isRead]

theorem readByteEvents_reads (h : Handle) (v : Byte) : (readByteEvents h v).countP Event.isRead = 8 := by
  simp [readByteEvents, bitOrder, readBitEvents, List.countP_cons, Event.isRead]

@[simp] theorem regReadEvents_reads (h : Handle) (addr v : Byte) : (regReadEvents h addr v).countP Event.isRead = 8 := by
  simp [regReadEvents, List.countP_append, writeByteEvents_reads, readByteEvents_reads, stopEvents,
    Event.isRead]

@[simp] theorem regWriteEvents_reads (h : Handle) (addr v : Byte) : (regWriteEvents h addr v).countP Event.isRead = 0 := by
  simp [regWriteEvents, List.countP_append, writeByteEvents_reads, stopEvents, Event.isRead]

@[simp] theorem writeAndCheckEvents_reads (h : Handle) (addr v got : Byte) :
    (writeAndCheckEvents h addr v got).countP Event.isRead = 8 := by
  simp [writeAndCheckEvents, List.countP_append]

/-- The pin image when nothing is in flight: clock, data and chip-enable low, the data pin in mode `m` (R17, R75). -/
def PinImage.low (m : PinMode) : PinImage := ⟨false, false, false, m⟩

/-- Stop brings all three pins low, whichever of the pin numbers are equal (R75). -/
theorem stop_image (h : Handle) (p : PinImage) : (stopEvents h).foldl (PinImage.load h) p = .low p.datDir := by
  simp only [stopEvents, List.foldl_cons, List.foldl_nil, PinImage.load, PinImage.low, PinImage.mk.injEq]
  simp

/-- Events that set no direction leave DAT_DIR alone. -/
theorem load_datDir (h : Handle) (es : List Event) (p : PinImage) (hs : ∀ e ∈ es, ∀ q m, e ≠ .setDir q m) :
    (es.foldl (PinImage.load h) p).datDir = p.datDir := by
  induction es generalizing p with
  | nil => rfl
  | cons e es ih =>
    rw [List.foldl_cons, ih _ fun e' he' => hs e' (List.mem_cons_of_mem _ he')]
    cases e with
    | setDir q m => exact absurd rfl (hs _ List.mem_cons_self q m)
    | init => rfl
    | write q l => rfl
    | read q l => rfl
    | delay n => rfl

theorem writeByteEvents_noDir (h : Handle) (v : Byte) : ∀ e ∈ writeByteEvents h v, ∀ q m, e ≠ .setDir q m := by
  intro e he q m
  simp only [writeByteEvents, List.mem_flatMap] at he
  obtain ⟨i, -, hi⟩ := he
  rintro rfl
  simp [writeBitEvents] at hi

theorem readByteEvents_noDir (h : Handle) (v : Byte) : ∀ e ∈ readByteEvents h v, ∀ q m, e ≠ .setDir q m := by
  intro e he q m
  simp only [readByteEvents, List.mem_flatMap] at he
  obtain ⟨i, -, hi⟩ := he
  rintro rfl
  simp [readBitEvents] at hi

/-- A read transaction leaves the pins low and the data pin an input (R72, R75). -/
@[simp] theorem regRead_image (h : Handle) (addr v : Byte) (p : PinImage) :
    (regReadEvents h addr v).foldl (PinImage.load h) p = .low .input := by
  simp only [regReadEvents, List.foldl_append, stop_image, load_datDir h _ _ (readByteEvents_noDir h v),
    load_datDir h _ _ (writeByteEvents_noDir h _)]
  simp [PinImage.load]

/-- A write transaction leaves the pins low and the data pin an output (R72, R75). -/
@[simp] theorem regWrite_image (h : Handle) (addr v : Byte) (p : PinImage) :
    (regWriteEvents h addr v).foldl (PinImage.load h) p = .low .output := by
  simp only [regWriteEvents, List.foldl_append, stop_image, load_datDir h _ _ (writeByteEvents_noDir h _)]
  simp [PinImage.load]

@[simp] theorem writeAndCheck_image (h : Handle) (addr v got : Byte) (p : PinImage) :
    (writeAndCheckEvents h addr v got).foldl (PinImage.load h) p = .low .input := by
  simp [writeAndCheckEvents, List.foldl_append]

/-! ### Size -/

theorem minimumTime_append (es fs : List Event) : minimumTime (es ++ fs) = minimumTime es + minimumTime fs := by
  simp [minimumTime]

theorem writeByteEvents_time (h : Handle) (v : Byte) : minimumTime (writeByteEvents h v) = 32 := by
  simp [minimumTime, writeByteEvents, bitOrder, writeBitEvents, Event.time]

theorem readByteEvents_time (h : Handle) (v : Byte) : minimumTime (readByteEvents h v) = 24 := by
  simp [minimumTime, readByteEvents, bitOrder, readBitEvents, Event.time]

@[simp] theorem regReadEvents_time (h : Handle) (addr v : Byte) : minimumTime (regReadEvents h addr v) = 62 := by
  simp only [regReadEvents, minimumTime_append, writeByteEvents_time, readByteEvents_time]; rfl

@[simp] theorem regWriteEvents_time (h : Handle) (addr v : Byte) : minimumTime (regWriteEvents h addr v) = 69 := by
  simp only [regWriteEvents, minimumTime_append, writeByteEvents_time]; rfl

@[simp] theorem writeAndCheckEvents_time (h : Handle) (addr v got : Byte) :
    minimumTime (writeAndCheckEvents h addr v got) = 131 := by
  simp [writeAndCheckEvents, minimumTime_append]

end Sys2Proof.Machine
end

