-- ==== Sys2Proof/Laws/Codec.lean ====
section
/-! SUPPORT. Laws/Codec.lean: the codec and the validator as deeds and on numbers (42_codec_validator.md). -/

namespace Sys2Proof.Machine

/-- The validator compares signed numbers, both bounds inclusive (R88). -/
theorem inRange_iff (lo hi v : Word) : inRange lo hi v = true ↔ lo.toInt ≤ v.toInt ∧ v.toInt ≤ hi.toInt := by
  simp [inRange, BitVec.slt]

theorem inRange_false_iff (lo hi v : Word) : inRange lo hi v = false ↔ v.toInt < lo.toInt ∨ hi.toInt < v.toInt := by
  rw [← Bool.not_eq_true, inRange_iff]; omega

/-- A value inside a domain that lies in 0..99 has an encoding (R84, R93). -/
theorem bcdEncode_of_inRange {lo hi v : Word} (h : inRange lo hi v = true) (hlo : 0 ≤ lo.toInt) (hhi : hi.toInt ≤ 99) :
    bcdEncode v.toInt = some (packBcd v.toInt.toNat) := by
  have := (inRange_iff lo hi v).mp h
  rw [bcdEncode, if_pos (by omega)]

/-- The digits of an encoding (R56, R84). -/
theorem packBcd_toNat (d : Nat) (hd : d ≤ 99) : (packBcd d).toNat = d / 10 * 16 + d % 10 := by
  have h : ∀ d : Fin 100, (packBcd d).toNat = d.val / 10 * 16 + d.val % 10 := by decide +kernel
  exact h ⟨d, by omega⟩

/-- A decoded value is at most 165 (R85). -/
theorem bcdDecode_le {t : Int} {raw : Byte} {n : Nat} (h : bcdDecode t raw = some n) : n ≤ 165 := by
  have b : ∀ raw : Byte, (raw &&& 0x0F &&& 0x01).toNat ≤ 165 ∧ (raw &&& 0x0F &&& 0x03).toNat ≤ 165 ∧
      (raw &&& 0x0F &&& 0x07).toNat ≤ 165 ∧ onesDigit raw ≤ 15 ∧ tensPart raw 0x10 ≤ 150 ∧ tensPart raw 0x30 ≤ 150 ∧
      tensPart raw 0x70 ≤ 150 ∧ tensPart raw 0xF0 ≤ 150 := by decide +kernel
  have b := b raw
  unfold bcdDecode at h
  split at h
  · cases h
  · split at h <;> cases h <;> omega

/-- `checkRange` as a deed. -/
def Deed.checkRange (lo hi v : Word) : Deed Word :=
  ⟨fun _ => if inRange lo hi v then .ok v else .error .range, id, fun _ => []⟩

theorem checkRange_runs (lo hi v : Word) : Runs (checkRange lo hi v) (.checkRange lo hi v) := by
  unfold checkRange
  split
  · next h => exact (Runs.pure v).restate (fun _ => by simp [Deed.value, Deed.checkRange, h]) (fun _ => rfl) (fun _ => rfl)
  · next h =>
    exact (Runs.fatal .range).restate (fun _ => by simp [Deed.fatal, Deed.checkRange, h]) (fun _ => rfl) (fun _ => rfl)

/-- `decode` as a deed. -/
def Deed.decodeByte (t : Int) (raw : Byte) : Deed Word :=
  ⟨fun _ => match bcdDecode t raw with
    | some n => .ok (BitVec.ofNat 32 n)
    | none => .error .configuration, id, fun _ => []⟩

theorem decodeByte_runs (t : Int) (raw : Byte) : Runs (decodeByte t raw) (.decodeByte t raw) := by
  unfold decodeByte
  split
  · next n h => exact (Runs.pure _).restate (fun _ => by simp [Deed.value, Deed.decodeByte, h]) (fun _ => rfl) (fun _ => rfl)
  · next h =>
    exact (Runs.fatal .configuration).restate (fun _ => by simp [Deed.fatal, Deed.decodeByte, h]) (fun _ => rfl)
      (fun _ => rfl)

/-- The range check and the encoding of a write, followed by `k` with the packed byte: outside the domain nothing of
`k` happens (R93, 92_eei_decisions.md D11). -/
theorem checkedEncode_runs {α : Type} {lo hi : Word} (v : Word) (hlo : 0 ≤ lo.toInt) (hhi : hi.toInt ≤ 99)
    {k : Byte → Eng α} {d : Byte → Deed α} (hk : ∀ b, Runs (k b) (d b)) :
    Runs (checkRange lo hi v >>= fun c => encodeByte c >>= k)
      ((Deed.checkRange lo hi v).andThen fun _ => d (packBcd v.toInt.toNat)) := by
  by_cases h : inRange lo hi v = true
  · have e : (checkRange lo hi v >>= fun c => encodeByte c >>= k) = k (packBcd v.toInt.toNat) := by
      funext s
      simp only [eng_bind, checkRange, h, if_true, eng_pure, encodeByte, bcdEncode_of_inRange h hlo hhi]
    rw [e]
    exact (hk _).restate (fun _ => by simp [Deed.andThen, Deed.checkRange, h])
      (fun _ => by simp [Deed.andThen, Deed.checkRange, h]) (fun _ => by simp [Deed.andThen, Deed.checkRange, h])
  · have e : (checkRange lo hi v >>= fun c => encodeByte c >>= k) = (raise .range : Eng α) := by
      funext s
      simp only [eng_bind, checkRange, h]; rfl
    rw [e]
    exact (Runs.fatal .range).restate (fun _ => by simp [Deed.fatal, Deed.andThen, Deed.checkRange, h])
      (fun _ => by simp [Deed.fatal, Deed.andThen, Deed.checkRange, h])
      (fun _ => by simp [Deed.fatal, Deed.andThen, Deed.checkRange, h])

end Sys2Proof.Machine
end

