-- ==== Sys2Proof/Laws/Bodies.lean ====
section
/-! SUPPORT. Laws/Bodies.lean: the body of every operation as a deed. -/

namespace Sys2Proof.Machine

namespace Deed

/-- A deed whose value is turned into RESULT. -/
def toWord (d : Deed Byte) (f : Byte → Word) : Deed Word := d.andThen fun v => .value fun _ => f v

/-- A deed that depends on the operand x[k]. -/
def given (k : Nat) (d : Word → Deed Word) : Deed Word := (value fun s => s.a.get k).andThen d

/-- A deed that depends on the byte operand x[k][7:0]. -/
def givenByte (k : Nat) (d : Byte → Deed Word) : Deed Word := (value fun s => (s.a.get k).extractLsb' 0 8).andThen d

/-- `regRead` with the byte read as the value of RESULT (R76, R80). -/
def wireRead (cmd : Byte) : Deed Word := (regRead cmd).toWord zext8

/-- `regWrite` with the byte written as the value of RESULT (R77, R81). -/
def wireWrite (cmd v : Byte) : Deed Word := (regWrite cmd v).andThen fun _ => value fun _ => zext8 v

/-- Generic field read (R92). -/
def fieldRead (f : Field) : Deed Word :=
  (regRead f.readAddr).andThen fun raw => (decodeByte f.widthTag raw).andThen fun d => checkRange f.min f.max d

/-- A field write that sends `g` of the packed byte (R93, R103). -/
def packedWrite (lo hi : Word) (addr : Byte) (g : Byte → Byte) (v : Word) : Deed Word :=
  (checkRange lo hi v).andThen fun _ => (writeAndCheck addr (g (packBcd v.toInt.toNat))).toWord zext8

/-- A seconds-register write that depends on the byte read before (R101, R109). -/
def modifySeconds (g : Byte → Byte) : Deed Word :=
  (regRead 0x81).andThen fun cur => (change (State.setTcur cur)).andThen fun _ =>
    (value fun s => s.temps.cur).andThen fun kept => (writeAndCheck 0x80 (g kept)).toWord zext8

/-- WR_SEC (R101). -/
def wrSec (v : Word) : Deed Word :=
  (checkRange 0 59 v).andThen fun _ => modifySeconds (keepHalt (packBcd v.toInt.toNat))

/-- A flag read (R108, R110 to R112). -/
def flagRead (addr : Byte) (flag : Byte → Byte) : Deed Word := (regRead addr).toWord fun raw => zext8 (flag raw)

/-- WR_WP (R113). -/
def wrWp (p : Word) : Deed Word := (writeAndCheck 0x8E (protectByte (p.setWidth 8))).toWord zext8

end Deed

theorem fieldRead_runs (f : Field) : Runs (fieldRead f) (.fieldRead f) :=
  (regRead_runs _).bind fun _ => (decodeByte_runs _ _).bind fun _ => checkRange_runs _ _ _

theorem fieldWrite_runs (f : Field) (v : Word) (hlo : 0 ≤ f.min.toInt) (hhi : f.max.toInt ≤ 99) :
    Runs (fieldWrite f v) (.packedWrite f.min f.max f.writeAddr id v) :=
  checkedEncode_runs v hlo hhi fun b => (writeAndCheck_runs f.writeAddr b).bind fun w => Runs.pure (zext8 w)

theorem wrHourBody_runs (v : Word) : Runs (wrHourBody v) (.packedWrite 0 24 0x84 force24 v) :=
  checkedEncode_runs v (by decide) (by decide) fun b =>
    (writeAndCheck_runs 0x84 (force24 b)).bind fun w => Runs.pure (zext8 w)

theorem modifySeconds_runs (g : Byte → Byte) :
    Runs (do
      let cur ← regRead 0x81
      update (State.setTcur cur)
      let kept ← look fun s => s.temps.cur
      let w ← writeAndCheck 0x80 (g kept)
      pure (zext8 w)) (.modifySeconds g) :=
  (regRead_runs _).bind fun cur => (Runs.setTcur cur).bind fun _ => (Runs.value _).bind fun _ =>
    (writeAndCheck_runs _ _).bind fun w => Runs.pure (zext8 w)

theorem wrSecBody_runs (v : Word) : Runs (wrSecBody v) (.wrSec v) :=
  checkedEncode_runs v (by decide) (by decide) fun b => modifySeconds_runs (keepHalt b)

theorem wrChBody_runs (h : Word) : Runs (wrChBody h) (.modifySeconds fun cur => withHalt cur (h.setWidth 8)) :=
  modifySeconds_runs _

theorem flagRead_runs (addr : Byte) (flag : Byte → Byte) : Runs (flagRead addr flag) (.flagRead addr flag) :=
  (regRead_runs addr).bind fun raw => Runs.pure (zext8 (flag raw))

theorem wrWpBody_runs (p : Word) : Runs (wrWpBody p) (.wrWp p) :=
  (writeAndCheck_runs _ _).bind fun w => Runs.pure (zext8 w)

/-- A body whose operand is latch A[0]. -/
theorem withOperand_runs {body : Word → Eng Word} {d : Word → Deed Word} (h : ∀ v, Runs (body v) (d v)) :
    Runs (withOperand body) (.given 0 d) :=
  (Runs.value _).bind h

/-! ### SETUP -/

/-- SETUP's pin check (R114). -/
def Deed.checkPin (v : Word) : Deed Unit :=
  ⟨fun _ => if pinLegal v then .ok () else .error .configuration, id, fun _ => []⟩

theorem checkPin_runs (v : Word) : Runs (checkPin v) (.checkPin v) := by
  unfold checkPin
  split
  · next h => exact (Runs.pure ()).restate (fun _ => by simp [Deed.value, Deed.checkPin, h]) (fun _ => rfl) (fun _ => rfl)
  · next h =>
    exact (Runs.fatal .configuration).restate (fun _ => by simp [Deed.fatal, Deed.checkPin, h]) (fun _ => rfl)
      (fun _ => rfl)

theorem Runs.storeHandle (h : Handle) : Runs (update (State.storeHandle h)) (.change (State.storeHandle h)) :=
  .change (fun _ => rfl) (fun _ => rfl) fun _ => ⟨rfl, rfl, rfl, rfl, rfl, rfl, rfl, rfl, rfl, rfl⟩

/-- SETUP with pins `c`, `d`, `e` (R114). -/
def Deed.setup (c d e : Word) : Deed Word :=
  (checkPin c).andThen fun _ => (checkPin d).andThen fun _ => (checkPin e).andThen fun _ =>
    ⟨fun _ => .ok (packHandle ⟨pinOf c, pinOf d, pinOf e⟩),
      fun s => (s.storeHandle ⟨pinOf c, pinOf d, pinOf e⟩).issueAll (setupEvents ⟨pinOf c, pinOf d, pinOf e⟩),
      fun _ => setupEvents ⟨pinOf c, pinOf d, pinOf e⟩⟩

theorem setupBody_runs : Runs setupBody
    (.given 0 fun c => .given 1 fun d => .given 2 fun e => .setup c d e) := by
  refine (Runs.value _).bind fun c => (Runs.value _).bind fun d => (Runs.value _).bind fun e =>
    (checkPin_runs c).bind fun _ => (checkPin_runs d).bind fun _ => (checkPin_runs e).bind fun _ => ?_
  refine ((Runs.storeHandle ⟨pinOf c, pinOf d, pinOf e⟩).bind fun _ => (Runs.value State.handle).bind fun h =>
    (Runs.event _).bind fun _ => (Runs.event _).bind fun _ => (Runs.event _).bind fun _ => (Runs.event _).bind fun _ =>
      stopWrites_runs.bind fun _ => Runs.pure _).restate (fun _ => rfl) (fun s => ?_) (fun _ => rfl)
  simp only [Deed.andThen, Deed.value, Deed.change, Deed.event, Deed.step, State.issue_eq_issueAll,
    State.issueAll_issueAll, id]
  simp [State.issueAll, State.storeHandle, setupEvents, stopEvents]

/-- SETUP leaves the pins low and the data pin an output (R17, R114). -/
theorem setup_image (h : Handle) (p : PinImage) : (setupEvents h).foldl (PinImage.load h) p = .low .output := by
  simp only [setupEvents, List.foldl_append, stop_image]
  simp [PinImage.load]

/-! ### WR_DATE -/

namespace Deed

/-- One re-read into T_RB. -/
def reread (f : Field) (g : Word → Six → Six) : Deed Unit :=
  (fieldRead f).andThen fun v => change (State.setRb (g v))

/-- Lines 1 to 7 (R115). -/
def dateWrites : Deed Unit :=
  (wrWp 0).andThen fun _ =>
  (given 0 (packedWrite 0 99 0x8C id)).andThen fun _ =>
  (given 1 (packedWrite 1 12 0x88 id)).andThen fun _ =>
  (given 2 (packedWrite 1 31 0x86 id)).andThen fun _ =>
  (given 3 (packedWrite 0 24 0x84 force24)).andThen fun _ =>
  (given 4 (packedWrite 0 59 0x82 id)).andThen fun _ =>
  (given 5 wrSec).andThen fun _ => value fun _ => ()

/-- Lines 8 to 13 (R115). -/
def dateRereads : Deed Unit :=
  (reread .year fun v r => { r with x0 := v }).andThen fun _ =>
  (reread .month fun v r => { r with x1 := v }).andThen fun _ =>
  (reread .mday fun v r => { r with x2 := v }).andThen fun _ =>
  (reread .hours fun v r => { r with x3 := v }).andThen fun _ =>
  (reread .minutes fun v r => { r with x4 := v }).andThen fun _ =>
  reread .seconds fun v r => { r with x5 := v }

/-- WR_DATE (R115). -/
def wrDate : Deed Word :=
  dateWrites.andThen fun _ => dateRereads.andThen fun _ => value fun s => differenceSum s.a s.temps.rb

end Deed

/-- Re-associating a deed for the engine's sequencing. -/
theorem Runs.bind_bind {α β γ : Type} {m : Eng α} {k : α → Eng β} {l : β → Eng γ} {d : Deed γ}
    (h : Runs ((m >>= k) >>= l) d) : Runs (m >>= fun a => k a >>= l) d := by
  have e : (m >>= fun a => k a >>= l) = ((m >>= k) >>= l) := by
    funext s
    simp only [eng_bind]
    cases m s <;> rfl
  exact e ▸ h

theorem dateWrites_runs : Runs dateWrites .dateWrites := by
  refine (wrWpBody_runs 0).bind fun _ => ?_
  refine Runs.bind_bind (((Runs.value _).bind fun y => fieldWrite_runs .year y (by decide) (by decide)).bind fun _ => ?_)
  refine Runs.bind_bind (((Runs.value _).bind fun y => fieldWrite_runs .month y (by decide) (by decide)).bind fun _ => ?_)
  refine Runs.bind_bind (((Runs.value _).bind fun y => fieldWrite_runs .mday y (by decide) (by decide)).bind fun _ => ?_)
  refine Runs.bind_bind (((Runs.value _).bind fun y => wrHourBody_runs y).bind fun _ => ?_)
  refine Runs.bind_bind (((Runs.value _).bind fun y => fieldWrite_runs .minutes y (by decide) (by decide)).bind fun _ => ?_)
  exact Runs.bind_bind (((Runs.value _).bind fun y => wrSecBody_runs y).bind fun _ => Runs.pure ())

theorem dateRereads_runs : Runs dateRereads .dateRereads := by
  refine Runs.bind_bind (((fieldRead_runs .year).bind fun y => Runs.setRb _).bind fun _ => ?_)
  refine Runs.bind_bind (((fieldRead_runs .month).bind fun y => Runs.setRb _).bind fun _ => ?_)
  refine Runs.bind_bind (((fieldRead_runs .mday).bind fun y => Runs.setRb _).bind fun _ => ?_)
  refine Runs.bind_bind (((fieldRead_runs .hours).bind fun y => Runs.setRb _).bind fun _ => ?_)
  refine Runs.bind_bind (((fieldRead_runs .minutes).bind fun y => Runs.setRb _).bind fun _ => ?_)
  exact (fieldRead_runs .seconds).bind fun y => Runs.setRb _

theorem wrDateBody_runs : Runs wrDateBody .wrDate :=
  dateWrites_runs.bind fun _ => dateRereads_runs.bind fun _ => Runs.value _

/-! ### Every body -/

/-- The deed of an instruction's body. -/
def deedOf : Instr → Deed Word
  | .setup _ _ _ => .given 0 fun c => .given 1 fun d => .given 2 fun e => .setup c d e
  | .rdSec => .fieldRead .seconds
  | .rdMin => .fieldRead .minutes
  | .rdHour => .fieldRead .hours
  | .rdMday => .fieldRead .mday
  | .rdMon => .fieldRead .month
  | .rdWday => .fieldRead .wday
  | .rdYear => .fieldRead .year
  | .wrSec _ => .given 0 .wrSec
  | .wrMin _ => .given 0 (.packedWrite 0 59 0x82 id)
  | .wrHour _ => .given 0 (.packedWrite 0 24 0x84 force24)
  | .wrMday _ => .given 0 (.packedWrite 1 31 0x86 id)
  | .wrMon _ => .given 0 (.packedWrite 1 12 0x88 id)
  | .wrWday _ => .given 0 (.packedWrite 1 7 0x8A id)
  | .wrYear _ => .given 0 (.packedWrite 0 99 0x8C id)
  | .rdCh => .flagRead 0x81 bit7
  | .wrCh _ => .given 0 fun h => .modifySeconds fun cur => withHalt cur (h.setWidth 8)
  | .rd24h => .flagRead 0x85 mode24
  | .rdPm => .flagRead 0x85 pmBit
  | .rdWp => .flagRead 0x8F bit7
  | .wrWp _ => .given 0 .wrWp
  | .wrDate _ _ _ _ _ _ => .wrDate
  | .bcdEnc _ => ⟨fun s => .ok (zext8 (packBcd (s.a.get 0).toInt.toNat)), id, fun _ => []⟩
  | .bcdDec _ _ => .given 0 fun t => .givenByte 1 fun raw => .decodeByte t.toInt raw
  | .chkRng _ _ _ => .given 0 fun lo => .given 1 fun hi => .given 2 fun v => .checkRange lo hi v
  | .xRd _ => .givenByte 0 .wireRead
  | .xWr _ _ => .givenByte 0 fun a => .givenByte 1 fun v => .wireWrite a v
  | .xWrchk _ _ => .givenByte 0 fun a => .givenByte 1 fun v => (Deed.writeAndCheck a v).toWord zext8
  | .wSec v => .wireWrite 0x80 v
  | .rSec => .wireRead 0x81
  | .wMin v => .wireWrite 0x82 v
  | .rMin => .wireRead 0x83
  | .wHour v => .wireWrite 0x84 v
  | .rHour => .wireRead 0x85
  | .wMday v => .wireWrite 0x86 v
  | .rMday => .wireRead 0x87
  | .wMon v => .wireWrite 0x88 v
  | .rMon => .wireRead 0x89
  | .wWday v => .wireWrite 0x8A v
  | .rWday => .wireRead 0x8B
  | .wYear v => .wireWrite 0x8C v
  | .rYear => .wireRead 0x8D
  | .wWp v => .wireWrite 0x8E v
  | .rWp => .wireRead 0x8F

theorem wireRead_runs (cmd : Byte) : Runs (wireRead cmd).body (.wireRead cmd) :=
  (regRead_runs cmd).bind fun v => Runs.pure (zext8 v)

theorem wireWrite_runs (cmd v : Byte) :
    Runs (wireWrite cmd v).body (.wireWrite cmd v) :=
  (regWrite_runs cmd v).bind fun _ => Runs.pure (zext8 v)

/-- Every body but BCD_ENC's does its deed from every state; BCD_ENC's does it where its operand is admitted
(`bcdEncBody_result`). -/
theorem bodies_run (i : Instr) (h : ∀ d, i ≠ .bcdEnc d) : Runs (operationOf i).body (deedOf i) := by
  cases i with
  | setup c d e => exact setupBody_runs
  | rdSec => exact fieldRead_runs .seconds
  | rdMin => exact fieldRead_runs .minutes
  | rdHour => exact fieldRead_runs .hours
  | rdMday => exact fieldRead_runs .mday
  | rdMon => exact fieldRead_runs .month
  | rdWday => exact fieldRead_runs .wday
  | rdYear => exact fieldRead_runs .year
  | wrSec v => exact withOperand_runs wrSecBody_runs
  | wrMin v => exact withOperand_runs fun v => fieldWrite_runs .minutes v (by decide) (by decide)
  | wrHour v => exact withOperand_runs wrHourBody_runs
  | wrMday v => exact withOperand_runs fun v => fieldWrite_runs .mday v (by decide) (by decide)
  | wrMon v => exact withOperand_runs fun v => fieldWrite_runs .month v (by decide) (by decide)
  | wrWday v => exact withOperand_runs fun v => fieldWrite_runs .wday v (by decide) (by decide)
  | wrYear v => exact withOperand_runs fun v => fieldWrite_runs .year v (by decide) (by decide)
  | rdCh => exact flagRead_runs 0x81 bit7
  | wrCh v => exact withOperand_runs wrChBody_runs
  | rd24h => exact flagRead_runs 0x85 mode24
  | rdPm => exact flagRead_runs 0x85 pmBit
  | rdWp => exact flagRead_runs 0x8F bit7
  | wrWp p => exact withOperand_runs wrWpBody_runs
  | wrDate y mo dd h mi se => exact wrDateBody_runs
  | bcdEnc d => exact absurd rfl (h d)
  | bcdDec t raw => exact (Runs.value _).bind fun t => (Runs.value _).bind fun raw => decodeByte_runs (BitVec.toInt t) raw
  | chkRng lo hi v =>
    exact (Runs.value _).bind fun lo => (Runs.value _).bind fun hi => (Runs.value _).bind fun v => checkRange_runs lo hi v
  | xRd a => exact (Runs.value _).bind fun a => (regRead_runs a).bind fun v => Runs.pure (zext8 v)
  | xWr a v =>
    exact (Runs.value _).bind fun a => (Runs.value _).bind fun v => (regWrite_runs a v).bind fun _ => Runs.pure (zext8 v)
  | xWrchk a v =>
    exact (Runs.value _).bind fun a => (Runs.value _).bind fun v => (writeAndCheck_runs a v).bind fun w =>
      Runs.pure (zext8 w)
  | wSec v => exact wireWrite_runs 0x80 v
  | rSec => exact wireRead_runs 0x81
  | wMin v => exact wireWrite_runs 0x82 v
  | rMin => exact wireRead_runs 0x83
  | wHour v => exact wireWrite_runs 0x84 v
  | rHour => exact wireRead_runs 0x85
  | wMday v => exact wireWrite_runs 0x86 v
  | rMday => exact wireRead_runs 0x87
  | wMon v => exact wireWrite_runs 0x88 v
  | rMon => exact wireRead_runs 0x89
  | wWday v => exact wireWrite_runs 0x8A v
  | rWday => exact wireRead_runs 0x8B
  | wYear v => exact wireWrite_runs 0x8C v
  | rYear => exact wireRead_runs 0x8D
  | wWp v => exact wireWrite_runs 0x8E v
  | rWp => exact wireRead_runs 0x8F

/-- BCD_ENC with an admitted operand in the latch (R89). -/
theorem bcdEncBody_result (s : State) (h : encAdmitted (s.a.get 0) = true) :
    bcdEncBody s = .ok (zext8 (packBcd (s.a.get 0).toInt.toNat)) s := by
  simp only [encAdmitted, Bool.and_eq_true, decide_eq_true_eq] at h
  simp only [bcdEncBody, operand, eng_bind, look, encodeByte, bcdEncode, h, and_self, if_true, eng_pure]

/-! ### What every body keeps -/

/-- Handle and CONFIGURED stay, diagnostics are only added, the pins are untouched or all low again, an idle phase returns (R17, R75), and every
`Read` takes one answer (R7). -/
structure Deed.Tidy {α : Type} (d : Deed α) : Prop where
  handle : ∀ s, (d.nxt s).handle = s.handle
  configured : ∀ s, (d.nxt s).configured = s.configured
  diag : ∀ s, s.diag <+: (d.nxt s).diag
  image : ∀ s, (d.nxt s).image = (d.evs s).foldl (PinImage.load s.handle) s.image
  pins : ∀ s, (d.nxt s).image = s.image ∨ ∃ m, (d.nxt s).image = .low m
  idle : ∀ s, s.engine.phase = .idle → (d.nxt s).engine.phase = .idle
  answers : ∀ s, (d.nxt s).answers = s.answers.drop ((d.evs s).countP Event.isRead)
  reads : ∀ s, (d.nxt s).reads = s.reads + (d.evs s).countP Event.isRead

theorem Deed.Tidy.andThen {α β : Type} {d : Deed α} {k : α → Deed β} (hd : d.Tidy) (hk : ∀ a, (k a).Tidy) :
    (d.andThen k).Tidy where
  handle s := by
    simp only [Deed.andThen]; split
    · rw [(hk _).handle, hd.handle]
    · exact hd.handle s
  configured s := by
    simp only [Deed.andThen]; split
    · rw [(hk _).configured, hd.configured]
    · exact hd.configured s
  diag s := by
    simp only [Deed.andThen]; split
    · exact (hd.diag s).trans ((hk _).diag _)
    · exact hd.diag s
  image s := by
    simp only [Deed.andThen]; split
    · rw [(hk _).image, hd.image, hd.handle, List.foldl_append]
    · exact hd.image s
  pins s := by
    simp only [Deed.andThen]; split
    · rcases (hk _).pins (d.nxt s) with h | h
      · rw [h]; exact hd.pins s
      · exact .inr h
    · exact hd.pins s
  idle s h := by
    have h' := hd.idle s h
    simp only [Deed.andThen]; split
    · exact (hk _).idle _ h'
    · exact h'
  answers s := by
    simp only [Deed.andThen]; split
    · rw [(hk _).answers, hd.answers, List.drop_drop, List.countP_append]
    · exact hd.answers s
  reads s := by
    simp only [Deed.andThen]; split
    · rw [(hk _).reads, hd.reads, List.countP_append, Nat.add_assoc]
    · exact hd.reads s

/-- A deed that changes no state is tidy. -/
theorem Deed.Tidy.of_id {α : Type} {d : Deed α} (h : ∀ s, d.nxt s = s) (he : ∀ s, d.evs s = []) : d.Tidy where
  handle s := by rw [h]
  configured s := by rw [h]
  diag s := by rw [h]
  image s := by rw [h, he]; rfl
  pins s := by rw [h]; exact .inl rfl
  idle s hs := by rw [h]; exact hs
  answers s := by rw [h, he]; rfl
  reads s := by rw [h, he]; rfl

theorem Deed.Tidy.value {α : Type} (f : State → α) : (Deed.value f).Tidy := .of_id (fun _ => rfl) fun _ => rfl

theorem Deed.Tidy.checkRange (lo hi v : Word) : (Deed.checkRange lo hi v).Tidy := .of_id (fun _ => rfl) fun _ => rfl

theorem Deed.Tidy.decodeByte (t : Int) (raw : Byte) : (Deed.decodeByte t raw).Tidy := .of_id (fun _ => rfl) fun _ => rfl

theorem Deed.Tidy.regRead (addr : Byte) : (Deed.regRead addr).Tidy where
  handle _ := rfl
  configured _ := rfl
  diag _ := List.prefix_rfl
  image _ := rfl
  pins s := .inr ⟨.input, by simp [Deed.regRead]⟩
  idle _ _ := rfl
  answers s := by rw [show ((Deed.regRead addr).evs s).countP Event.isRead = 8 from regReadEvents_reads ..]; rfl
  reads s := by rw [show ((Deed.regRead addr).evs s).countP Event.isRead = 8 from regReadEvents_reads ..]; rfl

theorem Deed.Tidy.regWrite (addr v : Byte) : (Deed.regWrite addr v).Tidy where
  handle _ := rfl
  configured _ := rfl
  diag _ := List.prefix_rfl
  image _ := rfl
  pins s := .inr ⟨.output, by simp [Deed.regWrite]⟩
  idle _ _ := rfl
  answers s := by rw [show ((Deed.regWrite addr v).evs s).countP Event.isRead = 0 from regWriteEvents_reads ..]; rfl
  reads s := by rw [show ((Deed.regWrite addr v).evs s).countP Event.isRead = 0 from regWriteEvents_reads ..]; rfl

theorem Deed.Tidy.writeAndCheck (addr v : Byte) : (Deed.writeAndCheck addr v).Tidy where
  handle _ := rfl
  configured _ := rfl
  diag _ := List.prefix_append _ _
  image s := by
    rw [show ((Deed.writeAndCheck addr v).nxt s).image = .low .input by simp [Deed.writeAndCheck]]
    exact (writeAndCheck_image ..).symm
  pins s := .inr ⟨.input, by simp [Deed.writeAndCheck]⟩
  idle _ _ := rfl
  answers s := by rw [show ((Deed.writeAndCheck addr v).evs s).countP Event.isRead = 8 from writeAndCheckEvents_reads ..]; rfl
  reads s := by rw [show ((Deed.writeAndCheck addr v).evs s).countP Event.isRead = 8 from writeAndCheckEvents_reads ..]; rfl

theorem Deed.Tidy.setTcur (v : Byte) : (Deed.change (State.setTcur v)).Tidy :=
  ⟨fun _ => rfl, fun _ => rfl, fun _ => List.prefix_rfl, fun _ => rfl, fun _ => .inl rfl, fun _ h => h,
    fun _ => rfl, fun _ => rfl⟩

theorem Deed.Tidy.setRb (f : Six → Six) : (Deed.change (State.setRb f)).Tidy :=
  ⟨fun _ => rfl, fun _ => rfl, fun _ => List.prefix_rfl, fun _ => rfl, fun _ => .inl rfl, fun _ h => h,
    fun _ => rfl, fun _ => rfl⟩

theorem Deed.Tidy.toWord {d : Deed Byte} (h : d.Tidy) (f : Byte → Word) : (d.toWord f).Tidy :=
  h.andThen fun _ => .value _

theorem Deed.Tidy.given {k : Nat} {d : Word → Deed Word} (h : ∀ v, (d v).Tidy) : (Deed.given k d).Tidy :=
  (Tidy.value _).andThen h

theorem Deed.Tidy.givenByte {k : Nat} {d : Byte → Deed Word} (h : ∀ v, (d v).Tidy) : (Deed.givenByte k d).Tidy :=
  (Tidy.value _).andThen h

theorem Deed.Tidy.wireRead (cmd : Byte) : (Deed.wireRead cmd).Tidy := (Tidy.regRead cmd).toWord _

theorem Deed.Tidy.wireWrite (cmd v : Byte) : (Deed.wireWrite cmd v).Tidy := (Tidy.regWrite cmd v).andThen fun _ => .value _

theorem Deed.Tidy.fieldRead (f : Field) : (Deed.fieldRead f).Tidy :=
  (Tidy.regRead _).andThen fun _ => (Tidy.decodeByte ..).andThen fun _ => .checkRange ..

theorem Deed.Tidy.flagRead (a : Byte) (g : Byte → Byte) : (Deed.flagRead a g).Tidy := (Tidy.regRead a).toWord _

theorem Deed.Tidy.packedWrite (lo hi : Word) (a : Byte) (g : Byte → Byte) (v : Word) :
    (Deed.packedWrite lo hi a g v).Tidy :=
  (Tidy.checkRange ..).andThen fun _ => (Tidy.writeAndCheck ..).toWord _

theorem Deed.Tidy.modifySeconds (g : Byte → Byte) : (Deed.modifySeconds g).Tidy :=
  (Tidy.regRead _).andThen fun _ => (Tidy.setTcur _).andThen fun _ => (Tidy.value _).andThen fun _ =>
    (Tidy.writeAndCheck ..).toWord _

theorem Deed.Tidy.wrSec (v : Word) : (Deed.wrSec v).Tidy := (Tidy.checkRange ..).andThen fun _ => .modifySeconds _

theorem Deed.Tidy.wrWp (p : Word) : (Deed.wrWp p).Tidy := (Tidy.writeAndCheck ..).toWord _

theorem Deed.Tidy.reread (f : Field) (g : Word → Six → Six) : (Deed.reread f g).Tidy :=
  (Tidy.fieldRead f).andThen fun _ => .setRb _

theorem Deed.Tidy.dateWrites : Deed.dateWrites.Tidy :=
  (Tidy.wrWp 0).andThen fun _ => (Tidy.given fun _ => .packedWrite ..).andThen fun _ =>
    (Tidy.given fun _ => .packedWrite ..).andThen fun _ => (Tidy.given fun _ => .packedWrite ..).andThen fun _ =>
    (Tidy.given fun _ => .packedWrite ..).andThen fun _ => (Tidy.given fun _ => .packedWrite ..).andThen fun _ =>
    (Tidy.given .wrSec).andThen fun _ => .value _

theorem Deed.Tidy.dateRereads : Deed.dateRereads.Tidy :=
  (Tidy.reread ..).andThen fun _ => (Tidy.reread ..).andThen fun _ => (Tidy.reread ..).andThen fun _ =>
    (Tidy.reread ..).andThen fun _ => (Tidy.reread ..).andThen fun _ => .reread ..

theorem Deed.Tidy.wrDate : Deed.wrDate.Tidy :=
  Tidy.dateWrites.andThen fun _ => Tidy.dateRereads.andThen fun _ => .value _

/-- Every body but SETUP's is tidy. -/
theorem deedOf_tidy (i : Instr) (h : ∀ c d e, i ≠ .setup c d e) : (deedOf i).Tidy := by
  cases i with
  | setup c d e => exact absurd rfl (h c d e)
  | rdSec => exact .fieldRead _
  | rdMin => exact .fieldRead _
  | rdHour => exact .fieldRead _
  | rdMday => exact .fieldRead _
  | rdMon => exact .fieldRead _
  | rdWday => exact .fieldRead _
  | rdYear => exact .fieldRead _
  | wrSec v => exact .given .wrSec
  | wrMin v => exact .given fun _ => .packedWrite ..
  | wrHour v => exact .given fun _ => .packedWrite ..
  | wrMday v => exact .given fun _ => .packedWrite ..
  | wrMon v => exact .given fun _ => .packedWrite ..
  | wrWday v => exact .given fun _ => .packedWrite ..
  | wrYear v => exact .given fun _ => .packedWrite ..
  | rdCh => exact .flagRead ..
  | wrCh v => exact .given fun _ => .modifySeconds _
  | rd24h => exact .flagRead ..
  | rdPm => exact .flagRead ..
  | rdWp => exact .flagRead ..
  | wrWp p => exact .given .wrWp
  | wrDate y mo dd h mi se => exact .wrDate
  | bcdEnc d => exact .of_id (fun _ => rfl) fun _ => rfl
  | bcdDec t raw => exact .given fun _ => .givenByte fun _ => .decodeByte ..
  | chkRng lo hi v => exact .given fun _ => .given fun _ => .given fun _ => .checkRange ..
  | xRd a => exact .givenByte .wireRead
  | xWr a v => exact .givenByte fun _ => .givenByte fun _ => .wireWrite ..
  | xWrchk a v => exact .givenByte fun _ => .givenByte fun _ => .toWord (.writeAndCheck ..) _
  | wSec v => exact .wireWrite ..
  | rSec => exact .wireRead _
  | wMin v => exact .wireWrite ..
  | rMin => exact .wireRead _
  | wHour v => exact .wireWrite ..
  | rHour => exact .wireRead _
  | wMday v => exact .wireWrite ..
  | rMday => exact .wireRead _
  | wMon v => exact .wireWrite ..
  | rMon => exact .wireRead _
  | wWday v => exact .wireWrite ..
  | rWday => exact .wireRead _
  | wYear v => exact .wireWrite ..
  | rYear => exact .wireRead _
  | wWp v => exact .wireWrite ..
  | rWp => exact .wireRead _

end Sys2Proof.Machine
end

