-- ==== Sys2Proof/Laws/Decode.lean ====
section
/-! SUPPORT. Laws/Decode.lean: the fields of the words the encoder builds (30_encoding.md R46, R48, R53). -/

namespace Sys2Proof

/-- Which field a bit of a command word belongs to (R46). -/
theorem packCommand_getLsbD (opc : Byte) (s0 s1 s2 s3 s4 s5 : Word) (i : Nat) :
    (packCommand opc s0 s1 s2 s3 s4 s5).getLsbD i =
      if i < 8 then opc.getLsbD i
      else if i - 8 < 32 then s0.getLsbD (i - 8)
      else if i - 8 - 32 < 32 then s1.getLsbD (i - 8 - 32)
      else if i - 8 - 32 - 32 < 32 then s2.getLsbD (i - 8 - 32 - 32)
      else if i - 8 - 32 - 32 - 32 < 32 then s3.getLsbD (i - 8 - 32 - 32 - 32)
      else if i - 8 - 32 - 32 - 32 - 32 < 32 then s4.getLsbD (i - 8 - 32 - 32 - 32 - 32)
      else s5.getLsbD (i - 8 - 32 - 32 - 32 - 32 - 32) := by
  show BitVec.getLsbD (s5 ++ s4 ++ s3 ++ s2 ++ s1 ++ s0 ++ opc) i = _
  simp only [BitVec.getLsbD_append]

@[simp] theorem opcodeOf_packCommand (opc : Byte) (s0 s1 s2 s3 s4 s5 : Word) :
    opcodeOf (packCommand opc s0 s1 s2 s3 s4 s5) = opc := by
  apply BitVec.eq_of_getLsbD_eq
  intro i hi
  rw [opcodeOf, BitVec.getLsbD_extractLsb', packCommand_getLsbD]
  simp [hi]

/-- Slot `k` of a packed command word, for a `k` whose bit offsets `omega` can settle. -/
theorem slotOf_getLsbD (w : CommandWord) (k i : Nat) (hi : i < 32) : (slotOf w k).getLsbD i = w.getLsbD (8 + 32 * k + i) := by
  rw [slotOf, BitVec.getLsbD_extractLsb']; simp [hi]

@[simp] theorem slotOf_packCommand_0 (opc : Byte) (s0 s1 s2 s3 s4 s5 : Word) :
    slotOf (packCommand opc s0 s1 s2 s3 s4 s5) 0 = s0 := by
  apply BitVec.eq_of_getLsbD_eq
  intro i hi
  have e : 8 + 32 * 0 + i - 8 = i := by omega
  rw [slotOf_getLsbD _ _ _ hi, packCommand_getLsbD]
  rw [if_neg (by omega), if_pos (by omega), e]

@[simp] theorem slotOf_packCommand_1 (opc : Byte) (s0 s1 s2 s3 s4 s5 : Word) :
    slotOf (packCommand opc s0 s1 s2 s3 s4 s5) 1 = s1 := by
  apply BitVec.eq_of_getLsbD_eq
  intro i hi
  have e : 8 + 32 * 1 + i - 8 - 32 = i := by omega
  rw [slotOf_getLsbD _ _ _ hi, packCommand_getLsbD]
  rw [if_neg (by omega), if_neg (by omega), if_pos (by omega), e]

@[simp] theorem slotOf_packCommand_2 (opc : Byte) (s0 s1 s2 s3 s4 s5 : Word) :
    slotOf (packCommand opc s0 s1 s2 s3 s4 s5) 2 = s2 := by
  apply BitVec.eq_of_getLsbD_eq
  intro i hi
  have e : 8 + 32 * 2 + i - 8 - 32 - 32 = i := by omega
  rw [slotOf_getLsbD _ _ _ hi, packCommand_getLsbD]
  rw [if_neg (by omega), if_neg (by omega), if_neg (by omega), if_pos (by omega), e]

@[simp] theorem slotOf_packCommand_3 (opc : Byte) (s0 s1 s2 s3 s4 s5 : Word) :
    slotOf (packCommand opc s0 s1 s2 s3 s4 s5) 3 = s3 := by
  apply BitVec.eq_of_getLsbD_eq
  intro i hi
  have e : 8 + 32 * 3 + i - 8 - 32 - 32 - 32 = i := by omega
  rw [slotOf_getLsbD _ _ _ hi, packCommand_getLsbD]
  rw [if_neg (by omega), if_neg (by omega), if_neg (by omega), if_neg (by omega), if_pos (by omega), e]

@[simp] theorem slotOf_packCommand_4 (opc : Byte) (s0 s1 s2 s3 s4 s5 : Word) :
    slotOf (packCommand opc s0 s1 s2 s3 s4 s5) 4 = s4 := by
  apply BitVec.eq_of_getLsbD_eq
  intro i hi
  have e : 8 + 32 * 4 + i - 8 - 32 - 32 - 32 - 32 = i := by omega
  rw [slotOf_getLsbD _ _ _ hi, packCommand_getLsbD]
  rw [if_neg (by omega), if_neg (by omega), if_neg (by omega), if_neg (by omega), if_neg (by omega), if_pos (by omega), e]

@[simp] theorem slotOf_packCommand_5 (opc : Byte) (s0 s1 s2 s3 s4 s5 : Word) :
    slotOf (packCommand opc s0 s1 s2 s3 s4 s5) 5 = s5 := by
  apply BitVec.eq_of_getLsbD_eq
  intro i hi
  have e : 8 + 32 * 5 + i - 8 - 32 - 32 - 32 - 32 - 32 = i := by omega
  rw [slotOf_getLsbD _ _ _ hi, packCommand_getLsbD]
  rw [if_neg (by omega), if_neg (by omega), if_neg (by omega), if_neg (by omega), if_neg (by omega), if_neg (by omega), e]

/-- A byte operand comes back from its slot (R48). -/
@[simp] theorem byteSlot_low (b : Byte) : (byteSlot b).extractLsb' 0 8 = b := by
  apply BitVec.eq_of_getLsbD_eq
  intro i hi
  simp [byteSlot, hi]
  omega

@[simp] theorem wireByteOf_frame (cmd data : Byte) : wireByteOf (data ++ cmd) = cmd := by
  apply BitVec.eq_of_getLsbD_eq
  intro i hi
  rw [wireByteOf, BitVec.getLsbD_extractLsb']
  show (decide (i < 8) && BitVec.getLsbD (data ++ cmd) (0 + i)) = _
  rw [BitVec.getLsbD_append]
  simp [hi]

@[simp] theorem wireDataOf_frame (cmd data : Byte) : wireDataOf (data ++ cmd) = data := by
  apply BitVec.eq_of_getLsbD_eq
  intro i hi
  rw [wireDataOf, BitVec.getLsbD_extractLsb']
  show (decide (i < 8) && BitVec.getLsbD (data ++ cmd) (8 + i)) = _
  rw [BitVec.getLsbD_append]
  simp [hi]

end Sys2Proof
end

