-- ==== Sys2Proof/Laws/Operation.lean ====
section
/-! SUPPORT. Laws/Operation.lean: what `exec` and `step` can do, said once. -/

namespace Sys2Proof.Machine

/-- Every meaning is its operation, run. -/
theorem exec_eq_run (i : Instr) (s : State) : exec i s = runOperation (operationOf i) s := by
  cases i <;> rfl

/-! ### Operands -/

@[simp] theorem overlay_low (w : Word) (b : Byte) : (overlay w b).extractLsb' 0 8 = b := by
  apply BitVec.eq_of_getLsbD_eq
  intro i hi
  rw [BitVec.getLsbD_extractLsb']
  show (decide (i < 8) && BitVec.getLsbD (w.extractLsb' 8 24 ++ b) (0 + i)) = _
  rw [BitVec.getLsbD_append]
  simp [hi]

theorem overlay_same (w : Word) : overlay w (w.extractLsb' 0 8) = w := by
  apply BitVec.eq_of_getLsbD_eq
  intro i hi
  show BitVec.getLsbD (w.extractLsb' 8 24 ++ w.extractLsb' 0 8) i = _
  rw [BitVec.getLsbD_append, BitVec.getLsbD_extractLsb', BitVec.getLsbD_extractLsb']
  split
  · next h => simp [h]
  · next h => rw [show 8 + (i - 8) = i by omega, show decide (i - 8 < 24) = true by simp; omega, Bool.true_and]

@[simp] theorem Six.get_0 (x : Six) : x.get 0 = x.x0 := rfl
@[simp] theorem Six.get_1 (x : Six) : x.get 1 = x.x1 := rfl
@[simp] theorem Six.get_2 (x : Six) : x.get 2 = x.x2 := rfl
@[simp] theorem Six.get_3 (x : Six) : x.get 3 = x.x3 := rfl
@[simp] theorem Six.get_4 (x : Six) : x.get 4 = x.x4 := rfl
@[simp] theorem Six.get_5 (x : Six) : x.get 5 = x.x5 := rfl

/-! ### Acceptance -/

theorem acceptance_none_iff (s : State) (h : OpHead) :
    s.acceptance h = none ↔ s.faultKind = .none ∧ (h.isSetup = true → s.configured = false) ∧
      (h.needsHandle = true → s.configured = true) ∧ h.admitted = true := by
  unfold State.acceptance
  by_cases hf : s.faultKind = .none
  · cases s.configured <;> cases h.isSetup <;> cases h.needsHandle <;> cases h.admitted <;> simp [hf]
  · simp [hf]

/-- A ready block accepts every operation but SETUP whose operands are admitted (R61). -/
theorem Ready.accepts {s : State} (r : Ready s) {h : OpHead} (hs : h.isSetup = false) (ha : h.admitted = true) :
    s.acceptance h = none := by
  rw [acceptance_none_iff]
  exact ⟨r.idle.faultKind, by simp [hs], fun _ => r.configured, ha⟩

/-- An idle block accepts an operation that needs no handle and is not SETUP (R61). -/
theorem Idle.accepts {s : State} (r : Idle s) {h : OpHead} (hn : h.needsHandle = false) (hs : h.isSetup = false)
    (ha : h.admitted = true) : s.acceptance h = none := by
  rw [acceptance_none_iff]
  exact ⟨r.faultKind, by simp [hs], by simp [hn], ha⟩

theorem encAdmitted_begin (d : Word) (s : State) :
    encAdmitted ((s.begin (opBcdEnc d).head).a.get 0) = encAdmitted d := rfl

/-! ### The end of an operation -/

/-- The state of an operation that ran to its end, well or by a fatal error (R51, R126), and gave its response. -/
def Deed.outcome (d : Deed Word) (b : State) : State :=
  match d.out b with
  | .ok v => (d.nxt b).answer v
  | .error e => (d.nxt b).takeFatal e

/-- The outcome of an operation whose body's deed is `d`, when nothing cuts it. -/
def ended (d : Deed Word) (b : State) : Host.Outcome State Fault Refusal :=
  match d.out b with
  | .ok v => .next ((d.nxt b).answer v)
  | .error e => .next ((d.nxt b).takeFatal e)

theorem ended_eq (d : Deed Word) (b : State) : ended d b = .next (d.outcome b) := by
  unfold ended Deed.outcome; cases d.out b <;> rfl

/-- The end of a body: its response, unless a reset comes first (R133). -/
theorem conclude_result (d : Deed Word) (b : State) :
    conclude (d.result b) = .next ((d.nxt b).respond fun _ => d.outcome b) := by
  unfold Deed.result Deed.outcome
  cases h : d.out b <;> rfl

/-- The state in which an instruction's body starts. -/
def started (i : Instr) (s : State) : State := s.begin (operationOf i).head

theorem deedOf_steady (i : Instr) (s : State) : Steady s ((deedOf i).nxt s) := by
  by_cases hi : ∃ d, i = .bcdEnc d
  · obtain ⟨d, rfl⟩ := hi; exact Steady.refl s
  · exact (bodies_run i (by simpa using hi)).steady s

theorem deedOf_trace (i : Instr) (s : State) : ((deedOf i).nxt s).trace = s.trace ++ (deedOf i).evs s := by
  by_cases hi : ∃ d, i = .bcdEnc d
  · obtain ⟨d, rfl⟩ := hi; simp [deedOf]
  · exact (bodies_run i (by simpa using hi)).trace s

/-- What an accepted instruction's body can do: its deed, when no disturbance falls on one of its events, or it is cut in
its midst. -/
theorem body_runs (i : Instr) {s : State} (ha : s.acceptance (operationOf i).head = none) :
    ((started i s).spares ((deedOf i).evs (started i s)).length →
      (operationOf i).body (started i s) = (deedOf i).result (started i s)) ∧
    ((operationOf i).body (started i s) = (deedOf i).result (started i s) ∨
      ∃ c m, s.cut = some c ∧ (operationOf i).body (started i s) = .error (.cut c.kind) m ∧
        Midst (started i s) m ((deedOf i).evs (started i s)) c) := by
  by_cases hi : ∃ d, i = .bcdEnc d
  · obtain ⟨d, rfl⟩ := hi
    have h := bcdEncBody_result (s.begin (opBcdEnc d).head)
      ((encAdmitted_begin d s).trans ((acceptance_none_iff _ _).mp ha).2.2.2)
    exact ⟨fun _ => h, .inl h⟩
  · simp only [not_exists] at hi
    exact ⟨(bodies_run i hi).goes _, (bodies_run i hi).cases _⟩

/-- An accepted instruction is its body, run and concluded. -/
theorem exec_accepted {i : Instr} {s : State} (hb : s.busy = false) (ha : s.acceptance (operationOf i).head = none) :
    exec i s = conclude ((operationOf i).body (started i s)) := by
  rw [exec_eq_run, runOperation, if_neg (by simp [hb]), ha]; rfl

/-- An accepted instruction that nothing cuts. -/
theorem exec_undisturbed {i : Instr} {s : State} (hb : s.busy = false)
    (ha : s.acceptance (operationOf i).head = none) (hc : s.cut = none) :
    exec i s = ended (deedOf i) (s.begin (operationOf i).head) := by
  rw [exec_accepted hb ha, (body_runs i ha).1 (State.spares_of_cut_none (s := started i s) hc _), conclude_result, ended_eq,
    State.respond_of_not_pending]
  · rfl
  · exact State.resetPending_of_cut_none ((deedOf_steady i _).cut.trans hc)

/-- A reset due after the last event of an accepted instruction, or in one without an event, comes before the response,
whether the instruction goes well or fails (R133). -/
theorem exec_reset_late {i : Instr} {s : State} {k : Nat} (hb : s.busy = false)
    (ha : s.acceptance (operationOf i).head = none) (hc : s.cut = some ⟨k, .reset⟩)
    (hk : ((deedOf i).evs (started i s)).length ≤ k) :
    exec i s = .next ((deedOf i).nxt (started i s)).applyReset := by
  have sp : (started i s).spares ((deedOf i).evs (started i s)).length := fun c h => by
    obtain rfl : (⟨k, .reset⟩ : Cut) = c := Option.some.inj (hc.symm.trans h)
    show k < 0 ∨ 0 + _ ≤ k
    omega
  rw [exec_accepted hb ha, (body_runs i ha).1 sp, conclude_result, State.respond_of_pending]
  exact (State.resetPending_iff _).mpr ⟨k, (deedOf_steady i _).cut.trans hc⟩

/-- What `exec` can do (R8, R61, R126, R133): nothing while BUSY, refuse, run to the response, be abandoned at a reset, or
be stuck. -/
theorem exec_cases (i : Instr) (s : State) :
    (s.busy = true ∧ exec i s = .refused .busy) ∨
    (s.busy = false ∧ s.resetPending = false ∧ s.acceptance (operationOf i).head ≠ none ∧ exec i s = .next s.refuse) ∨
    (s.busy = false ∧ s.resetPending = false ∧ s.acceptance (operationOf i).head = none ∧
      exec i s = .next ((deedOf i).outcome (started i s))) ∨
    (s.busy = false ∧ s.resetPending = true ∧ ∃ m, SameOutside s m ∧ exec i s = .next m.applyReset) ∨
    (s.busy = false ∧ s.acceptance (operationOf i).head = none ∧ (∃ k, s.cut = some ⟨k, .hang⟩) ∧
      exec i s = .fault .primitiveNeverReturned) := by
  cases hb : s.busy with
  | true => exact .inl ⟨rfl, by rw [exec_eq_run, runOperation, if_pos hb]⟩
  | false =>
    refine .inr ?_
    cases ha : s.acceptance (operationOf i).head with
    | some c =>
      have e : exec i s = .next (s.respond State.refuse) := by simp [exec_eq_run, runOperation, hb, ha]
      cases hp : s.resetPending with
      | false => exact .inl ⟨rfl, rfl, by simp, by rw [e, State.respond_of_not_pending hp]⟩
      | true => exact .inr (.inr (.inl ⟨rfl, rfl, s, ⟨rfl, rfl, rfl⟩, by rw [e, State.respond_of_pending hp]⟩))
    | none =>
      have outside : ∀ m, Steady (started i s) m → SameOutside s m := fun m h => ⟨h.cmd, h.script, h.policy⟩
      refine .inr ?_
      rcases (body_runs i ha).2 with h | ⟨⟨k, d⟩, m, hc, h, hm⟩
      · have e : exec i s = _ := (exec_accepted hb ha).trans ((congrArg conclude h).trans (conclude_result _ _))
        have st := deedOf_steady i (started i s)
        have pend : ((deedOf i).nxt (started i s)).resetPending = s.resetPending := by
          unfold State.resetPending; rw [st.cut]; rfl
        cases hp : s.resetPending with
        | false => exact .inl ⟨rfl, rfl, rfl, by rw [e, State.respond_of_not_pending (pend.trans hp)]⟩
        | true => exact .inr (.inl ⟨rfl, rfl, _, outside _ st, by rw [e, State.respond_of_pending (pend.trans hp)]⟩)
      · have e : exec i s = _ := (exec_accepted hb ha).trans (congrArg conclude h)
        cases d with
        | reset => exact .inr (.inl ⟨rfl, (State.resetPending_iff s).mpr ⟨k, hc⟩, m, outside m hm.steady, e⟩)
        | hang => exact .inr (.inr ⟨rfl, rfl, ⟨k, hc⟩, e⟩)

/-! ### An operation from presentation to response -/

/-- An idle block's instruction that ends well (R8, R51). -/
theorem completes {i : Instr} (hi : ∀ c d e, i ≠ .setup c d e) {s : State} (r : Idle s)
    (ha : s.acceptance (operationOf i).head = none) {v : Word} {es : List Event} {ds : List Diagnostic}
    (ho : (deedOf i).out (started i s) = .ok v) (he : (deedOf i).evs (started i s) = es)
    (hd : ((deedOf i).nxt (started i s)).diag = s.diag ++ ds) :
    ∃ t, exec i s = .next t ∧ Completes s t (operationOf i).head.opc v es ds ∧
      t.temps = ((deedOf i).nxt (started i s)).temps ∧ t.image = ((deedOf i).nxt (started i s)).image := by
  have st := deedOf_steady i (started i s)
  have ti := deedOf_tidy i hi
  refine ⟨((deedOf i).nxt (started i s)).answer v, ?_, ⟨⟨rfl, rfl, ?_, hd, st.op, ⟨rfl, rfl, ti.idle _ r.phase, rfl⟩,
    ⟨st.cmd, st.script, st.policy⟩, ?_, ?_, ti.handle _, ti.configured _⟩, st.faultKind⟩, rfl, rfl⟩
  · rw [exec_undisturbed r.busy ha r.cut, ended]
    rw [started] at ho
    rw [ho]; rfl
  · exact (deedOf_trace i _).trans (by rw [he]; rfl)
  · exact (ti.answers _).trans (by rw [he]; rfl)
  · exact (ti.reads _).trans (by rw [he]; rfl)

/-- An idle block's instruction that a fatal error ends (R126). -/
theorem fails {i : Instr} (hi : ∀ c d e, i ≠ .setup c d e) {s : State} (r : Idle s)
    (ha : s.acceptance (operationOf i).head = none) {e : FatalError} {es : List Event} {ds : List Diagnostic}
    (ho : (deedOf i).out (started i s) = .error e) (he : (deedOf i).evs (started i s) = es)
    (hd : ((deedOf i).nxt (started i s)).diag = s.diag ++ ds) :
    ∃ t, exec i s = .next t ∧ Fails s t (operationOf i).head.opc e es ds ∧
      t.temps = ((deedOf i).nxt (started i s)).temps ∧ t.image = ((deedOf i).nxt (started i s)).image := by
  have st := deedOf_steady i (started i s)
  have ti := deedOf_tidy i hi
  refine ⟨((deedOf i).nxt (started i s)).takeFatal e, ?_, ⟨⟨?_, rfl, ?_, hd, st.op, ⟨rfl, rfl, ti.idle _ r.phase, rfl⟩,
    ⟨st.cmd, st.script, st.policy⟩, ?_, ?_, ti.handle _, ti.configured _⟩, ?_⟩, rfl, rfl⟩
  · rw [exec_undisturbed r.busy ha r.cut, ended]
    rw [started] at ho
    rw [ho]; rfl
  · cases e <;> rfl
  · exact (deedOf_trace i _).trans (by rw [he]; rfl)
  · exact (ti.answers _).trans (by rw [he]; rfl)
  · exact (ti.reads _).trans (by rw [he]; rfl)
  · have hp := st.policy
    have hf := st.faultKind
    show (match ((deedOf i).nxt (started i s)).policy with
      | .halt => e.kind
      | .report => ((deedOf i).nxt (started i s)).faultKind) = _
    rw [hp, hf]
    show (match s.policy with
      | .halt => e.kind
      | .report => s.faultKind) = _
    cases s.policy <;> cases e <;> rfl

/-- Two deeds do the same from a state. -/
structure Alike (d e : Deed Word) (b : State) : Prop where
  out : d.out b = e.out b
  nxt : d.nxt b = e.nxt b
  evs : d.evs b = e.evs b

theorem Alike.trans {d e f : Deed Word} {b : State} (h : Alike d e b) (k : Alike e f b) : Alike d f b :=
  ⟨h.out.trans k.out, h.nxt.trans k.nxt, h.evs.trans k.evs⟩

/-- `completes`, with the deed in words that agree with it where the body starts. -/
theorem completes_as {i : Instr} (hi : ∀ c d e, i ≠ .setup c d e) {s : State} (r : Idle s)
    (ha : s.acceptance (operationOf i).head = none) {d : Deed Word} (al : Alike (deedOf i) d (started i s))
    {v : Word} {es : List Event} {ds : List Diagnostic} (ho : d.out (started i s) = .ok v)
    (he : d.evs (started i s) = es) (hd : (d.nxt (started i s)).diag = s.diag ++ ds) :
    ∃ t, exec i s = .next t ∧ Completes s t (operationOf i).head.opc v es ds ∧
      t.temps = (d.nxt (started i s)).temps ∧ t.image = (d.nxt (started i s)).image := by
  have := completes hi r ha (al.out.trans ho) (al.evs.trans he) (by rw [al.nxt]; exact hd)
  rwa [al.nxt] at this

/-- `fails`, with the deed in words that agree with it where the body starts. -/
theorem fails_as {i : Instr} (hi : ∀ c d e, i ≠ .setup c d e) {s : State} (r : Idle s)
    (ha : s.acceptance (operationOf i).head = none) {d : Deed Word} (al : Alike (deedOf i) d (started i s))
    {e : FatalError} {es : List Event} {ds : List Diagnostic} (ho : d.out (started i s) = .error e)
    (he : d.evs (started i s) = es) (hd : (d.nxt (started i s)).diag = s.diag ++ ds) :
    ∃ t, exec i s = .next t ∧ Fails s t (operationOf i).head.opc e es ds ∧
      t.temps = (d.nxt (started i s)).temps ∧ t.image = (d.nxt (started i s)).image := by
  have := fails hi r ha (al.out.trans ho) (al.evs.trans he) (by rw [al.nxt]; exact hd)
  rwa [al.nxt] at this

/-- What `step` can do (R8, R50, R61, R133). -/
theorem step_cases (s : State) :
    (s.script = [] ∧ step s = if s.busy then .refused .busy else .next s) ∨
    (∃ rest, s.script = .reset :: rest ∧ step s = .next { s.applyReset with script := rest }) ∨
    (∃ p cut rest, s.script = .present p cut :: rest ∧
      ((s.busy = true ∧ step s = .refused .busy) ∨
       (s.busy = false ∧ ∃ i, decode p = .ok i ∧ step s = exec i (s.sample p cut rest)) ∨
       (s.busy = false ∧ ∃ e, decode p = .error e ∧ step s = .next (s.sample p cut rest).rejectUndecoded))) := by
  cases hs : s.script with
  | nil => exact .inl ⟨rfl, by simp [step, hs]⟩
  | cons x rest =>
    cases x with
    | reset => exact .inr (.inl ⟨rest, rfl, by simp [step, hs]⟩)
    | present p cut =>
      refine .inr (.inr ⟨p, cut, rest, rfl, ?_⟩)
      cases hb : s.busy with
      | true => exact .inl ⟨rfl, by simp [step, hs, hb]⟩
      | false =>
        cases hd : decode p with
        | ok i => exact .inr (.inl ⟨rfl, i, rfl, by simp [step, hs, hb, hd]⟩)
        | error e => exact .inr (.inr ⟨rfl, e, rfl, by simp [step, hs, hb, hd]⟩)

end Sys2Proof.Machine
end

