-- ==== Sys2Proof/Laws/Answers.lean ====
section
/-! SUPPORT. Laws/Answers.lean: the value, the events, the diagnostics, the temporaries and the pins of the deeds the
operations are made of. -/

namespace Sys2Proof.Machine

/-! ### Numbers -/

theorem toInt_ofNat_small {n : Nat} (hn : n ≤ 165) : (BitVec.ofNat 32 n).toInt = n := by
  rw [BitVec.toInt_eq_toNat_of_lt (by simp; omega)]; simp; omega

/-- The range check of a decoded value (R92). -/
theorem inRange_ofNat {lo hi : Word} {n : Nat} (hn : n ≤ 165) :
    inRange lo hi (BitVec.ofNat 32 n) = decide (lo.toInt ≤ n ∧ (n : Int) ≤ hi.toInt) := by
  rw [Bool.eq_iff_iff, inRange_iff, toInt_ofNat_small hn]; simp

/-- The byte the codec makes of a decimal, in the words of Safety.lean (R56, R84). -/
theorem packBcd_eq_bcdOf {v : Word} (h : v.toInt ≤ 99) : packBcd v.toInt.toNat = bcdOf v := by
  apply BitVec.eq_of_toNat_eq
  rw [packBcd_toNat _ (by omega), bcdOf, BitVec.toNat_ofNat]
  omega

theorem bcdOf_toNat {v : Word} (h : v.toInt ≤ 99) : (bcdOf v).toNat = v.toInt.toNat / 10 * 16 + v.toInt.toNat % 10 := by
  rw [bcdOf, BitVec.toNat_ofNat]
  omega

/-- Clearing bit 7 changes no byte of the hours (R103). -/
theorem force24_packBcd {n : Nat} (h : n ≤ 79) : force24 (packBcd n) = packBcd n := by
  have d : ∀ n : Fin 80, force24 (packBcd n) = packBcd n := by decide +kernel
  exact d ⟨n, by omega⟩

/-! ### Deeds -/

namespace Deed

@[simp] theorem regRead_out (a : Byte) (s : State) : (regRead a).out s = .ok (s.nextByte 0) := rfl
theorem regRead_evs (a : Byte) (s : State) : (regRead a).evs s = regReadEvents s.handle a (s.nextByte 0) := rfl
@[simp] theorem regRead_diag (a : Byte) (s : State) : ((regRead a).nxt s).diag = s.diag := rfl
@[simp] theorem regRead_temps (a : Byte) (s : State) : ((regRead a).nxt s).temps = s.temps := rfl
@[simp] theorem regRead_handle (a : Byte) (s : State) : ((regRead a).nxt s).handle = s.handle := rfl
@[simp] theorem regRead_a (a : Byte) (s : State) : ((regRead a).nxt s).a = s.a := rfl
@[simp] theorem regRead_nextByte (a : Byte) (s : State) (j : Nat) :
    ((regRead a).nxt s).nextByte j = s.nextByte (j + 1) := State.takeAnswers_nextByte s j
@[simp] theorem regRead_pins (a : Byte) (s : State) : ((regRead a).nxt s).image = restingPins .input := regRead_image ..

@[simp] theorem writeAndCheck_out (a v : Byte) (s : State) : (writeAndCheck a v).out s = .ok v := rfl
theorem writeAndCheck_evs (a v : Byte) (s : State) :
    (writeAndCheck a v).evs s = writeAndCheckEvents s.handle a v (s.nextByte 0) := rfl
@[simp] theorem writeAndCheck_diag (a v : Byte) (s : State) :
    ((writeAndCheck a v).nxt s).diag = s.diag ++ mismatches a v (s.nextByte 0) := rfl
@[simp] theorem writeAndCheck_temps (a v : Byte) (s : State) :
    ((writeAndCheck a v).nxt s).temps = { s.temps with w := v } := rfl
@[simp] theorem writeAndCheck_handle (a v : Byte) (s : State) : ((writeAndCheck a v).nxt s).handle = s.handle := rfl
@[simp] theorem writeAndCheck_a (a v : Byte) (s : State) : ((writeAndCheck a v).nxt s).a = s.a := rfl
@[simp] theorem writeAndCheck_nextByte (a v : Byte) (s : State) (j : Nat) :
    ((writeAndCheck a v).nxt s).nextByte j = s.nextByte (j + 1) := State.takeAnswers_nextByte s j
@[simp] theorem writeAndCheck_pins (a v : Byte) (s : State) : ((writeAndCheck a v).nxt s).image = restingPins .input := by
  have e : ((writeAndCheck a v).nxt s).image = .low .input := by simp [writeAndCheck]
  exact e

theorem wireWrite_evs (c v : Byte) (s : State) : (wireWrite c v).evs s = regWriteEvents s.handle c v := by
  simp [wireWrite, andThen, regWrite, value]

@[simp] theorem wireWrite_diag (c v : Byte) (s : State) : ((wireWrite c v).nxt s).diag = s.diag := rfl
@[simp] theorem wireWrite_temps (c v : Byte) (s : State) : ((wireWrite c v).nxt s).temps = s.temps := rfl
@[simp] theorem wireWrite_pins (c v : Byte) (s : State) : ((wireWrite c v).nxt s).image = restingPins .output := by
  have e : ((regWrite c v).nxt s).image = .low .output := by simp [regWrite]
  exact e

theorem toWord_out (d : Deed Byte) (f : Byte → Word) (s : State) : (d.toWord f).out s = (d.out s).map f := by
  simp only [toWord, andThen]; cases d.out s <;> rfl

theorem toWord_evs (d : Deed Byte) (f : Byte → Word) (s : State) : (d.toWord f).evs s = d.evs s := by
  simp only [toWord, andThen]; cases d.out s <;> simp [value]

@[simp] theorem toWord_nxt (d : Deed Byte) (f : Byte → Word) (s : State) : (d.toWord f).nxt s = d.nxt s := by
  simp only [toWord, andThen]; cases d.out s <;> rfl

theorem given_out (k : Nat) (d : Word → Deed Word) (s : State) : (given k d).out s = (d (s.a.get k)).out s := rfl
theorem given_evs (k : Nat) (d : Word → Deed Word) (s : State) : (given k d).evs s = (d (s.a.get k)).evs s := rfl
theorem given_nxt (k : Nat) (d : Word → Deed Word) (s : State) : (given k d).nxt s = (d (s.a.get k)).nxt s := rfl

theorem alike_given {k : Nat} {d : Word → Deed Word} {s : State} {v : Word} (e : s.a.get k = v) :
    Alike (given k d) (d v) s := by
  subst e; exact ⟨rfl, rfl, rfl⟩

theorem alike_givenByte {k : Nat} {d : Byte → Deed Word} {s : State} {b : Byte}
    (e : (s.a.get k).extractLsb' 0 8 = b) : Alike (givenByte k d) (d b) s := by
  subst e; exact ⟨rfl, rfl, rfl⟩

theorem fieldRead_out (f : Field) (s : State) : (fieldRead f).out s =
    match bcdDecode f.widthTag (s.nextByte 0) with
    | some n => if inRange f.min f.max (BitVec.ofNat 32 n) then .ok (BitVec.ofNat 32 n) else .error .range
    | none => .error .configuration := by
  simp only [fieldRead, andThen, regRead, decodeByte, checkRange]
  cases bcdDecode f.widthTag (s.nextByte 0) <;> rfl

theorem fieldRead_evs (f : Field) (s : State) :
    (fieldRead f).evs s = regReadEvents s.handle f.readAddr (s.nextByte 0) := by
  simp only [fieldRead, andThen, regRead, decodeByte, checkRange]
  cases bcdDecode f.widthTag (s.nextByte 0) <;> simp

@[simp] theorem fieldRead_nxt (f : Field) (s : State) : (fieldRead f).nxt s = (regRead f.readAddr).nxt s := by
  simp only [fieldRead, andThen, regRead, decodeByte, checkRange]
  cases bcdDecode f.widthTag (s.nextByte 0) <;> rfl

/-- A re-read that passes (R92). -/
theorem fieldRead_ok {f : Field} {s : State} {n : Nat} (h : bcdDecode f.widthTag (s.nextByte 0) = some n)
    (hlo : f.min.toInt ≤ n) (hhi : (n : Int) ≤ f.max.toInt) : (fieldRead f).out s = .ok (BitVec.ofNat 32 n) := by
  rw [fieldRead_out, h]
  simp only [inRange_ofNat (bcdDecode_le h)]
  rw [if_pos (by simp [hlo, hhi])]

/-- A re-read that does not pass (R92). -/
theorem fieldRead_bad {f : Field} {s : State} {n : Nat} (h : bcdDecode f.widthTag (s.nextByte 0) = some n)
    (hb : (n : Int) < f.min.toInt ∨ f.max.toInt < n) : (fieldRead f).out s = .error .range := by
  rw [fieldRead_out, h]
  simp only [inRange_ofNat (bcdDecode_le h)]
  rw [if_neg (by simp; omega)]

/-- A range check that passes has no effect (R88). -/
theorem checked_ok {β : Type} {lo hi v : Word} {k : Word → Deed β} (h : inRange lo hi v = true) :
    (checkRange lo hi v).andThen k = k v := by
  have e : checkRange lo hi v = value fun _ => v := by simp [checkRange, value, h]
  rw [e]; rfl

/-- A range check that does not pass ends everything (R88, R126). -/
theorem checked_bad {β : Type} {lo hi v : Word} {k : Word → Deed β} (h : inRange lo hi v = false) :
    (checkRange lo hi v).andThen k = fatal .range := by
  have e : checkRange lo hi v = fatal .range := by simp [checkRange, fatal, h]
  rw [e]; rfl

/-- A write whose operand passes (R93). -/
theorem packedWrite_ok {lo hi v : Word} {a : Byte} {g : Byte → Byte} (h : inRange lo hi v = true) :
    packedWrite lo hi a g v = (writeAndCheck a (g (packBcd v.toInt.toNat))).toWord zext8 :=
  checked_ok h

/-- A write whose operand does not pass (R93). -/
theorem packedWrite_bad {lo hi v : Word} {a : Byte} {g : Byte → Byte} (h : inRange lo hi v = false) :
    packedWrite lo hi a g v = fatal .range :=
  checked_bad h

theorem modifySeconds_out (g : Byte → Byte) (s : State) :
    (modifySeconds g).out s = .ok (zext8 (g (s.nextByte 0))) := rfl

theorem modifySeconds_evs (g : Byte → Byte) (s : State) :
    (modifySeconds g).evs s = regReadEvents s.handle 0x81 (s.nextByte 0) ++
      writeAndCheckEvents s.handle 0x80 (g (s.nextByte 0)) (s.nextByte 1) := by
  simp only [modifySeconds, andThen, regRead_out, change, value, toWord_evs, writeAndCheck_evs, List.nil_append, id]
  exact congrArg _ (congrArg _ (regRead_nextByte 0x81 s 0))

theorem modifySeconds_nxt (g : Byte → Byte) (s : State) :
    (modifySeconds g).nxt s =
      (writeAndCheck 0x80 (g (s.nextByte 0))).nxt (((regRead 0x81).nxt s).setTcur (s.nextByte 0)) := by
  simp [modifySeconds, andThen, change, value, State.setTcur]

@[simp] theorem modifySeconds_diag (g : Byte → Byte) (s : State) :
    ((modifySeconds g).nxt s).diag = s.diag ++ mismatches 0x80 (g (s.nextByte 0)) (s.nextByte 1) := by
  rw [modifySeconds_nxt, writeAndCheck_diag]
  exact congrArg (s.diag ++ ·) (congrArg _ (regRead_nextByte 0x81 s 0))

@[simp] theorem modifySeconds_temps (g : Byte → Byte) (s : State) :
    ((modifySeconds g).nxt s).temps = { s.temps with cur := s.nextByte 0, w := g (s.nextByte 0) } := by
  rw [modifySeconds_nxt, writeAndCheck_temps]; rfl

@[simp] theorem modifySeconds_pins (g : Byte → Byte) (s : State) :
    ((modifySeconds g).nxt s).image = restingPins .input := by
  rw [modifySeconds_nxt, writeAndCheck_pins]

@[simp] theorem modifySeconds_handle (g : Byte → Byte) (s : State) : ((modifySeconds g).nxt s).handle = s.handle := by
  rw [modifySeconds_nxt, writeAndCheck_handle]; exact regRead_handle 0x81 s

@[simp] theorem modifySeconds_a (g : Byte → Byte) (s : State) : ((modifySeconds g).nxt s).a = s.a := by
  rw [modifySeconds_nxt, writeAndCheck_a]; exact regRead_a 0x81 s

@[simp] theorem modifySeconds_nextByte (g : Byte → Byte) (s : State) (j : Nat) :
    ((modifySeconds g).nxt s).nextByte j = s.nextByte (j + 2) := by
  rw [modifySeconds_nxt, writeAndCheck_nextByte]
  exact regRead_nextByte 0x81 s (j + 1)

theorem wrSec_ok {v : Word} (h : inRange 0 59 v = true) :
    wrSec v = modifySeconds (keepHalt (packBcd v.toInt.toNat)) :=
  checked_ok h

theorem wrSec_bad {v : Word} (h : inRange 0 59 v = false) : wrSec v = fatal .range :=
  checked_bad h

end Deed

end Sys2Proof.Machine
end

