-- ==== Sys2Proof/Laws/Block.lean ====
section
/-! SUPPORT. Laws/Block.lean: what acceptance asks of an instruction, what SETUP does, and everything an instruction can
leave behind. -/

namespace Sys2Proof.Machine

/-! ### Acceptance by instruction -/

theorem needsHandle_head (i : Instr) : (operationOf i).head.needsHandle = needsHandle i := by cases i <;> rfl

theorem isSetup_head (i : Instr) : (operationOf i).head.isSetup = true ↔ ∃ c d e, i = .setup c d e := by
  cases i <;> simp [operationOf] <;> rfl

theorem admitted_head (i : Instr) : (operationOf i).head.admitted = i.wellFormed := by cases i <;> rfl

theorem opc_head (i : Instr) : (operationOf i).head.opc = opcodeByte i := by
  cases i <;> simp only [opcodeByte, encode, commandOf, frameOf, opcodeOf_packCommand, wireByteOf_frame] <;> rfl

/-- A refused instruction, with nothing scheduled to disturb it (R123). -/
theorem exec_refused {i : Instr} {s : State} (hb : s.busy = false) (hc : s.cut = none)
    (ha : s.acceptance (operationOf i).head ≠ none) : exec i s = .next { s with result := 0, rspKind := .refused } := by
  have hp := State.resetPending_of_cut_none hc
  rcases exec_cases i s with ⟨h, -⟩ | ⟨-, -, -, h⟩ | ⟨-, -, h, -⟩ | ⟨-, h, -⟩ | ⟨-, h, -⟩
  · simp [hb] at h
  · rw [h, State.refuse, ← hc]
  · exact absurd h ha
  · rw [hp] at h; cases h
  · exact absurd h ha

/-- A disturbance is armed before an operation is accepted: acceptance does not look at it. -/
@[simp] theorem acceptance_cut (s : State) (h : OpHead) (c : Option Cut) :
    State.acceptance { s with cut := c } h = s.acceptance h := rfl

/-! ### SETUP -/

theorem pinLegal_iff (v : Word) : pinLegal v = true ↔ Within 2 27 v := by
  rw [pinLegal, Bool.and_eq_true]
  exact ⟨fun h => ⟨of_decide_eq_true h.1, of_decide_eq_true h.2⟩, fun h => ⟨decide_eq_true h.1, decide_eq_true h.2⟩⟩

theorem checkPin_ok {α : Type} {v : Word} {k : Unit → Deed α} (h : pinLegal v = true) :
    (Deed.checkPin v).andThen k = k () := by
  have e : Deed.checkPin v = Deed.value fun _ => () := by simp [Deed.checkPin, Deed.value, h]
  rw [e]; rfl

theorem checkPin_bad {α : Type} {v : Word} {k : Unit → Deed α} (h : pinLegal v = false) :
    (Deed.checkPin v).andThen k = .fatal .configuration := by
  have e : Deed.checkPin v = Deed.fatal .configuration := by simp [Deed.checkPin, Deed.fatal, h]
  rw [e]; rfl

/-- A legal pin number keeps its value as a byte (30_encoding.md R48). -/
theorem pinOf_toNat {v : Word} (h : Within 2 27 v) : ((pinOf v).toNat : Int) = v.toInt := by
  have h1 := h.1
  have h2 := h.2
  have e := BitVec.toInt_eq_toNat_of_lt (x := v) (by
    have := v.isLt; rw [BitVec.toInt_eq_toNat_cond] at h1 h2; split at h1 <;> omega)
  rw [e] at h1 h2 ⊢
  simp [pinOf, BitVec.extractLsb'_toNat]
  omega

/-- SETUP with legal pins (R114). -/
theorem setup_ok {c d e : Word} (hc : Within 2 27 c) (hd : Within 2 27 d) (he : Within 2 27 e) :
    Deed.setup c d e = ⟨fun _ => .ok (packHandle ⟨pinOf c, pinOf d, pinOf e⟩),
      fun s => (s.storeHandle ⟨pinOf c, pinOf d, pinOf e⟩).issueAll (setupEvents ⟨pinOf c, pinOf d, pinOf e⟩),
      fun _ => setupEvents ⟨pinOf c, pinOf d, pinOf e⟩⟩ := by
  rw [Deed.setup, checkPin_ok ((pinLegal_iff _).mpr hc), checkPin_ok ((pinLegal_iff _).mpr hd),
    checkPin_ok ((pinLegal_iff _).mpr he)]

/-- SETUP with a pin outside its range (R114, R120). -/
theorem setup_bad {c d e : Word} (h : ¬ (Within 2 27 c ∧ Within 2 27 d ∧ Within 2 27 e)) :
    Deed.setup c d e = .fatal .configuration := by
  simp only [← pinLegal_iff] at h
  rw [Deed.setup]
  cases h1 : pinLegal c with
  | false => rw [checkPin_bad h1]
  | true =>
    rw [checkPin_ok h1]
    cases h2 : pinLegal d with
    | false => rw [checkPin_bad h2]
    | true =>
      rw [checkPin_ok h2]
      cases h3 : pinLegal e with
      | false => rw [checkPin_bad h3]
      | true => exact absurd ⟨h1, h2, h3⟩ h

/-- The three pins of legal operands make a legal handle (R9). -/
theorem legal_of_within {c d e : Word} (hc : Within 2 27 c) (hd : Within 2 27 d) (he : Within 2 27 e) :
    Handle.Legal ⟨pinOf c, pinOf d, pinOf e⟩ := by
  have h1 := pinOf_toNat hc
  have h2 := pinOf_toNat hd
  have h3 := pinOf_toNat he
  have := hc.1; have := hc.2; have := hd.1; have := hd.2; have := he.1; have := he.2
  refine ⟨⟨?_, ?_⟩, ⟨?_, ?_⟩, ⟨?_, ?_⟩⟩ <;> dsimp only <;> omega

theorem setup_alike (c d e : Word) (s : State) :
    Alike (deedOf (.setup c d e)) (.setup c d e) (started (.setup c d e) s) := ⟨rfl, rfl, rfl⟩

/-- A SETUP that goes well had legal operands, and they are the handle (R114). -/
theorem setup_stores {c d e : Word} {s : State} {v : Word}
    (h : (deedOf (.setup c d e)).out (started (.setup c d e) s) = .ok v) :
    Within 2 27 c ∧ Within 2 27 d ∧ Within 2 27 e ∧
      ((deedOf (.setup c d e)).nxt (started (.setup c d e) s)).handle = ⟨pinOf c, pinOf d, pinOf e⟩ := by
  rw [(setup_alike c d e s).out] at h
  rw [(setup_alike c d e s).nxt]
  by_cases hl : Within 2 27 c ∧ Within 2 27 d ∧ Within 2 27 e
  · rw [setup_ok hl.1 hl.2.1 hl.2.2]
    exact ⟨hl.1, hl.2.1, hl.2.2, rfl⟩
  · rw [setup_bad hl] at h; cases h

/-! ### What an instruction can leave behind -/

/-- What ends an operation changes only the response, BUSY, SEQ, the latches and, on a fatal error under HALT,
FAULT_KIND. -/
structure Ends (n t : State) : Prop where
  handle : t.handle = n.handle
  configured : t.configured = n.configured
  op : t.op = n.op
  engine : t.engine = n.engine
  temps : t.temps = n.temps
  image : t.image = n.image
  trace : t.trace = n.trace
  diag : t.diag = n.diag
  cmd : t.cmd = n.cmd
  script : t.script = n.script
  answers : t.answers = n.answers
  policy : t.policy = n.policy
  reads : t.reads = n.reads
  busy : t.busy = false
  seq : t.seq = 0
  cut : t.cut = none

theorem outcome_ends (d : Deed Word) (b : State) : Ends (d.nxt b) (d.outcome b) := by
  unfold Deed.outcome
  cases d.out b <;> exact ⟨rfl, rfl, rfl, rfl, rfl, rfl, rfl, rfl, rfl, rfl, rfl, rfl, rfl, rfl, rfl, rfl⟩

theorem outcome_ok {d : Deed Word} {b : State} {v : Word} (h : d.out b = .ok v) :
    (d.outcome b).rspKind = .ok ∧ (d.outcome b).result = v ∧ (d.outcome b).faultKind = (d.nxt b).faultKind := by
  unfold Deed.outcome; rw [h]; exact ⟨rfl, rfl, rfl⟩

theorem outcome_error {d : Deed Word} {b : State} {e : FatalError} (h : d.out b = .error e) :
    (d.outcome b).rspKind = e.rsp ∧ (d.outcome b).result = 0 ∧
      (d.outcome b).faultKind = match (d.nxt b).policy with | .halt => e.kind | .report => (d.nxt b).faultKind := by
  unfold Deed.outcome; rw [h]; exact ⟨rfl, rfl, rfl⟩

/-- An operation is never left with REFUSED once it is accepted (R61). -/
theorem outcome_not_refused (d : Deed Word) (b : State) : (d.outcome b).rspKind ≠ .refused := by
  cases h : d.out b with
  | ok v => rw [(outcome_ok h).1]; intro hh; cases hh
  | error e => rw [(outcome_error h).1]; cases e <;> intro hh <;> cases hh

/-- The pins follow the events the body issued, under the handle it leaves (R17). -/
theorem deedOf_image (i : Instr) (s : State) : ((deedOf i).nxt (started i s)).image =
    ((deedOf i).evs (started i s)).foldl (PinImage.load ((deedOf i).nxt (started i s)).handle) s.image := by
  by_cases hi : ∃ c d e, i = .setup c d e
  · obtain ⟨c, d, e, rfl⟩ := hi
    have al := setup_alike c d e s
    rw [al.nxt, al.evs]
    by_cases hl : Within 2 27 c ∧ Within 2 27 d ∧ Within 2 27 e
    · rw [setup_ok hl.1 hl.2.1 hl.2.2]; rfl
    · rw [setup_bad hl]; rfl
  · have ti := deedOf_tidy i (by simpa using hi)
    rw [ti.handle]; exact ti.image _

/-- Everything that lies behind an instruction that gave a next state. -/
theorem exec_next_cases {i : Instr} {s t : State} (h : exec i s = .next t) :
    s.busy = false ∧
    ((s.acceptance (operationOf i).head ≠ none ∧ t = s.refuse) ∨
     (s.acceptance (operationOf i).head = none ∧ t = (deedOf i).outcome (started i s)) ∨
     (s.resetPending = true ∧ ∃ m, SameOutside s m ∧ t = m.applyReset)) := by
  rcases exec_cases i s with ⟨-, h'⟩ | ⟨hb, -, ha, h'⟩ | ⟨hb, -, ha, h'⟩ | ⟨hb, hp, m, hm, h'⟩ | ⟨-, -, -, h'⟩
  · rw [h] at h'; cases h'
  · rw [h] at h'; cases h'; exact ⟨hb, .inl ⟨ha, rfl⟩⟩
  · rw [h] at h'; cases h'; exact ⟨hb, .inr (.inl ⟨ha, rfl⟩)⟩
  · rw [h] at h'; cases h'; exact ⟨hb, .inr (.inr ⟨hp, m, hm, rfl⟩)⟩
  · rw [h] at h'; cases h'

/-- The same with nothing scheduled to disturb the operation. -/
theorem exec_next_undisturbed {i : Instr} {s t : State} (hc : s.cut = none) (h : exec i s = .next t) :
    s.busy = false ∧
    ((s.acceptance (operationOf i).head ≠ none ∧ t = s.refuse) ∨
     (s.acceptance (operationOf i).head = none ∧ t = (deedOf i).outcome (started i s))) := by
  obtain ⟨hb, h' | h' | ⟨hp, -⟩⟩ := exec_next_cases h
  · exact ⟨hb, .inl h'⟩
  · exact ⟨hb, .inr h'⟩
  · rw [State.resetPending_of_cut_none hc] at hp; cases hp

/-- What the body of an accepted instruction does to the handle and the pins: SETUP stores a legal one and issues its
seven events, or fails and does nothing; every other instruction keeps the handle. -/
theorem body_cases (i : Instr) (s : State) :
    (∃ c d e, i = .setup c d e ∧
      ((∃ v h, h.Legal ∧ (deedOf i).out (started i s) = .ok v ∧ ((deedOf i).nxt (started i s)).handle = h ∧
          ((deedOf i).nxt (started i s)).configured = true ∧ ((deedOf i).nxt (started i s)).image = restingPins .output ∧
          ((deedOf i).nxt (started i s)).engine = s.engine ∧ ((deedOf i).nxt (started i s)).diag = s.diag ∧
          (deedOf i).evs (started i s) = setupEvents h) ∨
        ((deedOf i).out (started i s) = .error .configuration ∧ (deedOf i).nxt (started i s) = started i s ∧
          (deedOf i).evs (started i s) = []))) ∨
    ((∀ c d e, i ≠ .setup c d e) ∧ (deedOf i).Tidy) := by
  by_cases hi : ∃ c d e, i = .setup c d e
  · obtain ⟨c, d, e, rfl⟩ := hi
    refine .inl ⟨c, d, e, rfl, ?_⟩
    have al := setup_alike c d e s
    rw [al.out, al.nxt, al.evs]
    by_cases hl : Within 2 27 c ∧ Within 2 27 d ∧ Within 2 27 e
    · rw [setup_ok hl.1 hl.2.1 hl.2.2]
      exact .inl ⟨_, ⟨pinOf c, pinOf d, pinOf e⟩, legal_of_within hl.1 hl.2.1 hl.2.2, rfl, rfl, rfl, setup_image .., rfl, rfl, rfl⟩
    · rw [setup_bad hl]
      exact .inr ⟨rfl, rfl, rfl⟩
  · simp only [not_exists] at hi
    exact .inr ⟨hi, deedOf_tidy i hi⟩

/-! ### A step without reset -/

/-- What sampling leaves alone. -/
structure Sampled (s u : State) : Prop where
  handle : u.handle = s.handle
  configured : u.configured = s.configured
  faultKind : u.faultKind = s.faultKind
  trace : u.trace = s.trace
  diag : u.diag = s.diag
  policy : u.policy = s.policy
  image : u.image = s.image
  engine : u.engine = s.engine
  busy : u.busy = s.busy
  seq : u.seq = s.seq
  rspKind : u.rspKind = s.rspKind
  result : u.result = s.result

theorem sample_keeps (s : State) (p : Presented) (c : Option Cut) (rest : List HostInput) :
    Sampled s (s.sample p c rest) := by
  cases p <;> exact ⟨rfl, rfl, rfl, rfl, rfl, rfl, rfl, rfl, rfl, rfl, rfl, rfl⟩

theorem sample_cut (s : State) (p : Presented) (c : Option Cut) (rest : List HostInput) :
    (s.sample p c rest).cut = c := by cases p <;> rfl

/-- What is presented and is no instruction is refused, unless a reset comes first (R50, R133). -/
theorem rejectUndecoded_cases (u : State) :
    (u.resetPending = false ∧ u.rejectUndecoded = u.refuse) ∨ (u.resetPending = true ∧ u.rejectUndecoded = u.applyReset) := by
  cases h : u.resetPending with
  | false => exact .inl ⟨rfl, State.respond_of_not_pending h _⟩
  | true => exact .inr ⟨rfl, State.respond_of_pending h _⟩

/-- Without a reset nothing sampled has one to come. -/
theorem sample_notPending {s : State} (hr : NoReset s) {p : Presented} {c : Option Cut} {rest : List HostInput}
    (h0 : s.script = .present p c :: rest) : (s.sample p c rest).resetPending = false := by
  unfold State.resetPending
  rw [sample_cut]
  cases c with
  | none => rfl
  | some c => simp [hr.during p c (by rw [h0]; rfl)]

/-- What a step without a reset can do: nothing, refuse what is presented, or run an instruction to its end. -/
theorem step_noReset {s t : State} (hr : NoReset s) (hst : step s = .next t) :
    (s.script = [] ∧ t = s) ∨ (∃ p c rest, t = (s.sample p c rest).refuse) ∨
    (∃ p c rest i, s.script = .present p c :: rest ∧ decode p = .ok i ∧
      (s.sample p c rest).acceptance (operationOf i).head = none ∧
      t = (deedOf i).outcome (started i (s.sample p c rest))) := by
  rcases step_cases s with ⟨h0, h⟩ | ⟨r, h0, h⟩ | ⟨p, c, r, h0, h⟩
  · rw [hst] at h; split at h
    · cases h
    · cases h; exact .inl ⟨h0, rfl⟩
  · exact absurd (by rw [h0]; rfl) hr.between
  · have pend := sample_notPending hr h0
    rcases h with ⟨-, h⟩ | ⟨-, i, hd, h⟩ | ⟨-, e, -, h⟩
    · rw [hst] at h; cases h
    · rw [hst] at h
      obtain ⟨-, ⟨-, h'⟩ | ⟨ha, h'⟩ | ⟨hp, -⟩⟩ := exec_next_cases h.symm
      · exact .inr (.inl ⟨p, c, r, h'⟩)
      · exact .inr (.inr ⟨p, c, r, i, h0, hd, ha, h'⟩)
      · rw [pend] at hp; cases hp
    · rw [hst, State.rejectUndecoded, State.respond_of_not_pending pend] at h
      cases h; exact .inr (.inl ⟨p, c, r, rfl⟩)

end Sys2Proof.Machine
end

