-- ==== Sys2Proof/Laws/Edges.lean ====
section
/-! SUPPORT. Laws/Edges.lean: what stands on the pins at the rising clock edges, and what the `Read` events return. -/

namespace Sys2Proof.Machine

theorem risingEdges_append (h : Handle) (p : PinImage) (es fs : List Event) :
    risingEdges h p (es ++ fs) = risingEdges h p es ++ risingEdges h (es.foldl (PinImage.load h) p) fs := by
  induction es generalizing p with
  | nil => rfl
  | cons e es ih => simp [risingEdges, ih]

/-- A list of events started with the clock low: what it shows at the edges, and the clock low again. -/
structure Clocks (h : Handle) (es : List Event) (p : PinImage) (data enable : List Level) : Prop where
  data : risingEdgeLevels h p es = data
  enable : chipEnableAtEdges h p es = enable
  low : (es.foldl (PinImage.load h) p).clkO = false
  kept : (es.foldl (PinImage.load h) p).ceO = p.ceO

theorem Clocks.append {h : Handle} {es fs : List Event} {p : PinImage} {d d' e e' : List Level}
    (k : Clocks h es p d e) (l : Clocks h fs (es.foldl (PinImage.load h) p) d' e') :
    Clocks h (es ++ fs) p (d ++ d') (e ++ e') where
  data := by rw [risingEdgeLevels, risingEdges_append, List.map_append]; exact congrArg₂ _ k.data l.data
  enable := by rw [chipEnableAtEdges, risingEdges_append, List.map_append]; exact congrArg₂ _ k.enable l.enable
  low := by rw [List.foldl_append]; exact l.low
  kept := by rw [List.foldl_append]; exact l.kept.trans k.kept

theorem Clocks.nil {h : Handle} {p : PinImage} (hp : p.clkO = false) : Clocks h [] p [] [] := ⟨rfl, rfl, hp, rfl⟩

/-- One bit out: one edge, the bit on the data pin (R62). -/
theorem clocks_writeBit {h : Handle} {p : PinImage} (b : Level) (h1 : h.clk ≠ h.dat) (h2 : h.clk ≠ h.ce)
    (h3 : h.dat ≠ h.ce) (hp : p.clkO = false) : Clocks h (writeBitEvents h b) p [b] [p.ceO] := by
  constructor <;>
  simp [risingEdgeLevels, chipEnableAtEdges, risingEdges, writeBitEvents, PinImage.load, hp, h1, h1.symm, h2, h3]

/-- One bit in: one edge (R63). -/
theorem clocks_readBit {h : Handle} {p : PinImage} (b : Level) (h1 : h.clk ≠ h.dat) (h2 : h.clk ≠ h.ce)
    (hp : p.clkO = false) : Clocks h (readBitEvents h b) p [p.datO] [p.ceO] := by
  constructor <;>
  simp [risingEdgeLevels, chipEnableAtEdges, risingEdges, readBitEvents, PinImage.load, hp, h1, h2]

theorem clocks_writeBits {h : Handle} (h1 : h.clk ≠ h.dat) (h2 : h.clk ≠ h.ce) (h3 : h.dat ≠ h.ce) (f : Nat → Level)
    (is : List Nat) {p : PinImage} (hp : p.clkO = false) :
    Clocks h (is.flatMap fun i => writeBitEvents h (f i)) p (is.map f) (List.replicate is.length p.ceO) := by
  induction is generalizing p with
  | nil => exact .nil hp
  | cons i is ih =>
    have k := clocks_writeBit (f i) h1 h2 h3 hp
    have l := ih k.low
    rw [k.kept] at l
    exact k.append l

/-- Bits in: the data levels at the edges are not the block's to say. -/
theorem clocks_readBits {h : Handle} (h1 : h.clk ≠ h.dat) (h2 : h.clk ≠ h.ce) (f : Nat → Level) (is : List Nat)
    {p : PinImage} (hp : p.clkO = false) :
    ∃ d, Clocks h (is.flatMap fun i => readBitEvents h (f i)) p d (List.replicate is.length p.ceO) := by
  induction is generalizing p with
  | nil => exact ⟨_, .nil hp⟩
  | cons i is ih =>
    have k := clocks_readBit (f i) h1 h2 hp
    obtain ⟨d, l⟩ := ih k.low
    rw [k.kept] at l
    exact ⟨_, k.append l⟩

theorem sampledLevels_append (es fs : List Event) : sampledLevels (es ++ fs) = sampledLevels es ++ sampledLevels fs := by
  induction es with
  | nil => rfl
  | cons e es ih => cases e <;> simp [sampledLevels, ih]

theorem sampled_writeByte (h : Handle) (v : Byte) : sampledLevels (writeByteEvents h v) = [] := by
  simp [writeByteEvents, bitOrder, writeBitEvents, sampledLevels]

theorem sampled_readByte (h : Handle) (v : Byte) : sampledLevels (readByteEvents h v) = bitsOf v := by
  simp [readByteEvents, bitOrder, readBitEvents, sampledLevels, bitsOf]

end Sys2Proof.Machine
end

