-- ==== Sys2Proof/Laws/Observe.lean ====
section
/-! SUPPORT. Laws/Observe.lean: what a deed depends on. Two states that agree in the handle, in the environment's answers
and in what a relation `X` asks of the latches and of T_RB lead to the same value, events and diagnostics. -/

namespace Sys2Proof.Machine

/-- A relation on the latches and T_RB of two states. -/
abbrev LatchRel := Six → Six → Six → Six → Prop

/-- Agreement in the handle, the answers and what `X` asks. -/
structure Sim (X : LatchRel) (s s' : State) : Prop where
  handle : s'.handle = s.handle
  answers : s'.answers = s.answers
  reads : s'.reads = s.reads
  latches : X s.a s'.a s.temps.rb s'.temps.rb

/-- Nothing asked. -/
def anyLatch : LatchRel := fun _ _ _ _ => True

/-- Equal latches, and equal T_RB[0..n-1]. -/
def sameLatch (n : Nat) : LatchRel := fun a a' r r' => a' = a ∧ ∀ j, j < n → r'.get j = r.get j

/-- From states that agree as `X` asks a deed does the same, and where it goes on they agree as `Y` asks. -/
structure Deed.Blind {α : Type} (X Y : LatchRel) (d : Deed α) : Prop where
  out : ∀ s s', Sim X s s' → d.out s' = d.out s
  evs : ∀ s s', Sim X s s' → d.evs s' = d.evs s
  diag : ∀ s s', Sim X s s' → ∃ ds, (d.nxt s).diag = s.diag ++ ds ∧ (d.nxt s').diag = s'.diag ++ ds
  base : ∀ s s', Sim X s s' → (d.nxt s').handle = (d.nxt s).handle ∧ (d.nxt s').answers = (d.nxt s).answers ∧
    (d.nxt s').reads = (d.nxt s).reads
  goes : ∀ s s', Sim X s s' → ∀ v, d.out s = .ok v →
    Y (d.nxt s).a (d.nxt s').a (d.nxt s).temps.rb (d.nxt s').temps.rb

namespace Deed.Blind

variable {α β : Type} {X Y Z : LatchRel}

theorem after {d : Deed α} (h : d.Blind X Y) {s s' : State} (m : Sim X s s') {v : α} (hv : d.out s = .ok v) :
    Sim Y (d.nxt s) (d.nxt s') :=
  have b := h.base s s' m
  ⟨b.1, b.2.1, b.2.2, h.goes s s' m v hv⟩

theorem andThen {d : Deed α} {k : α → Deed β} (hd : d.Blind X Y) (hk : ∀ v, (k v).Blind Y Z) :
    (d.andThen k).Blind X Z where
  out s s' m := by
    simp only [Deed.andThen, hd.out s s' m]
    cases h : d.out s with
    | ok v => exact (hk v).out _ _ (hd.after m h)
    | error e => rfl
  evs s s' m := by
    simp only [Deed.andThen, hd.out s s' m, hd.evs s s' m]
    cases h : d.out s with
    | ok v => exact congrArg _ ((hk v).evs _ _ (hd.after m h))
    | error e => rfl
  diag s s' m := by
    obtain ⟨ds, h1, h2⟩ := hd.diag s s' m
    simp only [Deed.andThen, hd.out s s' m]
    cases h : d.out s with
    | ok v =>
      obtain ⟨es, h3, h4⟩ := (hk v).diag _ _ (hd.after m h)
      refine ⟨ds ++ es, ?_, ?_⟩
      · show ((k v).nxt (d.nxt s)).diag = _
        rw [h3, h1, List.append_assoc]
      · show ((k v).nxt (d.nxt s')).diag = _
        rw [h4, h2, List.append_assoc]
    | error e => exact ⟨ds, h1, h2⟩
  base s s' m := by
    simp only [Deed.andThen, hd.out s s' m]
    cases h : d.out s with
    | ok v => exact (hk v).base _ _ (hd.after m h)
    | error e => exact hd.base s s' m
  goes s s' m v hv := by
    simp only [Deed.andThen, hd.out s s' m] at hv ⊢
    cases h : d.out s with
    | ok u =>
      rw [h] at hv
      exact (hk u).goes _ _ (hd.after m h) v hv
    | error e => rw [h] at hv; cases hv

/-- A deed that changes nothing and issues nothing, its outcome the same in states that agree. -/
theorem still {d : Deed α} (ho : ∀ s s', Sim X s s' → d.out s' = d.out s) (hn : ∀ s, d.nxt s = s)
    (he : ∀ s, d.evs s = []) : d.Blind X X where
  out := ho
  evs s s' _ := by rw [he, he]
  diag s s' _ := ⟨[], by rw [hn, List.append_nil], by rw [hn, List.append_nil]⟩
  base s s' m := by rw [hn, hn]; exact ⟨m.handle, m.answers, m.reads⟩
  goes s s' m _ _ := by rw [hn, hn]; exact m.latches

theorem value {f : State → α} (h : ∀ s s', Sim X s s' → f s' = f s) : (Deed.value f).Blind X X :=
  still (fun s s' m => congrArg Except.ok (h s s' m)) (fun _ => rfl) fun _ => rfl

theorem const (v : α) : (Deed.value fun _ => v).Blind X X := value fun _ _ _ => rfl

theorem fatal (e : FatalError) : (Deed.fatal e : Deed α).Blind X X := still (fun _ _ _ => rfl) (fun _ => rfl) fun _ => rfl

theorem checkRange (lo hi v : Word) : (Deed.checkRange lo hi v).Blind X X :=
  still (fun _ _ _ => rfl) (fun _ => rfl) fun _ => rfl

theorem decodeByte (t : Int) (raw : Byte) : (Deed.decodeByte t raw).Blind X X :=
  still (fun _ _ _ => rfl) (fun _ => rfl) fun _ => rfl

theorem nextByte_eq {s s' : State} (m : Sim X s s') (j : Nat) : s'.nextByte j = s.nextByte j := by
  simp only [State.nextByte, State.level, m.answers, m.reads]

theorem regRead (a : Byte) : (Deed.regRead a).Blind X X where
  out s s' m := by rw [Deed.regRead_out, Deed.regRead_out, nextByte_eq m]
  evs s s' m := by rw [Deed.regRead_evs, Deed.regRead_evs, nextByte_eq m, m.handle]
  diag s s' _ := ⟨[], by simp, by simp⟩
  base s s' m := ⟨m.handle, congrArg (List.drop 8) m.answers, congrArg (· + 8) m.reads⟩
  goes s s' m _ _ := m.latches

theorem regWrite (a v : Byte) : (Deed.regWrite a v).Blind X X where
  out s s' m := rfl
  evs s s' m := by show regWriteEvents _ _ _ = regWriteEvents _ _ _; rw [m.handle]
  diag s s' _ := ⟨[], (List.append_nil _).symm, (List.append_nil _).symm⟩
  base s s' m := ⟨m.handle, m.answers, m.reads⟩
  goes s s' m _ _ := m.latches

theorem writeAndCheck (a v : Byte) : (Deed.writeAndCheck a v).Blind X X where
  out s s' m := rfl
  evs s s' m := by rw [Deed.writeAndCheck_evs, Deed.writeAndCheck_evs, nextByte_eq m, m.handle]
  diag s s' m := ⟨_, Deed.writeAndCheck_diag a v s, by rw [Deed.writeAndCheck_diag, nextByte_eq m]⟩
  base s s' m := by
    have t := Deed.Tidy.writeAndCheck a v
    have e : (Deed.writeAndCheck a v).evs s' = (Deed.writeAndCheck a v).evs s := by
      rw [Deed.writeAndCheck_evs, Deed.writeAndCheck_evs, nextByte_eq m, m.handle]
    rw [t.handle, t.handle, t.answers, t.answers, t.reads, t.reads, e, m.handle, m.answers, m.reads]
    exact ⟨rfl, rfl, rfl⟩
  goes s s' m _ _ := by
    rw [Deed.writeAndCheck_a, Deed.writeAndCheck_a, Deed.writeAndCheck_temps, Deed.writeAndCheck_temps]
    exact m.latches

theorem toWord {d : Deed Byte} (h : d.Blind X Y) (f : Byte → Word) : (d.toWord f).Blind X Y := h.andThen fun _ => const _

theorem wireRead (c : Byte) : (Deed.wireRead c).Blind X X := (regRead c).toWord _

theorem wireWrite (c v : Byte) : (Deed.wireWrite c v).Blind X X := (regWrite c v).andThen fun _ => const _

theorem flagRead (a : Byte) (g : Byte → Byte) : (Deed.flagRead a g).Blind X X := (regRead a).toWord _

theorem fieldRead (f : Field) : (Deed.fieldRead f).Blind X X :=
  (regRead _).andThen fun _ => (decodeByte ..).andThen fun _ => checkRange ..

theorem packedWrite (lo hi : Word) (a : Byte) (g : Byte → Byte) (v : Word) : (Deed.packedWrite lo hi a g v).Blind X X :=
  (checkRange ..).andThen fun _ => (writeAndCheck ..).toWord _

theorem wrWp (p : Word) : (Deed.wrWp p).Blind X X := (writeAndCheck ..).toWord _

theorem modifySeconds (g : Byte → Byte) : (Deed.modifySeconds g).Blind X X where
  out s s' m := by rw [Deed.modifySeconds_out, Deed.modifySeconds_out, nextByte_eq m]
  evs s s' m := by rw [Deed.modifySeconds_evs, Deed.modifySeconds_evs, nextByte_eq m, nextByte_eq m, m.handle]
  diag s s' m := ⟨_, Deed.modifySeconds_diag g s, by rw [Deed.modifySeconds_diag, nextByte_eq m, nextByte_eq m]⟩
  base s s' m := by
    have t := Deed.Tidy.modifySeconds g
    have e : (Deed.modifySeconds g).evs s' = (Deed.modifySeconds g).evs s := by
      rw [Deed.modifySeconds_evs, Deed.modifySeconds_evs, nextByte_eq m, nextByte_eq m, m.handle]
    rw [t.handle, t.handle, t.answers, t.answers, t.reads, t.reads, e, m.handle, m.answers, m.reads]
    exact ⟨rfl, rfl, rfl⟩
  goes s s' m _ _ := by
    rw [Deed.modifySeconds_a, Deed.modifySeconds_a, Deed.modifySeconds_temps, Deed.modifySeconds_temps]
    exact m.latches

theorem wrSec (v : Word) : (Deed.wrSec v).Blind X X := (checkRange ..).andThen fun _ => modifySeconds _

/-- A deed that depends on an operand, in states with equal latches. -/
theorem given {k n : Nat} {d : Word → Deed Word} (h : ∀ v, (d v).Blind (sameLatch n) Y) :
    (Deed.given k d).Blind (sameLatch n) Y :=
  (value fun _ _ m => by rw [m.latches.1]).andThen h

theorem givenByte {k n : Nat} {d : Byte → Deed Word} (h : ∀ v, (d v).Blind (sameLatch n) Y) :
    (Deed.givenByte k d).Blind (sameLatch n) Y :=
  (value fun _ _ m => by rw [m.latches.1]).andThen h

theorem dateWrites : Deed.dateWrites.Blind (sameLatch 0) (sameLatch 0) :=
  (wrWp 0).andThen fun _ => (given fun _ => packedWrite ..).andThen fun _ => (given fun _ => packedWrite ..).andThen fun _ =>
    (given fun _ => packedWrite ..).andThen fun _ => (given fun _ => packedWrite ..).andThen fun _ =>
    (given fun _ => packedWrite ..).andThen fun _ => (given wrSec).andThen fun _ => const _

/-- A re-read makes one more of T_RB the same. -/
theorem reread (f : Field) {n : Nat} {g : Word → Six → Six} (hn : ∀ v r, (g v r).get n = v)
    (hk : ∀ v r j, j < n → (g v r).get j = r.get j) : (Deed.reread f g).Blind (sameLatch n) (sameLatch (n + 1)) :=
  (fieldRead f).andThen fun v =>
    { out := fun _ _ _ => rfl
      evs := fun _ _ _ => rfl
      diag := fun _ _ _ => ⟨[], (List.append_nil _).symm, (List.append_nil _).symm⟩
      base := fun _ _ m => ⟨m.handle, m.answers, m.reads⟩
      goes := fun s s' m _ _ => by
        refine ⟨m.latches.1, fun j hj => ?_⟩
        show (g v s'.temps.rb).get j = (g v s.temps.rb).get j
        by_cases h : j = n
        · subst h; rw [hn, hn]
        · rw [hk _ _ _ (by omega), hk _ _ _ (by omega)]; exact m.latches.2 j (by omega) }

theorem dateRereads : Deed.dateRereads.Blind (sameLatch 0) (sameLatch 6) := by
  refine (reread .year (fun _ _ => rfl) fun _ _ j h => ?_).andThen fun _ =>
    (reread .month (fun _ _ => rfl) fun _ _ j h => ?_).andThen fun _ =>
    (reread .mday (fun _ _ => rfl) fun _ _ j h => ?_).andThen fun _ =>
    (reread .hours (fun _ _ => rfl) fun _ _ j h => ?_).andThen fun _ =>
    (reread .minutes (fun _ _ => rfl) fun _ _ j h => ?_).andThen fun _ =>
    (reread .seconds (fun _ _ => rfl) fun _ _ j h => ?_)
  all_goals interval_cases j <;> rfl

theorem six_ext {x y : Six} (h : ∀ j, j < 6 → x.get j = y.get j) : x = y := by
  cases x; cases y
  simp only [Six.mk.injEq]
  exact ⟨h 0 (by omega), h 1 (by omega), h 2 (by omega), h 3 (by omega), h 4 (by omega), h 5 (by omega)⟩

theorem wrDate : Deed.wrDate.Blind (sameLatch 0) (sameLatch 6) :=
  dateWrites.andThen fun _ => dateRereads.andThen fun _ => value fun s s' m => by
    rw [m.latches.1, six_ext (fun j h => m.latches.2 j h)]

theorem weaken {n : Nat} {d : Deed α} (h : d.Blind (sameLatch 0) (sameLatch n)) : d.Blind (sameLatch 0) (sameLatch 0) where
  out := h.out
  evs := h.evs
  diag := h.diag
  base := h.base
  goes s s' m v hv := ⟨(h.goes s s' m v hv).1, fun j hj => by omega⟩

/-- SETUP touches no latch and no temporary. -/
theorem setup (c d e : Word) : (Deed.setup c d e).Blind X X := by
  by_cases h : Within 2 27 c ∧ Within 2 27 d ∧ Within 2 27 e
  · rw [setup_ok h.1 h.2.1 h.2.2]
    exact
      { out := fun _ _ _ => rfl
        evs := fun _ _ _ => rfl
        diag := fun _ _ _ => ⟨[], (List.append_nil _).symm, (List.append_nil _).symm⟩
        base := fun _ _ m => ⟨rfl, m.answers, m.reads⟩
        goes := fun _ _ m _ _ => m.latches }
  · rw [setup_bad h]
    exact fatal _

end Deed.Blind

/-- Every body does the same from states with equal latches, whatever the rest of the state holds. -/
theorem deedOf_blind (i : Instr) : (deedOf i).Blind (sameLatch 0) (sameLatch 0) := by
  cases i with
  | setup c d e => exact .given fun _ => .given fun _ => .given fun _ => .setup ..
  | rdSec => exact .fieldRead _
  | rdMin => exact .fieldRead _
  | rdHour => exact .fieldRead _
  | rdMday => exact .fieldRead _
  | rdMon => exact .fieldRead _
  | rdWday => exact .fieldRead _
  | rdYear => exact .fieldRead _
  | wrSec v => exact .given .wrSec
  | wrMin v => exact .given fun _ => .packedWrite ..
  | wrHour v => exact .given fun _ => .packedWrite ..
  | wrMday v => exact .given fun _ => .packedWrite ..
  | wrMon v => exact .given fun _ => .packedWrite ..
  | wrWday v => exact .given fun _ => .packedWrite ..
  | wrYear v => exact .given fun _ => .packedWrite ..
  | rdCh => exact .flagRead ..
  | wrCh v => exact .given fun _ => .modifySeconds _
  | rd24h => exact .flagRead ..
  | rdPm => exact .flagRead ..
  | rdWp => exact .flagRead ..
  | wrWp p => exact .given .wrWp
  | wrDate y mo dd h mi se => exact Deed.Blind.weaken .wrDate
  | bcdEnc d => exact .value fun _ _ m => by rw [m.latches.1]
  | bcdDec t raw => exact .given fun _ => .givenByte fun _ => .decodeByte ..
  | chkRng lo hi v => exact .given fun _ => .given fun _ => .given fun _ => .checkRange ..
  | xRd a => exact .givenByte .wireRead
  | xWr a v => exact .givenByte fun _ => .givenByte fun _ => .wireWrite ..
  | xWrchk a v => exact .givenByte fun _ => .givenByte fun _ => .toWord (.writeAndCheck ..) _
  | wSec v => exact .wireWrite ..
  | rSec => exact .wireRead _
  | wMin v => exact .wireWrite ..
  | rMin => exact .wireRead _
  | wHour v => exact .wireWrite ..
  | rHour => exact .wireRead _
  | wMday v => exact .wireWrite ..
  | rMday => exact .wireRead _
  | wMon v => exact .wireWrite ..
  | rMon => exact .wireRead _
  | wWday v => exact .wireWrite ..
  | rWday => exact .wireRead _
  | wYear v => exact .wireWrite ..
  | rYear => exact .wireRead _
  | wWp v => exact .wireWrite ..
  | rWp => exact .wireRead _

/-- A disturbance to come changes nothing of what the body does before it. -/
theorem deedOf_cut (i : Instr) (s : State) (c : Option Cut) :
    (deedOf i).out { s with cut := c } = (deedOf i).out s ∧ (deedOf i).evs { s with cut := c } = (deedOf i).evs s :=
  have m : Sim (sameLatch 0) s { s with cut := c } := ⟨rfl, rfl, rfl, rfl, fun _ _ => rfl⟩
  ⟨(deedOf_blind i).out _ _ m, (deedOf_blind i).evs _ _ m⟩

end Sys2Proof.Machine
end

