-- ==== Sys2Proof/Laws/Midway.lean ====
section
/-! SUPPORT. Laws/Midway.lean: the state in the middle of an operation (10_state.md R14), and that what cuts an operation
decides only how it ends, never what it did before. -/

namespace Sys2Proof.Machine

/-! ### The small-step view -/

/-- BCD_ENC issues nothing, so it has no middle. -/
theorem midState_bcdEnc (d : Word) (k : Nat) (s : State) : midState (.bcdEnc d) k s = none := by
  unfold midState midway
  split
  · rfl
  · cases ha : s.acceptance (operationOf (.bcdEnc d)).head with
    | some c => rfl
    | none =>
      have h := ((acceptance_none_iff _ _).mp ha).2.2.2
      have e := bcdEncBody_result { s.begin (opBcdEnc d).head with cut := some ⟨k, .hang⟩ }
        ((encAdmitted_begin d s).trans h)
      show (match bcdEncBody { s.begin (opBcdEnc d).head with cut := some ⟨k, .hang⟩ } with
        | .error (.cut _) s' => some s'
        | .error (.raised _) _ => none
        | .error .encodeOutsideDomain _ => none
        | .ok _ _ => none) = none
      rw [e]

/-- A state in the middle (R14). -/
structure InMiddle (i : Instr) (k : Nat) (s m : State) : Prop where
  busy : s.busy = false
  accepted : s.acceptance (operationOf i).head = none
  within : k < ((deedOf i).evs (started i s)).length
  trace : m.trace = s.trace ++ ((deedOf i).evs (started i s)).take k
  seq : m.seq = k
  steady : Steady { started i s with cut := some ⟨k, .hang⟩ } m
  run : (operationOf i).body { started i s with cut := some ⟨k, .hang⟩ } = .error (.cut .hang) m

theorem midState_some {i : Instr} {k : Nat} {s m : State} (h : midState i k s = some m) : InMiddle i k s m := by
  by_cases hi : ∃ d, i = .bcdEnc d
  · obtain ⟨d, rfl⟩ := hi
    rw [midState_bcdEnc] at h; cases h
  · simp only [not_exists] at hi
    unfold midState midway at h
    split at h
    · cases h
    · next hb =>
      have hb : s.busy = false := by simpa using hb
      cases ha : s.acceptance (operationOf i).head with
      | some c => rw [ha] at h; cases h
      | none =>
        rw [ha] at h
        dsimp only at h
        have ev := (deedOf_cut i (started i s) (some ⟨k, .hang⟩)).2
        by_cases hk : k < ((deedOf i).evs (started i s)).length
        · obtain ⟨t, ht, hm⟩ := (bodies_run i hi).stops { started i s with cut := some ⟨k, .hang⟩ } ⟨k, .hang⟩ rfl
            (Nat.zero_le k) (by rw [ev]; show k < 0 + _; omega)
          have ht' := ht
          unfold started at ht
          rw [ht] at h
          cases h
          refine ⟨hb, ha, hk, ?_, hm.seq, hm.steady, ht'⟩
          rw [hm.trace, ev]; rfl
        · have g := (bodies_run i hi).goes { started i s with cut := some ⟨k, .hang⟩ } (fun c hc => by
            cases hc; rw [ev]; show k < 0 ∨ 0 + _ ≤ k; omega)
          unfold started at g
          rw [g] at h
          unfold Deed.result at h
          split at h <;> first | (cases h; done) | skip
          all_goals
            next hh =>
            split at hh <;> cases hh

theorem midState_isSome {i : Instr} {k : Nat} {s : State} (hb : s.busy = false)
    (ha : s.acceptance (operationOf i).head = none) (hk : k < ((deedOf i).evs (started i s)).length) :
    (midState i k s).isSome = true := by
  by_cases hi : ∃ d, i = .bcdEnc d
  · obtain ⟨d, rfl⟩ := hi
    exact absurd hk (Nat.not_lt_zero k)
  · simp only [not_exists] at hi
    have ev := (deedOf_cut i (started i s) (some ⟨k, .hang⟩)).2
    obtain ⟨t, ht, -⟩ := (bodies_run i hi).stops { started i s with cut := some ⟨k, .hang⟩ } ⟨k, .hang⟩ rfl
      (Nat.zero_le k) (by rw [ev]; show k < 0 + _; omega)
    unfold started at ht
    rw [midState, midway, if_neg (by simp [hb]), ha]
    dsimp only
    rw [ht]
    rfl

/-! ### The kind of a disturbance -/

/-- The same state with every scheduled disturbance made a reset. -/
def State.toReset (s : State) : State := { s with cut := s.cut.map fun c => ⟨c.after, .reset⟩ }

/-- The same result with a reset for a disturbance. -/
def resultToReset {α : Type} : EStateM.Result Abort State α → EStateM.Result Abort State α
  | .ok a s => .ok a s.toReset
  | .error (.cut _) s => .error (.cut .reset) s.toReset
  | .error (.raised e) s => .error (.raised e) s.toReset
  | .error .encodeOutsideDomain s => .error .encodeOutsideDomain s.toReset

/-- A procedure that goes the same way whatever the kind of the disturbance scheduled. -/
def KindBlind {α : Type} (m : Eng α) : Prop := ∀ s, m s.toReset = resultToReset (m s)

namespace KindBlind

variable {α β : Type}

theorem bind {m : Eng α} {k : α → Eng β} (hm : KindBlind m) (hk : ∀ a, KindBlind (k a)) : KindBlind (m >>= k) := by
  intro s
  simp only [eng_bind, hm s]
  cases m s with
  | ok a t => exact hk a t
  | error e t => cases e <;> rfl

theorem pure (a : α) : KindBlind (Pure.pure a : Eng α) := fun _ => rfl

theorem look {f : State → α} (h : ∀ s : State, f s.toReset = f s) : KindBlind (Machine.look f) := fun s => by
  show EStateM.Result.ok _ _ = EStateM.Result.ok _ _
  rw [h]

theorem update {f : State → State} (h : ∀ s : State, f s.toReset = (f s).toReset) : KindBlind (Machine.update f) := fun s => by
  show EStateM.Result.ok _ _ = EStateM.Result.ok _ _
  rw [h]

theorem raise (e : FatalError) : KindBlind (Machine.raise e : Eng α) := fun _ => rfl

theorem proceed : KindBlind Machine.proceed := fun s => by
  unfold Machine.proceed State.dueCut
  cases h : s.cut with
  | none => simp [State.toReset, h, resultToReset]
  | some c =>
    by_cases hc : c.after = s.seq
    · simp [State.toReset, h, resultToReset, hc]
    · simp [State.toReset, h, resultToReset, hc]

theorem emit (e : Event) : KindBlind (Machine.emit e) := proceed.bind fun _ => update (by exact fun _ => rfl)

theorem readPin (p : Byte) : KindBlind (Machine.readPin p) :=
  proceed.bind fun _ => (look (by exact fun _ => rfl)).bind fun _ => (update (by exact fun _ => rfl)).bind fun _ =>
    (update (by exact fun _ => rfl)).bind fun _ => pure _

theorem handle : KindBlind (Machine.look State.handle) := look (by exact fun _ => rfl)

theorem writeBit (b : Level) : KindBlind (Machine.writeBit b) :=
  handle.bind fun _ => (emit _).bind fun _ => (emit _).bind fun _ => (emit _).bind fun _ => (emit _).bind fun _ =>
    (emit _).bind fun _ => (emit _).bind fun _ => emit _

theorem readBit : KindBlind Machine.readBit :=
  handle.bind fun _ => (readPin _).bind fun _ => (emit _).bind fun _ => (emit _).bind fun _ => (emit _).bind fun _ =>
    (emit _).bind fun _ => (emit _).bind fun _ => pure _

theorem sendBits (l : List Nat) : KindBlind (Machine.sendBits l) := by
  induction l with
  | nil => exact pure _
  | cons i is ih =>
    exact ((update (by exact fun _ => rfl)).bind fun _ => (look (by exact fun _ => rfl)).bind fun _ => writeBit _).bind fun _ => ih

theorem receiveBits (l : List Nat) : KindBlind (Machine.receiveBits l) := by
  induction l with
  | nil => exact pure _
  | cons i is ih =>
    exact ((update (by exact fun _ => rfl)).bind fun _ => readBit.bind fun _ => update (by exact fun _ => rfl)).bind fun _ => ih

theorem writeByte (v : Byte) : KindBlind (Machine.writeByte v) := (update (by exact fun _ => rfl)).bind fun _ => sendBits _

theorem readByte : KindBlind Machine.readByte :=
  (update (by exact fun _ => rfl)).bind fun _ => (receiveBits _).bind fun _ => look (by exact fun _ => rfl)

theorem stopWrites : KindBlind Machine.stopWrites :=
  handle.bind fun _ => (emit _).bind fun _ => (emit _).bind fun _ => emit _

theorem stopStep : KindBlind Machine.stopStep :=
  (update (by exact fun _ => rfl)).bind fun _ => stopWrites.bind fun _ => update (by exact fun _ => rfl)

theorem startStep (r : Bool) : KindBlind (Machine.startStep r) :=
  (update (by exact fun _ => rfl)).bind fun _ => handle.bind fun _ => (emit _).bind fun _ => emit _

theorem regRead (a : Byte) : KindBlind (Machine.regRead a) :=
  (startStep _).bind fun _ => ((update (by exact fun _ => rfl)).bind fun _ => handle.bind fun _ => (emit _).bind fun _ => emit _).bind
    fun _ => ((update (by exact fun _ => rfl)).bind fun _ => writeByte _).bind fun _ =>
    ((update (by exact fun _ => rfl)).bind fun _ => readByte).bind fun _ => stopStep.bind fun _ => pure _

theorem regWrite (a v : Byte) : KindBlind (Machine.regWrite a v) :=
  (startStep _).bind fun _ => ((update (by exact fun _ => rfl)).bind fun _ => handle.bind fun _ => emit _).bind fun _ =>
    ((update (by exact fun _ => rfl)).bind fun _ => writeByte _).bind fun _ =>
    ((update (by exact fun _ => rfl)).bind fun _ => writeByte _).bind fun _ => stopStep

theorem compare (a g : Byte) : KindBlind (Machine.update (State.compare a g)) := update fun s => by
  show (if g = s.temps.w then s.toReset else s.toReset.report ⟨a, s.temps.w, g⟩) = _
  unfold State.compare
  split <;> rfl

theorem writeAndCheck (a v : Byte) : KindBlind (Machine.writeAndCheck a v) :=
  (update (by exact fun _ => rfl)).bind fun _ => (regWrite _ _).bind fun _ => (regRead _).bind fun _ => (compare _ _).bind fun _ =>
    look (by exact fun _ => rfl)

theorem checkRange (lo hi v : Word) : KindBlind (Machine.checkRange lo hi v) := by
  unfold Machine.checkRange; split
  · exact pure _
  · exact raise _

theorem encodeByte (d : Word) : KindBlind (Machine.encodeByte d) := by
  unfold Machine.encodeByte; split
  · exact pure _
  · exact fun _ => rfl

theorem decodeByte (t : Int) (raw : Byte) : KindBlind (Machine.decodeByte t raw) := by
  unfold Machine.decodeByte; split
  · exact pure _
  · exact raise _

theorem checkPin (v : Word) : KindBlind (Machine.checkPin v) := by
  unfold Machine.checkPin; split
  · exact pure _
  · exact raise _

theorem operand (k : Nat) : KindBlind (Machine.operand k) := look (by exact fun _ => rfl)

theorem operandByte (k : Nat) : KindBlind (Machine.operandByte k) := look (by exact fun _ => rfl)

theorem fieldRead (f : Field) : KindBlind (Machine.fieldRead f) :=
  (regRead _).bind fun _ => (decodeByte _ _).bind fun _ => checkRange _ _ _

theorem fieldWrite (f : Field) (v : Word) : KindBlind (Machine.fieldWrite f v) :=
  (checkRange _ _ _).bind fun _ => (encodeByte _).bind fun _ => (writeAndCheck _ _).bind fun _ => pure _

theorem flagRead (a : Byte) (g : Byte → Byte) : KindBlind (Machine.flagRead a g) := (regRead _).bind fun _ => pure _

theorem wrHour (v : Word) : KindBlind (wrHourBody v) :=
  (checkRange _ _ _).bind fun _ => (encodeByte _).bind fun _ => (writeAndCheck _ _).bind fun _ => pure _

theorem seconds (g : Byte → Byte) : KindBlind (do
    let cur ← Machine.regRead 0x81
    Machine.update (State.setTcur cur)
    let kept ← Machine.look fun s => s.temps.cur
    let w ← Machine.writeAndCheck 0x80 (g kept)
    Pure.pure (zext8 w)) :=
  (regRead _).bind fun _ => (update (by exact fun _ => rfl)).bind fun _ => (look (by exact fun _ => rfl)).bind fun _ =>
    (writeAndCheck _ _).bind fun _ => pure _

theorem wrSec (v : Word) : KindBlind (wrSecBody v) :=
  (checkRange _ _ _).bind fun _ => (encodeByte _).bind fun b => seconds (keepHalt b)

theorem wrCh (h : Word) : KindBlind (wrChBody h) := seconds fun kept => withHalt kept (h.setWidth 8)

theorem wrWp (p : Word) : KindBlind (wrWpBody p) := (writeAndCheck _ _).bind fun _ => pure _

theorem withOperand {body : Word → Eng Word} (h : ∀ v, KindBlind (body v)) : KindBlind (Machine.withOperand body) :=
  (operand 0).bind h

theorem setup : KindBlind setupBody :=
  (operand 0).bind fun _ => (operand 1).bind fun _ => (operand 2).bind fun _ => (checkPin _).bind fun _ =>
    (checkPin _).bind fun _ => (checkPin _).bind fun _ => (update (by exact fun _ => rfl)).bind fun _ => handle.bind fun _ =>
    (emit _).bind fun _ => (emit _).bind fun _ => (emit _).bind fun _ => (emit _).bind fun _ => stopWrites.bind fun _ =>
    pure _

theorem dateWrites : KindBlind Machine.dateWrites :=
  (wrWp _).bind fun _ => (operand _).bind fun _ => (fieldWrite _ _).bind fun _ => (operand _).bind fun _ =>
    (fieldWrite _ _).bind fun _ => (operand _).bind fun _ => (fieldWrite _ _).bind fun _ => (operand _).bind fun _ =>
    (wrHour _).bind fun _ => (operand _).bind fun _ => (fieldWrite _ _).bind fun _ => (operand _).bind fun _ =>
    (wrSec _).bind fun _ => pure _

theorem dateRereads : KindBlind Machine.dateRereads :=
  (fieldRead _).bind fun _ => (update (by exact fun _ => rfl)).bind fun _ => (fieldRead _).bind fun _ => (update (by exact fun _ => rfl)).bind
    fun _ => (fieldRead _).bind fun _ => (update (by exact fun _ => rfl)).bind fun _ => (fieldRead _).bind fun _ =>
    (update (by exact fun _ => rfl)).bind fun _ => (fieldRead _).bind fun _ => (update (by exact fun _ => rfl)).bind fun _ =>
    (fieldRead _).bind fun _ => update (by exact fun _ => rfl)

theorem wrDate : KindBlind wrDateBody := dateWrites.bind fun _ => dateRereads.bind fun _ => look (by exact fun _ => rfl)

theorem wireRead (c : Byte) : KindBlind (Machine.wireRead c).body := (regRead _).bind fun _ => pure _

theorem wireWrite (c v : Byte) : KindBlind (Machine.wireWrite c v).body := (regWrite _ _).bind fun _ => pure _

end KindBlind

/-- No body looks at the kind of the disturbance scheduled. -/
theorem bodies_kindBlind (i : Instr) : KindBlind (operationOf i).body := by
  cases i with
  | setup c d e => exact .setup
  | rdSec => exact .fieldRead _
  | rdMin => exact .fieldRead _
  | rdHour => exact .fieldRead _
  | rdMday => exact .fieldRead _
  | rdMon => exact .fieldRead _
  | rdWday => exact .fieldRead _
  | rdYear => exact .fieldRead _
  | wrSec v => exact .withOperand .wrSec
  | wrMin v => exact .withOperand fun _ => .fieldWrite _ _
  | wrHour v => exact .withOperand .wrHour
  | wrMday v => exact .withOperand fun _ => .fieldWrite _ _
  | wrMon v => exact .withOperand fun _ => .fieldWrite _ _
  | wrWday v => exact .withOperand fun _ => .fieldWrite _ _
  | wrYear v => exact .withOperand fun _ => .fieldWrite _ _
  | rdCh => exact .flagRead _ _
  | wrCh v => exact .withOperand .wrCh
  | rd24h => exact .flagRead _ _
  | rdPm => exact .flagRead _ _
  | rdWp => exact .flagRead _ _
  | wrWp p => exact .withOperand .wrWp
  | wrDate y mo dd h mi se => exact .wrDate
  | bcdEnc d => exact (KindBlind.operand 0).bind fun _ => (KindBlind.encodeByte _).bind fun _ => .pure _
  | bcdDec t raw => exact (KindBlind.operand 0).bind fun _ => (KindBlind.operandByte 1).bind fun _ => .decodeByte _ _
  | chkRng lo hi v =>
    exact (KindBlind.operand 0).bind fun _ => (KindBlind.operand 1).bind fun _ => (KindBlind.operand 2).bind fun _ =>
      .checkRange _ _ _
  | xRd a => exact (KindBlind.operandByte 0).bind fun _ => (KindBlind.regRead _).bind fun _ => .pure _
  | xWr a v =>
    exact (KindBlind.operandByte 0).bind fun _ => (KindBlind.operandByte 1).bind fun _ => (KindBlind.regWrite _ _).bind
      fun _ => .pure _
  | xWrchk a v =>
    exact (KindBlind.operandByte 0).bind fun _ => (KindBlind.operandByte 1).bind fun _ =>
      (KindBlind.writeAndCheck _ _).bind fun _ => .pure _
  | wSec v => exact .wireWrite _ _
  | rSec => exact .wireRead _
  | wMin v => exact .wireWrite _ _
  | rMin => exact .wireRead _
  | wHour v => exact .wireWrite _ _
  | rHour => exact .wireRead _
  | wMday v => exact .wireWrite _ _
  | rMday => exact .wireRead _
  | wMon v => exact .wireWrite _ _
  | rMon => exact .wireRead _
  | wWday v => exact .wireWrite _ _
  | rWday => exact .wireRead _
  | wYear v => exact .wireWrite _ _
  | rYear => exact .wireRead _
  | wWp v => exact .wireWrite _ _
  | rWp => exact .wireRead _

end Sys2Proof.Machine
end

