-- ==== Sys2Proof/Laws/PerInstr.lean ====
section
/-! SUPPORT. Laws/PerInstr.lean: facts about every instruction, one lemma per constructor. -/

namespace Sys2Proof.Laws.Table

/-- The fixed byte of an instruction's row in spec/opcode_table.json: OPC of a host operation (30_encoding.md R49), the
command byte of a wire command (R54). -/
def rowByte : Instr → Byte
  | .setup _ _ _ => 0x00
  | .rdSec => 0x10
  | .rdMin => 0x11
  | .rdHour => 0x12
  | .rdMday => 0x13
  | .rdMon => 0x14
  | .rdWday => 0x15
  | .rdYear => 0x16
  | .wrSec _ => 0x20
  | .wrMin _ => 0x21
  | .wrHour _ => 0x22
  | .wrMday _ => 0x23
  | .wrMon _ => 0x24
  | .wrWday _ => 0x25
  | .wrYear _ => 0x26
  | .rdCh => 0x30
  | .wrCh _ => 0x31
  | .rd24h => 0x32
  | .rdPm => 0x33
  | .rdWp => 0x34
  | .wrWp _ => 0x35
  | .wrDate _ _ _ _ _ _ => 0x40
  | .bcdEnc _ => 0x50
  | .bcdDec _ _ => 0x51
  | .chkRng _ _ _ => 0x52
  | .xRd _ => 0x60
  | .xWr _ _ => 0x61
  | .xWrchk _ _ => 0x62
  | .wSec _ => 0x80
  | .rSec => 0x81
  | .wMin _ => 0x82
  | .rMin => 0x83
  | .wHour _ => 0x84
  | .rHour => 0x85
  | .wMday _ => 0x86
  | .rMday => 0x87
  | .wMon _ => 0x88
  | .rMon => 0x89
  | .wWday _ => 0x8A
  | .rWday => 0x8B
  | .wYear _ => 0x8C
  | .rYear => 0x8D
  | .wWp _ => 0x8E
  | .rWp => 0x8F

/-- The encoding carries the row's byte in bits 7:0: of a command word below 0x80, of a wire frame from 0x80 on. -/
def Statement (i : Instr) : Prop :=
  match encode i with
  | .command w => opcodeOf w = rowByte i ∧ (rowByte i).toNat < 0x80
  | .frame w => wireByteOf w = rowByte i ∧ 0x80 ≤ (rowByte i).toNat ∧ (rowByte i).toNat ≤ 0x8F

theorem command_row {opc : Byte} {s0 s1 s2 s3 s4 s5 : Word} (h : opc.toNat < 0x80) :
    opcodeOf (packCommand opc s0 s1 s2 s3 s4 s5) = opc ∧ opc.toNat < 0x80 :=
  ⟨opcodeOf_packCommand .., h⟩

theorem frame_row {cmd data : Byte} (h : 0x80 ≤ cmd.toNat ∧ cmd.toNat ≤ 0x8F) :
    wireByteOf (data ++ cmd) = cmd ∧ 0x80 ≤ cmd.toNat ∧ cmd.toNat ≤ 0x8F :=
  ⟨wireByteOf_frame .., h⟩

theorem setup (c d e : Word) : Statement (.setup c d e) := command_row (opc := 0x00) (by decide)
theorem rdSec : Statement (.rdSec) := command_row (opc := 0x10) (by decide)
theorem rdMin : Statement (.rdMin) := command_row (opc := 0x11) (by decide)
theorem rdHour : Statement (.rdHour) := command_row (opc := 0x12) (by decide)
theorem rdMday : Statement (.rdMday) := command_row (opc := 0x13) (by decide)
theorem rdMon : Statement (.rdMon) := command_row (opc := 0x14) (by decide)
theorem rdWday : Statement (.rdWday) := command_row (opc := 0x15) (by decide)
theorem rdYear : Statement (.rdYear) := command_row (opc := 0x16) (by decide)
theorem wrSec (v : Word) : Statement (.wrSec v) := command_row (opc := 0x20) (by decide)
theorem wrMin (v : Word) : Statement (.wrMin v) := command_row (opc := 0x21) (by decide)
theorem wrHour (v : Word) : Statement (.wrHour v) := command_row (opc := 0x22) (by decide)
theorem wrMday (v : Word) : Statement (.wrMday v) := command_row (opc := 0x23) (by decide)
theorem wrMon (v : Word) : Statement (.wrMon v) := command_row (opc := 0x24) (by decide)
theorem wrWday (v : Word) : Statement (.wrWday v) := command_row (opc := 0x25) (by decide)
theorem wrYear (v : Word) : Statement (.wrYear v) := command_row (opc := 0x26) (by decide)
theorem rdCh : Statement (.rdCh) := command_row (opc := 0x30) (by decide)
theorem wrCh (h : Word) : Statement (.wrCh h) := command_row (opc := 0x31) (by decide)
theorem rd24h : Statement (.rd24h) := command_row (opc := 0x32) (by decide)
theorem rdPm : Statement (.rdPm) := command_row (opc := 0x33) (by decide)
theorem rdWp : Statement (.rdWp) := command_row (opc := 0x34) (by decide)
theorem wrWp (p : Word) : Statement (.wrWp p) := command_row (opc := 0x35) (by decide)
theorem wrDate (y mo dd h mi s : Word) : Statement (.wrDate y mo dd h mi s) := command_row (opc := 0x40) (by decide)
theorem bcdEnc (d : Word) : Statement (.bcdEnc d) := command_row (opc := 0x50) (by decide)
theorem bcdDec (t : Word) (raw : Byte) : Statement (.bcdDec t raw) := command_row (opc := 0x51) (by decide)
theorem chkRng (lo hi v : Word) : Statement (.chkRng lo hi v) := command_row (opc := 0x52) (by decide)
theorem xRd (a : Byte) : Statement (.xRd a) := command_row (opc := 0x60) (by decide)
theorem xWr (a v : Byte) : Statement (.xWr a v) := command_row (opc := 0x61) (by decide)
theorem xWrchk (a v : Byte) : Statement (.xWrchk a v) := command_row (opc := 0x62) (by decide)
theorem wSec (v : Byte) : Statement (.wSec v) := frame_row (cmd := 0x80) (by decide)
theorem rSec : Statement (.rSec) := frame_row (cmd := 0x81) (by decide)
theorem wMin (v : Byte) : Statement (.wMin v) := frame_row (cmd := 0x82) (by decide)
theorem rMin : Statement (.rMin) := frame_row (cmd := 0x83) (by decide)
theorem wHour (v : Byte) : Statement (.wHour v) := frame_row (cmd := 0x84) (by decide)
theorem rHour : Statement (.rHour) := frame_row (cmd := 0x85) (by decide)
theorem wMday (v : Byte) : Statement (.wMday v) := frame_row (cmd := 0x86) (by decide)
theorem rMday : Statement (.rMday) := frame_row (cmd := 0x87) (by decide)
theorem wMon (v : Byte) : Statement (.wMon v) := frame_row (cmd := 0x88) (by decide)
theorem rMon : Statement (.rMon) := frame_row (cmd := 0x89) (by decide)
theorem wWday (v : Byte) : Statement (.wWday v) := frame_row (cmd := 0x8A) (by decide)
theorem rWday : Statement (.rWday) := frame_row (cmd := 0x8B) (by decide)
theorem wYear (v : Byte) : Statement (.wYear v) := frame_row (cmd := 0x8C) (by decide)
theorem rYear : Statement (.rYear) := frame_row (cmd := 0x8D) (by decide)
theorem wWp (v : Byte) : Statement (.wWp v) := frame_row (cmd := 0x8E) (by decide)
theorem rWp : Statement (.rWp) := frame_row (cmd := 0x8F) (by decide)

end Sys2Proof.Laws.Table
end

