-- ==== Sys2Proof/Laws/Size.lean ====
section
/-! SUPPORT. Laws/Size.lean: how many events a deed that ends well issues, how many of them are `Read`s, and the bus time
they stand for (70_reset_and_hazards.md R154). -/

namespace Sys2Proof.Machine

/-- Events, `Read` events, minimum time. -/
def sizeOf (es : List Event) : Nat × Nat × Nat := (es.length, es.countP Event.isRead, minimumTime es)

theorem sizeOf_append (es fs : List Event) : sizeOf (es ++ fs) = sizeOf es + sizeOf fs := by
  simp [sizeOf, minimumTime_append]

theorem sizeOf_regRead (h : Handle) (a v : Byte) : sizeOf (regReadEvents h a v) = (111, 8, 62) := by simp [sizeOf]

theorem sizeOf_regWrite (h : Handle) (a v : Byte) : sizeOf (regWriteEvents h a v) = (118, 0, 69) := by simp [sizeOf]

theorem sizeOf_writeAndCheck (h : Handle) (a v got : Byte) :
    sizeOf (writeAndCheckEvents h a v got) = (229, 8, 131) := by simp [sizeOf]

/-- Where the deed ends well its events have size `n`. -/
structure Deed.Sized {α : Type} (n : Nat × Nat × Nat) (d : Deed α) : Prop where
  size : ∀ s v, d.out s = .ok v → sizeOf (d.evs s) = n

namespace Deed.Sized

variable {α β : Type} {m n : Nat × Nat × Nat}

theorem andThen {d : Deed α} {k : α → Deed β} (hd : d.Sized m) (hk : ∀ v, (k v).Sized n) : (d.andThen k).Sized (m + n) := by
  refine ⟨fun s v hv => ?_⟩
  simp only [Deed.andThen] at hv ⊢
  cases h : d.out s with
  | ok u =>
    rw [h] at hv
    exact (sizeOf_append _ _).trans (by rw [hd.size s u h, (hk u).size _ v hv])
  | error e => rw [h] at hv; cases hv

theorem none {d : Deed α} (h : ∀ s, d.evs s = []) : d.Sized 0 := ⟨fun s _ _ => by rw [h]; rfl⟩

theorem value (f : State → α) : (Deed.value f).Sized 0 := none fun _ => rfl

theorem change (f : State → State) : (Deed.change f).Sized 0 := none fun _ => rfl

theorem checkRange (lo hi v : Word) : (Deed.checkRange lo hi v).Sized 0 := none fun _ => rfl

theorem decodeByte (t : Int) (raw : Byte) : (Deed.decodeByte t raw).Sized 0 := none fun _ => rfl

theorem regRead (a : Byte) : (Deed.regRead a).Sized (111, 8, 62) := ⟨fun _ _ _ => sizeOf_regRead ..⟩

theorem regWrite (a v : Byte) : (Deed.regWrite a v).Sized (118, 0, 69) := ⟨fun _ _ _ => sizeOf_regWrite ..⟩

theorem writeAndCheck (a v : Byte) : (Deed.writeAndCheck a v).Sized (229, 8, 131) := ⟨fun _ _ _ => sizeOf_writeAndCheck ..⟩

theorem toWord {d : Deed Byte} (h : d.Sized n) (f : Byte → Word) : (d.toWord f).Sized n := by
  have := h.andThen fun v => value fun _ => f v
  rwa [add_zero] at this

theorem given {k : Nat} {d : Word → Deed Word} (h : ∀ v, (d v).Sized n) : (Deed.given k d).Sized n :=
  ⟨fun s v hv => (h _).size s v hv⟩

theorem givenByte {k : Nat} {d : Byte → Deed Word} (h : ∀ v, (d v).Sized n) : (Deed.givenByte k d).Sized n :=
  ⟨fun s v hv => (h _).size s v hv⟩

theorem fieldRead (f : Field) : (Deed.fieldRead f).Sized (111, 8, 62) := ⟨fun s _ _ => by
  rw [Deed.fieldRead_evs]; exact sizeOf_regRead ..⟩

theorem packedWrite (lo hi : Word) (a : Byte) (g : Byte → Byte) (v : Word) :
    (Deed.packedWrite lo hi a g v).Sized (229, 8, 131) := by
  have := (checkRange lo hi v).andThen fun _ => (writeAndCheck a (g (packBcd v.toInt.toNat))).toWord zext8
  rwa [zero_add] at this

theorem modifySeconds (g : Byte → Byte) : (Deed.modifySeconds g).Sized (340, 16, 193) := ⟨fun s _ _ => by
  rw [Deed.modifySeconds_evs, sizeOf_append, sizeOf_regRead, sizeOf_writeAndCheck]; rfl⟩

theorem wrSec (v : Word) : (Deed.wrSec v).Sized (340, 16, 193) := by
  have := (checkRange 0 59 v).andThen fun _ => modifySeconds (keepHalt (packBcd v.toInt.toNat))
  rwa [zero_add] at this

theorem flagRead (a : Byte) (g : Byte → Byte) : (Deed.flagRead a g).Sized (111, 8, 62) := (regRead a).toWord _

theorem wireRead (c : Byte) : (Deed.wireRead c).Sized (111, 8, 62) := (regRead c).toWord _

theorem wireWrite (c v : Byte) : (Deed.wireWrite c v).Sized (118, 0, 69) := (regWrite c v).andThen fun _ => value _

theorem wrWp (p : Word) : (Deed.wrWp p).Sized (229, 8, 131) := (writeAndCheck 0x8E _).toWord _

theorem reread (f : Field) (g : Word → Six → Six) : (Deed.reread f g).Sized (111, 8, 62) :=
  (fieldRead f).andThen fun _ => change _

theorem dateWrites : Deed.dateWrites.Sized (1714, 64, 979) :=
  ((writeAndCheck 0x8E _).toWord _).andThen fun _ => (given fun _ => packedWrite ..).andThen fun _ =>
    (given fun _ => packedWrite ..).andThen fun _ => (given fun _ => packedWrite ..).andThen fun _ =>
    (given fun _ => packedWrite ..).andThen fun _ => (given fun _ => packedWrite ..).andThen fun _ =>
    (given wrSec).andThen fun _ => value _

theorem dateRereads : Deed.dateRereads.Sized (666, 48, 372) :=
  (reread ..).andThen fun _ => (reread ..).andThen fun _ => (reread ..).andThen fun _ => (reread ..).andThen fun _ =>
    (reread ..).andThen fun _ => reread ..

theorem wrDate : Deed.wrDate.Sized (2380, 112, 1351) := dateWrites.andThen fun _ => dateRereads.andThen fun _ => value _

theorem setup (c d e : Word) : (Deed.setup c d e).Sized (7, 0, 0) := by
  by_cases h : Within 2 27 c ∧ Within 2 27 d ∧ Within 2 27 e
  · rw [setup_ok h.1 h.2.1 h.2.2]
    exact ⟨fun _ _ _ => rfl⟩
  · rw [setup_bad h]
    exact ⟨fun s v hv => nomatch hv⟩

end Deed.Sized

end Sys2Proof.Machine
end

