-- ==== Sys2Proof/Tests/Slice0.lean ====
section
/-! SUPPORT. Tests/Slice0.lean: the model's own tests, and a witness for the hypotheses of every statement. Words and
expected answers are those of spec/95_test_vectors.md (named V-..., S... or by section) or are written out from the tables
of spec/30_encoding.md. -/

/- One theorem at a time: the kernel evaluations below would otherwise run side by side. -/
set_option Elab.async false

namespace Sys2Proof.Tests

open Sys2Proof.Machine

/-! ### Helpers -/

/-- A block after `SETUP 4, 5, 6` (the pins of spec/95_test_vectors.md). -/
def configured : State :=
  { State.reset with handle := ⟨4, 5, 6⟩, configured := true, image := restingPins .output }

/-- The same, with an environment that answers these bytes. -/
def hearing (bytes : List Byte) : State := { configured with answers := bytes.flatMap bitsOf }

/-- The host presents this next. -/
def given (s : State) (p : Presented) : State := { s with script := [.present p none] }

/-- The outcome is a next state with this property. -/
def nextWith (o : Host.Outcome State Fault Refusal) (p : State → Bool) : Bool :=
  match o with
  | .next t => p t
  | .fault _ => false
  | .refused _ => false

theorem nextWith_exists {o : Host.Outcome State Fault Refusal} {p : State → Bool} (h : nextWith o p = true) :
    ∃ t, o = .next t ∧ p t = true := by
  cases o with
  | next t => exact ⟨t, rfl, h⟩
  | fault f => cases h
  | refused r => cases h

/-- The outcome answers `kind` and `v`, with these diagnostics. -/
def answers (o : Host.Outcome State Fault Refusal) (kind : RspKind) (v : Int) (ds : List Diagnostic := []) : Bool :=
  nextWith o fun t => t.rspKind == kind && t.result.toInt == v && t.diag == ds

/-- The same, without an event. -/
def answersSilently (o : Host.Outcome State Fault Refusal) (kind : RspKind) (v : Int) : Bool :=
  answers o kind v && nextWith o fun t => t.trace == []

theorem ready_hearing (bytes : List Byte) : Ready (hearing bytes) := ⟨⟨rfl, rfl, rfl, rfl⟩, rfl⟩

theorem idle_reset : Idle State.reset := ⟨rfl, rfl, rfl, rfl⟩

/-! ### WellFormed: ill-formed terms are refused (30_encoding.md R61 tests 5 and 6) -/

theorem test_illFormed_wrCh : (Instr.wrCh 2).wellFormed = false ∧ (Instr.wrCh (-1)).wellFormed = false := by decide
theorem test_wellFormed_wrCh : (Instr.wrCh 0).wellFormed = true ∧ (Instr.wrCh 1).wellFormed = true := by decide
theorem test_illFormed_wrWp : (Instr.wrWp 2).wellFormed = false ∧ (Instr.wrWp (-1)).wellFormed = false := by decide
theorem test_wellFormed_wrWp : (Instr.wrWp 0).wellFormed = true ∧ (Instr.wrWp 1).wellFormed = true := by decide
theorem test_illFormed_bcdEnc : (Instr.bcdEnc 100).wellFormed = false ∧ (Instr.bcdEnc (-1)).wellFormed = false := by
  decide
theorem test_wellFormed_bcdEnc : (Instr.bcdEnc 0).wellFormed = true ∧ (Instr.bcdEnc 99).wellFormed = true := by decide

/-! ### Decoding: a word from the spec's tables for every constructor (R46 to R49, R53 to R55) -/

theorem test_decode_setup : decodeCommand 0x00000000000000000000000000000006000000050000000400 = .ok (.setup 4 5 6) := by decide
theorem test_decode_rdSec : decodeCommand 0x00000000000000000000000000000000000000000000000010 = .ok (.rdSec) := by decide
theorem test_decode_rdMin : decodeCommand 0x00000000000000000000000000000000000000000000000011 = .ok (.rdMin) := by decide
theorem test_decode_rdHour : decodeCommand 0x00000000000000000000000000000000000000000000000012 = .ok (.rdHour) := by decide
theorem test_decode_rdMday : decodeCommand 0x00000000000000000000000000000000000000000000000013 = .ok (.rdMday) := by decide
theorem test_decode_rdMon : decodeCommand 0x00000000000000000000000000000000000000000000000014 = .ok (.rdMon) := by decide
theorem test_decode_rdWday : decodeCommand 0x00000000000000000000000000000000000000000000000015 = .ok (.rdWday) := by decide
theorem test_decode_rdYear : decodeCommand 0x00000000000000000000000000000000000000000000000016 = .ok (.rdYear) := by decide
theorem test_decode_wrSec : decodeCommand 0x00000000000000000000000000000000000000000000001E20 = .ok (.wrSec 30) := by decide
theorem test_decode_wrMin : decodeCommand 0x0000000000000000000000000000000000000000FFFFFFFF21 = .ok (.wrMin (-1)) := by decide
theorem test_decode_wrHour : decodeCommand 0x00000000000000000000000000000000000000000000001722 = .ok (.wrHour 23) := by decide
theorem test_decode_wrMday : decodeCommand 0x00000000000000000000000000000000000000000000001F23 = .ok (.wrMday 31) := by decide
theorem test_decode_wrMon : decodeCommand 0x00000000000000000000000000000000000000000000000C24 = .ok (.wrMon 12) := by decide
theorem test_decode_wrWday : decodeCommand 0x00000000000000000000000000000000000000000000000725 = .ok (.wrWday 7) := by decide
theorem test_decode_wrYear : decodeCommand 0x00000000000000000000000000000000000000000000006326 = .ok (.wrYear 99) := by decide
theorem test_decode_rdCh : decodeCommand 0x00000000000000000000000000000000000000000000000030 = .ok (.rdCh) := by decide
theorem test_decode_rd24h : decodeCommand 0x00000000000000000000000000000000000000000000000032 = .ok (.rd24h) := by decide
theorem test_decode_rdPm : decodeCommand 0x00000000000000000000000000000000000000000000000033 = .ok (.rdPm) := by decide
theorem test_decode_rdWp : decodeCommand 0x00000000000000000000000000000000000000000000000034 = .ok (.rdWp) := by decide
theorem test_decode_wrCh : decodeCommand 0x00000000000000000000000000000000000000000000000131 = .ok (.wrCh 1) := by decide
theorem test_decode_wrWp : decodeCommand 0x0000000000000000000000000000000000000000FFFFFFFF35 = .ok (.wrWp (-1)) := by decide
theorem test_decode_wrDate : decodeCommand 0x00000005000000040000000300000002000000010000001440 = .ok (.wrDate 20 1 2 3 4 5) := by decide
theorem test_decode_bcdEnc : decodeCommand 0x00000000000000000000000000000000000000000000003B50 = .ok (.bcdEnc 59) := by decide
theorem test_decode_bcdDec : decodeCommand 0x00000000000000000000000000000000000000D90000000751 = .ok (.bcdDec 7 0xD9) := by decide
theorem test_decode_chkRng : decodeCommand 0x0000000000000000000000000000000D0000000C0000000152 = .ok (.chkRng 1 12 13) := by decide
theorem test_decode_xRd : decodeCommand 0x00000000000000000000000000000000000000000000008160 = .ok (.xRd 0x81) := by decide
/-- V-T9: the upper 24 bits of a byte operand's slot are ignored (R48). -/
theorem test_decode_xRd_upperBits : decodeCommand 0x00000000000000000000000000000000000000000000018160 = .ok (.xRd 0x81) := by decide
theorem test_decode_xWr : decodeCommand 0x00000000000000000000000000000000000000000000008E61 = .ok (.xWr 0x8E 0x00) := by decide
theorem test_decode_xWrchk : decodeCommand 0x00000000000000000000000000000000000000990000008C62 = .ok (.xWrchk 0x8C 0x99) := by decide
theorem test_decode_wSec : decodeFrame 0xA580 = .ok (.wSec 0xA5) := by decide
theorem test_decode_rSec : decodeFrame 0xA581 = .ok .rSec := by decide
theorem test_decode_wMin : decodeFrame 0xA582 = .ok (.wMin 0xA5) := by decide
theorem test_decode_rMin : decodeFrame 0xA583 = .ok .rMin := by decide
theorem test_decode_wHour : decodeFrame 0xA584 = .ok (.wHour 0xA5) := by decide
theorem test_decode_rHour : decodeFrame 0xA585 = .ok .rHour := by decide
theorem test_decode_wMday : decodeFrame 0xA586 = .ok (.wMday 0xA5) := by decide
theorem test_decode_rMday : decodeFrame 0xA587 = .ok .rMday := by decide
theorem test_decode_wMon : decodeFrame 0xA588 = .ok (.wMon 0xA5) := by decide
theorem test_decode_rMon : decodeFrame 0xA589 = .ok .rMon := by decide
theorem test_decode_wWday : decodeFrame 0xA58A = .ok (.wWday 0xA5) := by decide
theorem test_decode_rWday : decodeFrame 0xA58B = .ok .rWday := by decide
theorem test_decode_wYear : decodeFrame 0xA58C = .ok (.wYear 0xA5) := by decide
theorem test_decode_rYear : decodeFrame 0xA58D = .ok .rYear := by decide
theorem test_decode_wWp : decodeFrame 0xA58E = .ok (.wWp 0xA5) := by decide
theorem test_decode_rWp : decodeFrame 0xA58F = .ok .rWp := by decide

/-- Section 3.9: the opcodes next to the listed ones are reserved (R50). -/
theorem test_decode_reserved : ∀ o ∈ ([0x01, 0x17, 0x27, 0x36, 0x41, 0x53, 0x63, 0x80, 0xFF] : List Byte),
    decodeCommand (o.setWidth 200) = .error (.reservedOpcode o) := by decide
theorem test_decode_unknownWireByte : decodeFrame 0x007F = .error (.unknownWireByte 0x7F) ∧
    decodeFrame 0x0090 = .error (.unknownWireByte 0x90) := by decide

/-- Program P1: the word of `WR_DATE 20, 1, 2, 3, 4, 5`. -/
theorem test_encode_wrDate : encode (.wrDate 20 1 2 3 4 5) =
    .command 0x00000005000000040000000300000002000000010000001440 := by decide
/-- The word of `BCD_DEC 7, 0xD9`. -/
theorem test_encode_bcdDec : encode (.bcdDec 7 0xD9) =
    .command 0x00000000000000000000000000000000000000D90000000751 := by decide
theorem test_encode_wYear : encode (.wYear 0x20) = .frame 0x208C := by decide

theorem test_decodeTableWord_rdYear : decodeTableWord 8 0x16 = some .rdYear := by decide
theorem test_decodeTableWord_wYear : decodeTableWord 16 0x208C = some (.wYear 0x20) := by decide

/-! ### One step (sections 3.2 to 3.9); the diagnostics are checked with every answer -/

/-- Section 3.7. -/
theorem test_setup : answers (exec (.setup 4 5 6) State.reset) .ok 394500 = true := by decide +kernel
/-- Section 3.7: 260 is not narrowed to 4. -/
theorem test_setup_bad : answersSilently (exec (.setup 4 5 260) State.reset) .configError 0 = true := by decide +kernel
theorem test_rdSec : answers (exec .rdSec (hearing [0xD9])) .ok 59 = true := by decide +kernel
theorem test_rdSec_bad : answers (exec .rdSec (hearing [0x5A])) .rangeError 0 = true := by decide +kernel
theorem test_rdMin : answers (exec .rdMin (hearing [0x84])) .ok 4 = true := by decide +kernel
theorem test_rdMin_bad : answers (exec .rdMin (hearing [0x60])) .rangeError 0 = true := by decide +kernel
theorem test_rdHour : answers (exec .rdHour (hearing [0xA3])) .ok 23 = true := by decide +kernel
theorem test_rdHour_bad : answers (exec .rdHour (hearing [0x25])) .rangeError 0 = true := by decide +kernel
theorem test_rdMday : answers (exec .rdMday (hearing [0xC2])) .ok 2 = true := by decide +kernel
theorem test_rdMday_bad : answers (exec .rdMday (hearing [0x32])) .rangeError 0 = true := by decide +kernel
theorem test_rdMon : answers (exec .rdMon (hearing [0x0C])) .ok 12 = true := by decide +kernel
theorem test_rdMon_bad : answers (exec .rdMon (hearing [0x00])) .rangeError 0 = true := by decide +kernel
theorem test_rdWday : answers (exec .rdWday (hearing [0xFF])) .ok 7 = true := by decide +kernel
theorem test_rdWday_bad : answers (exec .rdWday (hearing [0x08])) .rangeError 0 = true := by decide +kernel
theorem test_rdYear : answers (exec .rdYear (hearing [0x99])) .ok 99 = true := by decide +kernel
theorem test_rdYear_bad : answers (exec .rdYear (hearing [0x9A])) .rangeError 0 = true := by decide +kernel
/-- Section 3.5: the halt bit of the byte just read is kept (S4). -/
theorem test_wrSec : answers (exec (.wrSec 30) (hearing [0xD9, 0xB0])) .ok 176 = true := by decide +kernel
theorem test_wrSec_bad : answersSilently (exec (.wrSec 60) (hearing [])) .rangeError 0 = true := by decide +kernel
theorem test_wrMin : answers (exec (.wrMin 0x2D) (hearing [0x45])) .ok 69 = true := by decide +kernel
/-- V-T5, through WR_MIN. -/
theorem test_wrMin_mismatch : answers (exec (.wrMin 0x2D) (hearing [0x15])) .ok 69 [⟨0x82, 0x45, 0x15⟩] = true := by decide +kernel
theorem test_wrHour : answers (exec (.wrHour 23) (hearing [0x23])) .ok 35 = true := by decide +kernel
theorem test_wrHour_bad : answersSilently (exec (.wrHour 25) (hearing [])) .rangeError 0 = true := by decide +kernel
theorem test_wrMday : answers (exec (.wrMday 31) (hearing [0x31])) .ok 49 = true := by decide +kernel
theorem test_wrMday_bad : answersSilently (exec (.wrMday 0) (hearing [])) .rangeError 0 = true := by decide +kernel
theorem test_wrMon : answers (exec (.wrMon 12) (hearing [0x12])) .ok 18 = true := by decide +kernel
theorem test_wrMon_bad : answersSilently (exec (.wrMon 13) (hearing [])) .rangeError 0 = true := by decide +kernel
theorem test_wrWday : answers (exec (.wrWday 7) (hearing [0x07])) .ok 7 = true := by decide +kernel
theorem test_wrWday_bad : answersSilently (exec (.wrWday 8) (hearing [])) .rangeError 0 = true := by decide +kernel
theorem test_wrYear : answers (exec (.wrYear 99) (hearing [0x99])) .ok 153 = true := by decide +kernel
theorem test_wrYear_bad : answersSilently (exec (.wrYear (-1)) (hearing [])) .rangeError 0 = true := by decide +kernel
theorem test_rdCh : answers (exec .rdCh (hearing [0xD9])) .ok 1 = true := by decide +kernel
theorem test_rdCh_clear : answers (exec .rdCh (hearing [0x7F])) .ok 0 = true := by decide +kernel
/-- Section 3.6: an out-of-domain byte is written back, no error (R109). -/
theorem test_wrCh : answers (exec (.wrCh 1) (hearing [0xFA, 0xFA])) .ok 250 = true := by decide +kernel
theorem test_wrCh_refused : answersSilently (exec (.wrCh 2) (hearing [])) .refused 0 = true := by decide +kernel
theorem test_rd24h : answers (exec .rd24h (hearing [0x92])) .ok 0 = true := by decide +kernel
theorem test_rd24h_set : answers (exec .rd24h (hearing [0x23])) .ok 1 = true := by decide +kernel
theorem test_rdPm : answers (exec .rdPm (hearing [0xB1])) .ok 1 = true := by decide +kernel
theorem test_rdPm_clear : answers (exec .rdPm (hearing [0x92])) .ok 0 = true := by decide +kernel
theorem test_rdWp : answers (exec .rdWp (hearing [0x80])) .ok 1 = true := by decide +kernel
theorem test_rdWp_clear : answers (exec .rdWp (hearing [0x7F])) .ok 0 = true := by decide +kernel
theorem test_wrWp : answers (exec (.wrWp 1) (hearing [0x80])) .ok 128 = true := by decide +kernel
theorem test_wrWp_refused : answersSilently (exec (.wrWp (-1)) (hearing [])) .refused 0 = true := by decide +kernel
/-- Section 3.8, the deaf slave: the signed sum, and seven mismatches. -/
theorem test_wrDate : answers (exec (.wrDate 20 1 2 3 4 5)
    (hearing [0x80, 0x21, 0x05, 0x14, 0x13, 0x22, 0x11, 0x11, 0x21, 0x05, 0x14, 0x13, 0x22, 0x11])) .ok (-51)
    [⟨0x8E, 0x00, 0x80⟩, ⟨0x8C, 0x20, 0x21⟩, ⟨0x88, 0x01, 0x05⟩, ⟨0x86, 0x02, 0x14⟩, ⟨0x84, 0x03, 0x13⟩,
      ⟨0x82, 0x04, 0x22⟩, ⟨0x80, 0x05, 0x11⟩] = true := by decide +kernel
/-- Section 3.8: the second check fails after two writes. -/
theorem test_wrDate_bad : answers (exec (.wrDate 20 13 2 3 4 5) (hearing [0x00, 0x20])) .rangeError 0 = true := by
  decide +kernel
/-- S2, before SETUP (section 3.7). -/
theorem test_bcdEnc : answersSilently (exec (.bcdEnc 45) State.reset) .ok 69 = true := by decide +kernel
theorem test_bcdEnc_refused : answersSilently (exec (.bcdEnc 100) State.reset) .refused 0 = true := by decide +kernel
theorem test_bcdDec : answersSilently (exec (.bcdDec 7 0xD9) State.reset) .ok 59 = true := by decide +kernel
theorem test_bcdDec_bad : answersSilently (exec (.bcdDec 9 0x00) State.reset) .configError 0 = true := by decide +kernel
theorem test_chkRng : answersSilently (exec (.chkRng 1 12 12) State.reset) .ok 12 = true := by decide +kernel
/-- V-C4: the comparison is signed. -/
theorem test_chkRng_bad : answersSilently (exec (.chkRng 0 59 (-1)) State.reset) .rangeError 0 = true := by decide +kernel
theorem test_xRd : answers (exec (.xRd 0x81) (hearing [0x59])) .ok 89 = true := by decide +kernel
theorem test_xWr : answers (exec (.xWr 0x8E 0x00) (hearing [])) .ok 0 = true := by decide +kernel
theorem test_xWrchk : answers (exec (.xWrchk 0x8C 0x99) (hearing [0x99])) .ok 153 = true := by decide +kernel
theorem test_wSec : answers (exec (.wSec 0xA5) (hearing [])) .ok 165 = true := by decide +kernel
theorem test_rSec : answers (exec .rSec (hearing [0x59])) .ok 89 = true := by decide +kernel
theorem test_wMin : answers (exec (.wMin 0xA5) (hearing [])) .ok 165 = true := by decide +kernel
theorem test_rMin : answers (exec .rMin (hearing [0x59])) .ok 89 = true := by decide +kernel
theorem test_wHour : answers (exec (.wHour 0xA5) (hearing [])) .ok 165 = true := by decide +kernel
theorem test_rHour : answers (exec .rHour (hearing [0x59])) .ok 89 = true := by decide +kernel
theorem test_wMday : answers (exec (.wMday 0xA5) (hearing [])) .ok 165 = true := by decide +kernel
theorem test_rMday : answers (exec .rMday (hearing [0x59])) .ok 89 = true := by decide +kernel
theorem test_wMon : answers (exec (.wMon 0xA5) (hearing [])) .ok 165 = true := by decide +kernel
theorem test_rMon : answers (exec .rMon (hearing [0x59])) .ok 89 = true := by decide +kernel
theorem test_wWday : answers (exec (.wWday 0xA5) (hearing [])) .ok 165 = true := by decide +kernel
theorem test_rWday : answers (exec .rWday (hearing [0x59])) .ok 89 = true := by decide +kernel
theorem test_wYear : answers (exec (.wYear 0xA5) (hearing [])) .ok 165 = true := by decide +kernel
theorem test_rYear : answers (exec .rYear (hearing [0x59])) .ok 89 = true := by decide +kernel
theorem test_wWp : answers (exec (.wWp 0xA5) (hearing [])) .ok 165 = true := by decide +kernel
theorem test_rWp : answers (exec .rWp (hearing [0x59])) .ok 89 = true := by decide +kernel

/-- Bits going out, written as in section 3.2. -/
def outgoing (bs : List Level) : List Event :=
  bs.flatMap fun b => [.write 5 b, .delay 1, .write 4 true, .delay 2, .write 5 false, .delay 1, .write 4 false]

/-- Bits coming in, written as in section 3.2. -/
def incoming (bs : List Level) : List Event :=
  bs.flatMap fun b => [.read 5 b, .delay 1, .write 4 true, .delay 1, .write 4 false, .delay 1]

/-- T1, as the spec writes it out. -/
def traceT1 : List Event :=
  List.append [.write 6 true, .delay 5, .setDir 5 .input, .delay 1]
    (List.append (outgoing [true, false, false, false, false, false, false, true])
      (List.append (incoming [true, false, false, true, true, false, true, false])
        [.write 4 false, .write 6 false, .write 5 false]))

/-- T2, as the spec writes it out. -/
def traceT2 : List Event :=
  List.append [.write 6 true, .delay 5, .setDir 5 .output]
    (List.append (outgoing [false, false, true, true, false, false, false, true])
      (List.append (outgoing [false, false, false, false, false, true, false, false])
        [.write 4 false, .write 6 false, .write 5 false]))

/-- T1: the trace of `regRead(0x81)` of a byte 0x59. -/
theorem test_trace_regRead : nextWith (exec (.xRd 0x81) (hearing [0x59])) (fun t => t.trace == traceT1) = true := by
  decide +kernel
/-- T2: the trace of `regWrite(0x8C, 0x20)`, which `regWrite(0x8D, 0x20)` gives too. -/
theorem test_trace_regWrite : nextWith (exec (.xWr 0x8D 0x20) (hearing [])) (fun t => t.trace == traceT2) = true := by
  decide +kernel

/-- Section 3.9: a range error under HALT, and STATUS after it. -/
theorem test_status_halt : nextWith (exec (.wrMin 60) (hearing [])) (fun t => t.status == 0b1010) = true := by
  decide +kernel
/-- Section 3.9: the same under REPORT. -/
theorem test_status_report : nextWith (exec (.wrMin 60) { hearing [] with policy := .report })
    (fun t => t.status == 0b0010) = true := by decide +kernel
/-- Section 3.9: an operation of a halted block is refused. -/
theorem test_halted : answersSilently (exec .rdMin { hearing [0x15] with faultKind := .range }) .refused 0 = true := by
  decide +kernel
/-- Section 3.7: `RD_SEC` before SETUP, and a second SETUP, are refused. -/
theorem test_notConfigured : answersSilently (exec .rdSec State.reset) .refused 0 = true := by decide +kernel
theorem test_alreadyConfigured : answersSilently (exec (.setup 7 8 9) (hearing [])) .refused 0 = true := by decide +kernel
/-- A word put where the step fetches it is the one the step runs. -/
theorem test_withFetchWord : answersSilently (step (State.reset.withFetchWord 200 0x2D50)) .ok 69 = true := by decide +kernel
/-- A reset in the middle of a read transaction leaves chip-enable high (70_reset_and_hazards.md R133). -/
theorem test_resetCut : nextWith (exec .rdSec { hearing [0x45] with cut := some ⟨40, .reset⟩ })
    (fun t => t.image.ceO && !t.configured && t.trace == []) = true := by decide +kernel
/-- A reset after the last event comes before the response, with the pins at rest (R133). -/
theorem test_resetAtTheEnd : nextWith (exec .rdSec { hearing [0x45] with cut := some ⟨111, .reset⟩ })
    (fun t => !t.configured && t.result == 0 && t.trace == [] && t.image == restingPins .input) = true := by decide +kernel
/-- So does one in an operation without an event, and one where the check of WR_MIN fails under HALT (R133). -/
theorem test_resetWithoutEvents :
    nextWith (exec (.bcdEnc 45) { configured with cut := some ⟨0, .reset⟩ })
      (fun t => !t.configured && t.result == 0) = true ∧
    nextWith (exec (.wrMin 60) { configured with cut := some ⟨0, .reset⟩ })
      (fun t => !t.configured && t.rspKind == .ok && t.faultKind == .none) = true := by decide +kernel
/-- In the middle of a read transaction: the phase, the bit and the byte (10_state.md R15). -/
theorem test_middle : (midState .rdSec 20 (hearing [0x45])).map (fun m => (m.engine.phase, m.engine.bitIdx, m.engine.sr,
    m.engine.dirn, m.seq, m.busy)) = some (.cmd, 2, 0x81, true, 20, true) := by decide +kernel

/-! ### Witnesses: for every statement with hypotheses, states and operands that meet them -/

/-- The `n`-th answer of `hearing` is what was listed. -/
theorem hearing_bytes : (hearing [0x59, 0xD9]).nextByte 0 = 0x59 ∧ (hearing [0x59, 0xD9]).nextByte 1 = 0xD9 := by
  decide +kernel

theorem exists_of_isSome {α : Type} {o : Option α} (h : o.isSome = true) : ∃ x, o = some x :=
  Option.isSome_iff_exists.mp h

theorem witness_DecodingReadsOnlyTheNamedBits :
    (∃ w w' : CommandWord, w ≠ w' ∧ opcodeOf w = opcodeOf w' ∧ (opcodeOf w).toNat = 0x10) ∧
    (∃ w w' : CommandWord, w ≠ w' ∧ opcodeOf w = opcodeOf w' ∧ (opcodeOf w).toNat = 0x20 ∧ slotOf w 0 = slotOf w' 0) ∧
    (∃ w w' : CommandWord, w ≠ w' ∧ opcodeOf w = opcodeOf w' ∧ (opcodeOf w).toNat = 0x52 ∧ slotOf w 0 = slotOf w' 0 ∧
      slotOf w 1 = slotOf w' 1 ∧ slotOf w 2 = slotOf w' 2) ∧
    (∃ w w' : CommandWord, w ≠ w' ∧ opcodeOf w = opcodeOf w' ∧ (opcodeOf w).toNat = 0x51 ∧ slotOf w 0 = slotOf w' 0 ∧
      slotByte w 1 = slotByte w' 1) ∧
    (∃ w w' : CommandWord, w ≠ w' ∧ opcodeOf w = opcodeOf w' ∧ (opcodeOf w).toNat = 0x60 ∧
      slotByte w 0 = slotByte w' 0) ∧
    (∃ w w' : CommandWord, w ≠ w' ∧ opcodeOf w = opcodeOf w' ∧ (opcodeOf w).toNat = 0x62 ∧ slotByte w 0 = slotByte w' 0 ∧
      slotByte w 1 = slotByte w' 1) :=
  ⟨⟨0x10, 0x0110, by decide⟩, ⟨0x0120, packCommand 0x20 1 7 0 0 0 0, by decide⟩,
    ⟨packCommand 0x52 1 2 3 0 0 0, packCommand 0x52 1 2 3 9 9 9, by decide⟩,
    ⟨packCommand 0x51 8 0x0D9 0 0 0 0, packCommand 0x51 8 0x1D9 0 0 0 0, by decide⟩,
    ⟨packCommand 0x60 0x081 0 0 0 0 0, packCommand 0x60 0x181 0 0 0 0 0, by decide⟩,
    ⟨packCommand 0x62 0x08C 0x099 0 0 0 0, packCommand 0x62 0x18C 0x199 0 0 0 0, by decide⟩⟩

theorem witness_ReservedOpcodesAreRefused :
    ∃ s : State, s.busy = false ∧ s.script = .present (.command 0x01) none :: [] ∧ (∀ k, (none : Option Cut) ≠ some ⟨k, .reset⟩) ∧
      (opcodeOf 0x01).toNat ∉ [0x00, 0x10, 0x11, 0x12, 0x13, 0x14, 0x15, 0x16, 0x20, 0x21, 0x22, 0x23, 0x24, 0x25, 0x26,
        0x30, 0x31, 0x32, 0x33, 0x34, 0x35, 0x40, 0x50, 0x51, 0x52, 0x60, 0x61, 0x62] :=
  ⟨given State.reset (.command 0x01), rfl, rfl, fun _ h => (nomatch h), by decide⟩

theorem witness_UnlistedFramesAreRefused :
    (∀ k, (some ⟨3, .hang⟩ : Option Cut) ≠ some ⟨k, .reset⟩) ∧
    (∃ s : State, s.busy = false ∧ s.script = .present (.frame 0x007F) (some ⟨3, .hang⟩) :: [] ∧
      (wireByteOf 0x007F).toNat < 0x80) ∧
    (∃ s : State, s.busy = false ∧ s.script = .present (.frame 0x0090) (some ⟨3, .hang⟩) :: [] ∧
      0x8F < (wireByteOf 0x0090).toNat) :=
  ⟨fun _ h => (nomatch h), ⟨{ State.reset with script := [.present (.frame 0x007F) (some ⟨3, .hang⟩)] }, rfl, rfl, by decide⟩,
    ⟨{ State.reset with script := [.present (.frame 0x0090) (some ⟨3, .hang⟩)] }, rfl, rfl, by decide⟩⟩

theorem witness_StepRunsTheDecodedInstruction :
    (∃ s : State, s.busy = false ∧ s.script = .present (.command 0x10) none :: [] ∧ decode (.command 0x10) = .ok .rdSec) ∧
    (∃ s : State, s.busy = false ∧ s.script = .present (.frame 0x81) none :: [] ∧ decode (.frame 0x81) = .ok .rSec) :=
  ⟨⟨given State.reset (.command 0x10), rfl, rfl, by decide⟩, ⟨given State.reset (.frame 0x81), rfl, rfl, by decide⟩⟩

theorem witness_StepWithoutWork :
    (∃ s : State, s.busy = false ∧ s.script = []) ∧
    (∃ s : State, s.busy = true ∧ s.script = .present (.command 0x10) none :: []) :=
  ⟨⟨State.reset, rfl, rfl⟩, ⟨{ given State.reset (.command 0x10) with busy := true }, rfl, rfl⟩⟩

theorem witness_ResetInputClearsTheBlock : ∃ s : State, s.script = .reset :: [] :=
  ⟨{ configured with script := [.reset] }, rfl⟩

/-- In the middle of a transaction; after its last event; in an operation without an event; where a check fails; and with a
word that is no instruction. -/
theorem witness_ResetCutsAnOperation :
    (∃ s m : State, s.busy = false ∧ s.cut = some ⟨40, .reset⟩ ∧ midState .rdSec 40 s = some m) ∧
    (∃ s : State, s.busy = false ∧ s.cut = some ⟨111, .reset⟩ ∧ midState .rdSec 111 s = none) ∧
    (∃ s : State, s.busy = false ∧ s.cut = some ⟨0, .reset⟩ ∧ midState (.bcdEnc 45) 0 s = none ∧
      midState (.wrMin 60) 0 s = none) ∧
    (∃ s : State, s.busy = false ∧ s.script = .present (.command 0x01) (some ⟨0, .reset⟩) :: [] ∧
      decode (.command 0x01) = .error (.reservedOpcode 0x01)) := by
  refine ⟨?_, ⟨{ hearing [0x45] with cut := some ⟨111, .reset⟩ }, rfl, rfl, by decide +kernel⟩,
    ⟨{ hearing [] with cut := some ⟨0, .reset⟩ }, rfl, rfl, by decide +kernel, by decide +kernel⟩,
    ⟨{ configured with script := [.present (.command 0x01) (some ⟨0, .reset⟩)] }, rfl, rfl, by decide⟩⟩
  have h : (midState .rdSec 40 { hearing [0x45] with cut := some ⟨40, .reset⟩ }).isSome = true := by decide +kernel
  obtain ⟨m, hm⟩ := exists_of_isSome h
  exact ⟨_, m, rfl, rfl, hm⟩

/-- For the statements whose hypothesis is that nothing is scheduled to disturb the operation: WriteBit, ReadBit, WriteByte,
ReadByte, the transaction steps and phases, RegRead, RegWrite and WriteAndCheck. -/
theorem witness_undisturbed : ∃ s : State, s.cut = none := ⟨configured, rfl⟩

theorem witness_WriteByteSendsLeastSignificantFirst :
    ∃ (h : Handle) (p : PinImage), h.clk ≠ h.dat ∧ p.clkO = false :=
  ⟨⟨4, 5, 6⟩, restingPins .output, by decide⟩

theorem witness_TransactionsClockSixteenBits :
    ∃ (h : Handle) (p : PinImage), h.clk ≠ h.dat ∧ h.clk ≠ h.ce ∧ h.dat ≠ h.ce ∧ p.clkO = false :=
  ⟨⟨4, 5, 6⟩, restingPins .output, by decide⟩

theorem witness_EncodePacksTwoDigits :
    (∃ d : Int, 0 ≤ d ∧ d ≤ 99 ∧ d = 0) ∧ (∃ d : Int, 0 ≤ d ∧ d ≤ 99 ∧ d = 99) ∧ (∃ d : Int, d < 0 ∧ d = -1) ∧
    (∃ d : Int, 99 < d ∧ d = 100) :=
  ⟨⟨0, by decide⟩, ⟨99, by decide⟩, ⟨-1, by decide⟩, ⟨100, by decide⟩⟩

theorem witness_DecodeFollowsTheTagTable :
    (∃ t : Int, 0 ≤ t ∧ t ≤ 4 ∧ t = 4) ∧ (∃ t : Int, 5 ≤ t ∧ t ≤ 8 ∧ t = 5) ∧ (∃ t : Int, t < 0) ∧ (∃ t : Int, 8 < t) ∧
    (∃ (t : Int) (raw raw' : Byte), raw ≠ raw' ∧ raw.toNat % 2 ^ t.toNat = raw'.toNat % 2 ^ t.toNat) ∧
    bcdDecode 8 0xFF = some 165 :=
  ⟨⟨4, by decide⟩, ⟨5, by decide⟩, ⟨-1, by decide⟩, ⟨9, by decide⟩, ⟨7, 0x59, 0xD9, by decide⟩, by decide⟩

theorem witness_DecodeOfEncodeHoldsBelowTheTagsBound :
    (∃ b, bcdEncode 19 = some b ∧ bcdDecode 5 b = some 19) ∧ (∃ b, bcdEncode 20 = some b ∧ bcdDecode 5 b ≠ some 20) ∧
    (∃ (v : Word) (b flags : Byte), Within Field.seconds.min.toInt Field.seconds.max.toInt v ∧
      bcdEncode v.toInt = some b ∧ flags.toNat % 2 ^ Field.seconds.widthTag.toNat = 0 ∧ flags ≠ 0) :=
  ⟨⟨0x19, by decide⟩, ⟨0x20, by decide⟩, ⟨59, 0x59, 0x80, ⟨by decide, by decide⟩, by decide⟩⟩

theorem witness_CheckRangeComparesSignedInclusive :
    (∃ lo hi v : Word, lo.toInt ≤ v.toInt ∧ v.toInt ≤ hi.toInt ∧ v = lo) ∧
    (∃ lo hi v : Word, lo.toInt ≤ v.toInt ∧ v.toInt ≤ hi.toInt ∧ v = hi) ∧
    (∃ lo hi v : Word, v.toInt < lo.toInt ∧ v = -1 ∧ lo = 0 ∧ hi = 59) ∧ (∃ lo hi v : Word, hi.toInt < v.toInt ∧ lo = 0) :=
  ⟨⟨0, 59, 0, by decide⟩, ⟨0, 59, 59, by decide⟩, ⟨0, 59, -1, by decide⟩, ⟨0, 59, 60, by decide⟩⟩

theorem witness_BcdEncAnswersThePackedByte :
    ∃ s : State, Idle s ∧ Within 0 99 0 ∧ Within 0 99 99 ∧ ¬ Within 0 99 100 ∧ ¬ Within 0 99 (-1) :=
  ⟨State.reset, idle_reset, ⟨by decide, by decide⟩, ⟨by decide, by decide⟩, fun h => absurd h.2 (by decide),
    fun h => absurd h.1 (by decide)⟩

theorem witness_BcdDecAnswersOrRaises :
    ∃ s : State, Idle s ∧ bcdDecode (0 : Word).toInt 0xFF = some 0 ∧ bcdDecode (8 : Word).toInt 0xFF = some 165 ∧
      (-1 : Word).toInt < 0 ∧ 8 < (9 : Word).toInt :=
  ⟨State.reset, idle_reset, by decide, by decide, by decide, by decide⟩

theorem witness_ChkRngAnswersOrRaises :
    ∃ s : State, Idle s ∧ (∃ lo hi v : Word, lo.toInt ≤ v.toInt ∧ v.toInt ≤ hi.toInt) ∧
      (∃ lo v : Word, v.toInt < lo.toInt) ∧ (∃ hi v : Word, hi.toInt < v.toInt) :=
  ⟨State.reset, idle_reset, ⟨1, 12, 12, by decide⟩, ⟨1, 0, by decide⟩, ⟨12, 13, by decide⟩⟩

/-- What a field read hears is the byte listed. -/
def hears (tag : Int) (raw : Byte) (n : Nat) : Prop := bcdDecode tag ((hearing [raw]).nextByte 0) = some n

/-- Both ends of every domain. -/
theorem witness_FieldReadsAnswerTheDecodedValue :
    (∀ raw, Ready (hearing [raw])) ∧ hears 7 0x80 0 ∧ hears 7 0xD9 59 ∧ hears 6 0x00 0 ∧ hears 6 0xA4 24 ∧
    hears 6 0x01 1 ∧ hears 6 0xF1 31 ∧ hears 5 0x01 1 ∧ hears 5 0x12 12 ∧ hears 3 0x01 1 ∧ hears 3 0xFF 7 ∧
    hears 8 0x00 0 ∧ hears 8 0x99 99 :=
  ⟨fun raw => ready_hearing [raw], by unfold hears; decide +kernel⟩

/-- The first value outside every domain, on both sides where there are two. -/
theorem witness_FieldReadsRejectABadByte :
    (∀ raw, Ready (hearing [raw])) ∧ hears 7 0x60 60 ∧ hears 6 0x25 25 ∧ hears 6 0x00 0 ∧ hears 6 0x32 32 ∧ hears 5 0x00 0 ∧
    hears 5 0x13 13 ∧ hears 3 0x08 0 ∧ hears 8 0xA0 100 :=
  ⟨fun raw => ready_hearing [raw], by unfold hears; decide +kernel⟩

theorem witness_SilentBusIsFatalForSomeReads :
    (∃ s, Ready s ∧ s.nextByte 0 = 0x00) ∧ (∃ s, Ready s ∧ s.nextByte 0 = 0xFF) ∧ (hearing [0xFF]).policy = .halt :=
  ⟨⟨hearing [0x00], ready_hearing _, by decide +kernel⟩, ⟨hearing [0xFF], ready_hearing _, by decide +kernel⟩, rfl⟩

/-- For FieldWritesSendThePackedByte, WrHourForcesTwentyFourHourMode and WrSecKeepsTheHaltBit: both ends of every domain. -/
theorem witness_FieldWritesSendThePackedByte :
    (∃ s, Ready s) ∧ Within 0 59 0 ∧ Within 0 59 59 ∧ Within 0 24 0 ∧ Within 0 24 24 ∧ Within 1 31 1 ∧ Within 1 31 31 ∧
    Within 1 12 1 ∧ Within 1 12 12 ∧ Within 1 7 1 ∧ Within 1 7 7 ∧ Within 0 99 0 ∧ Within 0 99 99 := by
  refine ⟨⟨hearing [], ready_hearing []⟩, ?_⟩
  simp only [Within]
  decide

/-- The first operand outside every domain, on both sides. -/
theorem witness_FieldWritesRejectABadOperand :
    (∃ s, Ready s) ∧ ¬ Within 0 59 (-1) ∧ ¬ Within 0 59 60 ∧ ¬ Within 0 24 25 ∧ ¬ Within 1 31 0 ∧ ¬ Within 1 31 32 ∧
    ¬ Within 1 12 0 ∧ ¬ Within 1 12 13 ∧ ¬ Within 1 7 0 ∧ ¬ Within 1 7 8 ∧ ¬ Within 0 99 (-1) ∧ ¬ Within 0 99 100 := by
  refine ⟨⟨hearing [], ready_hearing []⟩, ?_⟩
  simp only [Within]
  decide

/-- For the flag reads, the test-access operations and the wire commands, which ask no more of the state. -/
theorem witness_ready : ∃ s, Ready s := ⟨hearing [0x59], ready_hearing _⟩

/-- For WrChReplacesTheHaltBit and WrWpWritesTheFlagAlone: admitted flags and others. -/
theorem witness_flags : (∃ s, Ready s) ∧ ((0 : Word) = 0 ∨ (0 : Word) = 1) ∧ ((1 : Word) = 0 ∨ (1 : Word) = 1) ∧
    ((2 : Word) ≠ 0 ∧ (2 : Word) ≠ 1) ∧ ((-1 : Word) ≠ 0 ∧ (-1 : Word) ≠ 1) :=
  ⟨witness_ready, by decide⟩

theorem witness_SetupStoresTheHandle :
    ∃ s : State, Idle s ∧ s.configured = false ∧ Within 2 27 2 ∧ Within 2 27 27 ∧ Within 2 27 14 :=
  ⟨State.reset, idle_reset, rfl, ⟨by decide, by decide⟩, ⟨by decide, by decide⟩, ⟨by decide, by decide⟩⟩

theorem witness_SetupRejectsABadPin :
    (∃ s : State, Idle s ∧ s.configured = false ∧ ¬ (Within 2 27 1 ∧ Within 2 27 5 ∧ Within 2 27 6) ∧
      ¬ (Within 2 27 4 ∧ Within 2 27 5 ∧ Within 2 27 28) ∧ ¬ (Within 2 27 4 ∧ Within 2 27 260 ∧ Within 2 27 6)) ∧
    (∃ s : State, Idle s ∧ s.configured = true) := by
  refine ⟨⟨State.reset, idle_reset, rfl, ?_⟩, ⟨hearing [], (ready_hearing []).idle, rfl⟩⟩
  simp only [Within]
  decide

/-- The operands of `WR_DATE 20, 1, 2, 3, 4, 5`. -/
def aDate : Six := ⟨20, 1, 2, 3, 4, 5⟩

/-- A chip that stores what is written, its seconds register halted. -/
def dateHeard : State :=
  hearing [0x00, 0x20, 0x01, 0x02, 0x03, 0x04, 0x80, 0x85, 0x20, 0x01, 0x02, 0x03, 0x04, 0x85]

/-- The decimals re-read from it. -/
def dateRead : Nat → Nat
  | 0 => 20
  | 1 => 1
  | 2 => 2
  | 3 => 3
  | 4 => 4
  | _ => 5

theorem aDate_legal : ∀ k, k < 6 → DateOperandLegal aDate k := by
  intro k hk
  interval_cases k <;> simp only [DateOperandLegal, Within, aDate] <;> decide

theorem dateHeard_reread : ∀ k, k < 6 → DateReread dateHeard.nextByte k (dateRead k) := by
  intro k hk
  interval_cases k <;> simp only [DateReread, dateRead] <;> decide +kernel

theorem dateRead_legal : ∀ k, k < 6 → DateRereadLegal k (dateRead k) := by
  intro k hk
  interval_cases k <;> simp [DateRereadLegal, dateRead]

theorem witness_WrDateAnswersTheDifferenceSum :
    Ready dateHeard ∧ (∀ k, k < 6 → DateOperandLegal aDate k) ∧
      (∀ k, k < 6 → DateReread dateHeard.nextByte k (dateRead k) ∧ DateRereadLegal k (dateRead k)) :=
  ⟨ready_hearing _, aDate_legal, fun k hk => ⟨dateHeard_reread k hk, dateRead_legal k hk⟩⟩

/-- The first and the last check. -/
theorem witness_WrDateStopsAtTheFirstBadOperand :
    (Ready dateHeard ∧ ¬ DateOperandLegal ⟨100, 1, 2, 3, 4, 5⟩ 0) ∧
    (Ready dateHeard ∧ (∀ j, j < 5 → DateOperandLegal ⟨20, 1, 2, 3, 4, 60⟩ j) ∧
      ¬ DateOperandLegal ⟨20, 1, 2, 3, 4, 60⟩ 5) := by
  refine ⟨⟨ready_hearing _, ?_⟩, ready_hearing _, fun j hj => ?_, ?_⟩
  · simp only [DateOperandLegal, Within]; decide
  · interval_cases j <;> simp only [DateOperandLegal, Within] <;> decide
  · simp only [DateOperandLegal, Within]; decide

/-- The month re-read assembles raw 0x13 (section 3.8). -/
theorem witness_WrDateStopsAtTheFirstBadReread :
    ∃ s, Ready s ∧ (∀ j, j < 6 → DateOperandLegal aDate j) ∧
      (∀ j, j < 1 → DateReread s.nextByte j (dateRead j) ∧ DateRereadLegal j (dateRead j)) ∧
      DateReread s.nextByte 1 13 ∧ ¬ DateRereadLegal 1 13 := by
  refine ⟨hearing [0x00, 0x20, 0x01, 0x02, 0x03, 0x04, 0x80, 0x85, 0x20, 0x13], ready_hearing _, aDate_legal, fun j hj => ?_,
    ?_, by simp [DateRereadLegal]⟩
  · interval_cases j
    exact ⟨by simp only [DateReread, dateRead]; decide +kernel, by simp [DateRereadLegal, dateRead]⟩
  · simp only [DateReread]; decide +kernel

/-- Each of the four grounds of a refusal, and none of them. -/
theorem witness_AcceptanceTestsDecideRefusal :
    (∃ s : State, s.busy = false ∧ (∀ k, s.cut ≠ some ⟨k, .reset⟩) ∧ s.faultKind ≠ .none) ∧ (∃ s : State, s.busy = false ∧ s.configured = true) ∧
    (∃ s : State, s.busy = false ∧ s.configured = false ∧ needsHandle .rdSec = true) ∧
    (∃ s : State, s.busy = false ∧ (Instr.wrCh 2).wellFormed = false) ∧
    (∃ s : State, s.busy = false ∧ s.cut = none ∧
      ¬ (s.faultKind ≠ .none ∨ ((∃ c d e, Instr.rdSec = .setup c d e) ∧ s.configured = true) ∨
        (needsHandle .rdSec = true ∧ s.configured = false) ∨ Instr.rdSec.wellFormed = false)) :=
  ⟨⟨{ configured with faultKind := .range }, rfl, fun _ h => (nomatch h), by decide⟩, ⟨configured, rfl, rfl⟩, ⟨State.reset, rfl, rfl, rfl⟩,
    ⟨configured, rfl, rfl⟩, ⟨configured, rfl, rfl, by simp [configured, State.reset, needsHandle, Instr.wellFormed]⟩⟩

/-- Both kinds of fatal error, under both policies. -/
theorem witness_FatalErrorEntryIsPrecise :
    (∃ t, exec (.wrMin 60) (hearing []) = .next t ∧ t.rspKind = .rangeError) ∧
    (∃ t, exec (.bcdDec 9 0) (hearing []) = .next t ∧ t.rspKind = .configError) ∧
    (∃ t, exec (.wrMin 60) { hearing [] with policy := .report } = .next t ∧ t.rspKind = .rangeError) ∧
    (hearing []).busy = false ∧ (hearing []).engine.phase = .idle ∧ (hearing []).cut = none := by
  refine ⟨?_, ?_, ?_, rfl, rfl, rfl⟩
  · obtain ⟨t, h, k⟩ := nextWith_exists (o := exec (.wrMin 60) (hearing [])) (p := fun t => t.rspKind == .rangeError)
      (by decide +kernel)
    exact ⟨t, h, by simpa using k⟩
  · obtain ⟨t, h, k⟩ := nextWith_exists (o := exec (.bcdDec 9 0) (hearing [])) (p := fun t => t.rspKind == .configError)
      (by decide +kernel)
    exact ⟨t, h, by simpa using k⟩
  · obtain ⟨t, h, k⟩ := nextWith_exists (o := exec (.wrMin 60) { hearing [] with policy := .report })
      (p := fun t => t.rspKind == .rangeError) (by decide +kernel)
    exact ⟨t, h, by simpa using k⟩

theorem noReset_given (s : State) (p : Presented) : NoReset (given s p) where
  between := by simp [given]
  during := by simp [given]

theorem noHang_given (s : State) (p : Presented) : NoHang (given s p) := by
  simp [NoHang, given]

/-- A step that answers. -/
theorem steps {s : State} (h : nextWith (step s) (fun _ => true) = true) : ∃ t, step s = .next t := by
  obtain ⟨t, ht, -⟩ := nextWith_exists h
  exact ⟨t, ht⟩

theorem witness_FaultKindIsSticky :
    ∃ s t : State, s.faultKind ≠ .none ∧ NoReset s ∧ step s = .next t ∧ s.script ≠ [] := by
  obtain ⟨t, ht⟩ := steps (s := given { configured with faultKind := .range } (.command 0x10)) (by decide +kernel)
  exact ⟨_, t, by decide, noReset_given .., ht, by simp [given]⟩

/-- A block with a handle, one that gets one, and one that gets none. -/
theorem witness_HandleIsImmutableOnceStored :
    (∃ s t : State, NoReset s ∧ step s = .next t ∧ s.configured = true) ∧
    (∃ s t : State, NoReset s ∧ step s = .next t ∧ s.configured = false ∧ t.configured = true) ∧
    (∃ s t : State, NoReset s ∧ step s = .next t ∧ t.configured = false) := by
  refine ⟨?_, ?_, ?_⟩
  · obtain ⟨t, ht⟩ := steps (s := given (hearing [0x45]) (.command 0x10)) (by decide +kernel)
    exact ⟨_, t, noReset_given .., ht, rfl⟩
  · obtain ⟨t, ht, k⟩ := nextWith_exists (o := step (given State.reset (encode (.setup 4 5 6)))) (p := State.configured)
      (by decide +kernel)
    exact ⟨_, t, noReset_given .., ht, rfl, k⟩
  · obtain ⟨t, ht, k⟩ := nextWith_exists (o := step (given State.reset (encode (.setup 4 5 28))))
      (p := fun t => !t.configured) (by decide +kernel)
    exact ⟨_, t, noReset_given .., ht, by simpa using k⟩

/-- For NoEventBeforeSetup: SETUP, which issues events, and an operation that issues none. -/
theorem witness_NoEventBeforeSetup :
    (∃ s t : State, s.configured = false ∧ NoReset s ∧ step s = .next t ∧ t.trace ≠ s.trace) ∧
    (∃ s t : State, s.configured = false ∧ NoReset s ∧ step s = .next t ∧ t.rspKind = .ok ∧ t.trace = s.trace) := by
  refine ⟨?_, ?_⟩
  · obtain ⟨t, ht, k⟩ := nextWith_exists (o := step (given State.reset (encode (.setup 4 5 6))))
      (p := fun t => t.trace != []) (by decide +kernel)
    exact ⟨_, t, rfl, noReset_given .., ht, by simpa [given, State.reset] using k⟩
  · obtain ⟨t, ht, k⟩ := nextWith_exists (o := step (given State.reset (encode (.bcdEnc 45))))
      (p := fun t => t.rspKind == .ok && t.trace == []) (by decide +kernel)
    simp at k
    exact ⟨_, t, rfl, noReset_given .., ht, k.1, k.2⟩

/-- With a reset in the middle of the operation, and without one. -/
theorem witness_GhostsOnlyGrow :
    (∃ s t : State, step s = .next t ∧ NoReset s) ∧ (∃ s t : State, step s = .next t ∧ ¬ NoReset s) := by
  refine ⟨?_, ?_⟩
  · obtain ⟨t, ht⟩ := steps (s := given (hearing [0x45]) (.command 0x10)) (by decide +kernel)
    exact ⟨_, t, ht, noReset_given ..⟩
  · obtain ⟨t, ht⟩ := steps (s := { configured with script := [.reset] }) (by decide +kernel)
    exact ⟨_, t, ht, fun h => h.between rfl⟩

theorem witness_EveryStepAnswersUnlessAPrimitiveHangs : ∃ s : State, s.busy = false ∧ NoHang s ∧ s.script ≠ [] :=
  ⟨given (hearing []) (.command 0x10), rfl, noHang_given _ _, by simp [given]⟩

/-- The invariant is met by a configured block that has work, and its step goes on. -/
theorem witness_EveryStepKeepsTheInvariant : ∃ s t : State, Inv s ∧ s.configured = true ∧ step s = .next t := by
  obtain ⟨t, ht⟩ := steps (s := given (hearing [0x45]) (.command 0x10)) (by decide +kernel)
  refine ⟨_, t, ⟨⟨rfl, rfl, rfl, rfl⟩, fun _ => ?_, fun _ => ⟨.output, rfl⟩, fun h => absurd rfl h, fun h => ?_⟩, rfl, ht⟩
  · show Handle.Legal ⟨4, 5, 6⟩
    unfold Handle.Legal
    decide
  · exact absurd h (by decide)

theorem witness_SmallStepsAgreeWithTheBigStep :
    ∃ s t : State, s.busy = false ∧ s.cut = none ∧ exec .rdSec s = .next t ∧ s.trace.length + 110 < t.trace.length ∧
      ∃ m, midState .rdSec 110 s = some m := by
  obtain ⟨t, ht, k⟩ := nextWith_exists (o := exec .rdSec (hearing [0x45])) (p := fun t => decide (110 < t.trace.length))
    (by decide +kernel)
  have h : (midState .rdSec 110 (hearing [0x45])).isSome = true := by decide +kernel
  exact ⟨_, t, rfl, rfl, ht, by simpa [hearing, configured, State.reset] using k, exists_of_isSome h⟩

theorem witness_LatchesHoldTheSlotsWhileRunning :
    ∃ s m : State, decodeCommand s.cmd = .ok (.xRd 0x81) ∧ midState (.xRd 0x81) 5 s = some m := by
  have h : (midState (.xRd 0x81) 5 { hearing [0x45] with cmd := 0x18160 }).isSome = true := by decide +kernel
  obtain ⟨m, hm⟩ := exists_of_isSome h
  exact ⟨_, m, by decide, hm⟩

theorem witness_OperationsHaveTheirStatedSize :
    ∃ s t : State, s.busy = false ∧ s.cut = none ∧ exec .rdSec s = .next t ∧ t.rspKind = .ok := by
  obtain ⟨t, ht, k⟩ := nextWith_exists (o := exec .rdSec (hearing [0x45])) (p := fun t => t.rspKind == .ok)
    (by decide +kernel)
  exact ⟨_, t, rfl, rfl, ht, by simpa using k⟩

/-- Two blocks that differ in the pins, the temporaries, the latches, the response, the ghosts and the command port. -/
theorem witness_OutcomeDependsOnOperandsAndReadsOnly :
    ∃ s s' : State, s ≠ s' ∧ s.busy = false ∧ s'.busy = false ∧ s.cut = none ∧ s'.cut = none ∧ s'.handle = s.handle ∧
      s'.configured = s.configured ∧ s'.faultKind = s.faultKind ∧ s'.policy = s.policy ∧ s'.answers = s.answers ∧
      s'.reads = s.reads :=
  ⟨hearing [0x45],
    { hearing [0x45] with
      image := ⟨true, true, true, .input⟩, temps := ⟨1, 2, ⟨1, 2, 3, 4, 5, 6⟩⟩, a := ⟨1, 2, 3, 4, 5, 6⟩, result := 7,
      trace := [.init], diag := [⟨1, 2, 3⟩], cmd := 0x18160 },
    fun h => absurd (congrArg State.result h) (by decide), rfl, rfl, rfl, rfl, rfl, rfl, rfl, rfl, rfl, rfl⟩

end Sys2Proof.Tests
end

section
/-! The step on an instruction presented (00_scope.md R8, 30_encoding.md R46). -/

namespace Sys2Proof.Machine

/-- The one case of `step` that runs an instruction: the block is not busy and what is presented decodes. -/
theorem step_of_decode_ok {s : State} {p : Presented} {c : Option Cut} {rest : List HostInput} {i : Instr}
    (hb : s.busy = false) (hs : s.script = .present p c :: rest) (hd : decode p = .ok i) :
    step s = exec i (s.sample p c rest) := by
  simp [step, hs, hb, hd]

/-- Settles O6: the step is `exec` at the sampled state, which differs between a command word and a wire frame in CMD
alone (log entry 8 for the frame). -/
theorem stepRunsTheDecodedInstruction : Obligations.StepRunsTheDecodedInstruction := by
  refine ⟨fun s w c rest i hb hs hd => ?command, fun s w c rest i hb hs hd => ?frame⟩
  case command => rw [step_of_decode_ok hb hs hd, State.sample_command]
  case frame => rw [step_of_decode_ok hb hs hd, State.sample_frame]

end Sys2Proof.Machine
end

section
/-! What a step that gives a next state leaves behind, and what the body of an instruction does to the registers of the
block (10_state.md R9 to R18). -/

namespace Sys2Proof.Machine

/-- Everything that lies behind a step that gave a next state: nothing was presented, the reset input was asserted, what
was presented was refused, or an instruction ran to its response. -/
theorem step_next_cases {s t : State} (hst : step s = .next t) :
    (s.script = [] ∧ t = s) ∨
    (∃ (m : State) (rest : List HostInput), m.policy = s.policy ∧ t = { m.applyReset with script := rest }) ∨
    (∃ p c rest, s.busy = false ∧ t = (s.sample p c rest).refuse) ∨
    (∃ p c rest i, (s.sample p c rest).acceptance (operationOf i).head = none ∧
      t = (deedOf i).outcome (started i (s.sample p c rest))) := by
  rcases step_cases s with ⟨h0, h⟩ | ⟨r, -, h⟩ | ⟨p, c, r, -, ⟨-, h⟩ | ⟨hb, i, -, h⟩ | ⟨hb, e, -, h⟩⟩
  · rw [hst] at h
    split at h <;> cases h
    exact .inl ⟨h0, rfl⟩
  · rw [hst] at h
    cases h
    exact .inr (.inl ⟨s, r, rfl, rfl⟩)
  · rw [hst] at h
    cases h
  · have keeps := sample_keeps s p c r
    obtain ⟨-, ⟨-, ht⟩ | ⟨ha, ht⟩ | ⟨-, m, hm, ht⟩⟩ := exec_next_cases (h.symm.trans hst)
    · exact .inr (.inr (.inl ⟨p, c, r, hb, ht⟩))
    · exact .inr (.inr (.inr ⟨p, c, r, i, ha, ht⟩))
    · exact .inr (.inl ⟨m, m.script, hm.policy.trans keeps.policy, ht⟩)
  · have keeps := sample_keeps s p c r
    rw [hst] at h
    cases h
    rcases rejectUndecoded_cases (s.sample p c r) with ⟨-, ht⟩ | ⟨-, ht⟩
    · exact .inr (.inr (.inl ⟨p, c, r, hb, ht⟩))
    · exact .inr (.inl ⟨s.sample p c r, (s.sample p c r).script, keeps.policy, ht⟩)

/-- CONFIGURED is set by a SETUP that goes well and by nothing else (R10). -/
theorem body_configured (i : Instr) (s : State) : ((deedOf i).nxt (started i s)).configured =
    (s.configured || ((operationOf i).head.isSetup && ((deedOf i).out (started i s)).isOk)) := by
  rcases body_cases i s with ⟨c, d, e, rfl, ⟨v, h, -, ho, -, hc, -⟩ | ⟨ho, hn, -⟩⟩ | ⟨hi, ti⟩
  · rw [hc, ho]
    simp [(isSetup_head (.setup c d e)).mpr ⟨c, d, e, rfl⟩, Except.isOk, Except.toBool]
  · rw [hn, ho]
    simp [started, Except.isOk, Except.toBool]
  · have hs : (operationOf i).head.isSetup = false := by
      rw [← Bool.not_eq_true, isSetup_head]
      exact fun ⟨c, d, e, h⟩ => hi c d e h
    rw [ti.configured, hs]
    simp [started]

/-- Where the body leaves CONFIGURED as it was, it leaves the handle too (R9). -/
theorem body_handle_of_configured_eq {i : Instr} {s : State} (ha : s.acceptance (operationOf i).head = none)
    (h : ((deedOf i).nxt (started i s)).configured = s.configured) :
    ((deedOf i).nxt (started i s)).handle = s.handle := by
  rcases body_cases i s with ⟨c, d, e, rfl, ⟨-, -, -, -, -, hc, -⟩ | ⟨-, hn, -⟩⟩ | ⟨-, ti⟩
  · obtain ⟨-, hs, -, -⟩ := (acceptance_none_iff _ _).mp ha
    rw [hc, hs rfl] at h
    cases h
  · rw [hn]; rfl
  · exact ti.handle _

/-- DIAG only grows (R18). -/
theorem body_diag_prefix (i : Instr) (s : State) : s.diag <+: ((deedOf i).nxt (started i s)).diag := by
  rcases body_cases i s with ⟨c, d, e, -, ⟨v, h, -, -, -, -, -, -, hd, -⟩ | ⟨-, hn, -⟩⟩ | ⟨-, ti⟩
  · rw [hd]
  · rw [hn]; exact List.prefix_rfl
  · exact ti.diag (started i s)

/-- The instructions other than SETUP that need no handle touch no pin (30_encoding.md R61 test 4). -/
theorem body_silent {i : Instr} (hn : needsHandle i = false) (hi : ∀ c d e, i ≠ .setup c d e) (s : State) :
    (deedOf i).evs s = [] := by
  cases i with
  | setup c d e => exact absurd rfl (hi c d e)
  | bcdEnc d => rfl
  | bcdDec t raw => rfl
  | chkRng lo hi v => rfl
  | _ => cases hn

end Sys2Proof.Machine
end

section
/-! The invariant of the block between operations (10_state.md R9, R11, R13, R14, R15, R17), at reset and over a step. -/

namespace Sys2Proof.Machine

/-- What the invariant says of the bus: PHASE is IDLE and, with a handle, its pins are legal and low (R9, R15, R17). -/
structure BusAtRest (s : State) : Prop where
  phase : s.engine.phase = .idle
  legal : s.configured = true → s.handle.Legal
  pins : s.configured = true → ∃ m, s.image = restingPins m

theorem Inv.busAtRest_sample {s : State} (h : Inv s) (p : Presented) (c : Option Cut) (rest : List HostInput) :
    BusAtRest (s.sample p c rest) := by
  obtain ⟨hh, hc, -, -, -, -, him, he, -, -, -, -⟩ := sample_keeps s p c rest
  exact ⟨by rw [he]; exact h.rest.phase, by rw [hc, hh]; exact h.legal, by rw [hc, him]; exact h.pins⟩

/-- Every body brings the bus back to rest (R15, R17): SETUP by its own Stop events, a transaction by its Stop step. -/
theorem BusAtRest.body {s : State} (h : BusAtRest s) (i : Instr) : BusAtRest ((deedOf i).nxt (started i s)) := by
  rcases body_cases i s with ⟨c, d, e, -, ⟨v, hd, hl, -, hh, -, him, he, -⟩ | ⟨-, hn, -⟩⟩ | ⟨-, ti⟩
  · exact ⟨by rw [he]; exact h.phase, fun _ => by rw [hh]; exact hl, fun _ => ⟨_, him⟩⟩
  · rw [hn]; exact ⟨h.phase, h.legal, h.pins⟩
  · refine ⟨ti.idle _ h.phase, ?_, ?_⟩
    · rw [ti.configured, ti.handle]; exact h.legal
    · rw [ti.configured]
      intro hc
      rcases ti.pins (started i s) with e | e
      · rw [e]; exact h.pins hc
      · exact e

/-- An unconfigured block at rest whose last answer is OK and which has no fault meets the invariant. -/
theorem Inv.of_unconfigured {t : State} (rest : AtRest t) (hc : t.configured = false) (hr : t.rspKind = .ok)
    (hf : t.faultKind = .none) : Inv t where
  rest := rest
  legal h := by rw [hc] at h; cases h
  pins h := by rw [hc] at h; cases h
  response h := absurd hr h
  reported _ := hf

/-- A refusal keeps the invariant: it changes the response alone (60_exceptions.md R123). -/
theorem Inv.refuse_sample {s : State} (h : Inv s) (p : Presented) (c : Option Cut) (rest : List HostInput) :
    Inv (s.sample p c rest).refuse := by
  obtain ⟨-, -, hf, -, -, hp, -, -, hb, hq, -, -⟩ := sample_keeps s p c rest
  obtain ⟨phase, legal, pins⟩ := h.busAtRest_sample p c rest
  exact ⟨⟨hb.trans h.rest.busy, hq.trans h.rest.seq, phase, rfl⟩, legal, pins, fun _ => rfl,
    fun hr => hf.trans (h.reported (hp.symm.trans hr))⟩

/-- An operation that ran to its response leaves RESULT 0 unless it answers OK (R13). -/
theorem outcome_result {d : Deed Word} {b : State} (h : (d.outcome b).rspKind ≠ .ok) : (d.outcome b).result = 0 := by
  cases ho : d.out b with
  | ok v =>
    obtain ⟨hk, -⟩ := outcome_ok ho
    exact absurd hk h
  | error e =>
    obtain ⟨-, hr, -⟩ := outcome_error ho
    exact hr

/-- Under REPORT an operation leaves FAULT_KIND alone (R11, R126). -/
theorem outcome_faultKind_of_report {d : Deed Word} {b : State} (h : (d.nxt b).policy = .report) :
    (d.outcome b).faultKind = (d.nxt b).faultKind := by
  cases ho : d.out b with
  | ok v =>
    obtain ⟨-, -, hf⟩ := outcome_ok ho
    exact hf
  | error e =>
    obtain ⟨-, -, hf⟩ := outcome_error ho
    rw [hf, h]

/-- An instruction that runs to its response keeps the invariant. -/
theorem Inv.outcome_sample {s : State} (h : Inv s) (p : Presented) (c : Option Cut) (rest : List HostInput) (i : Instr) :
    Inv ((deedOf i).outcome (started i (s.sample p c rest))) := by
  obtain ⟨-, -, hf, -, -, hp, -⟩ := sample_keeps s p c rest
  have st := deedOf_steady i (started i (s.sample p c rest))
  have en := outcome_ends (deedOf i) (started i (s.sample p c rest))
  obtain ⟨phase, legal, pins⟩ := (h.busAtRest_sample p c rest).body i
  refine ⟨⟨en.busy, en.seq, by rw [en.engine]; exact phase, en.cut⟩, ?_, ?_, outcome_result, ?_⟩
  · rw [en.configured, en.handle]; exact legal
  · rw [en.configured, en.image]; exact pins
  · intro hr
    have hr' : ((deedOf i).nxt (started i (s.sample p c rest))).policy = .report := en.policy.symm.trans hr
    rw [outcome_faultKind_of_report hr', st.faultKind]
    exact hf.trans (h.reported (hp.symm.trans (st.policy.symm.trans hr')))

/-- Settles O55, over what a step that gives a next state can be: reset clears the block, a refusal changes the response
alone, and every body brings the bus back to rest. -/
theorem everyStepKeepsTheInvariant : Obligations.EveryStepKeepsTheInvariant := by
  intro s t h hst
  rcases step_next_cases hst with ⟨-, rfl⟩ | ⟨m, r, -, rfl⟩ | ⟨p, c, r, -, rfl⟩ | ⟨p, c, r, i, -, rfl⟩
  · exact h
  · exact .of_unconfigured ⟨rfl, rfl, rfl, rfl⟩ rfl rfl rfl
  · exact h.refuse_sample p c r
  · exact h.outcome_sample p c r i

/-- Settles O54: the state after reset is at rest, not configured and without a fault. -/
theorem invariantHoldsAtReset : Obligations.InvariantHoldsAtReset :=
  .of_unconfigured ⟨rfl, rfl, rfl, rfl⟩ rfl rfl rfl

/-- Settles O8: each register of the table of R23, read off the state after reset. -/
theorem resetLeavesTheStatedValues : Obligations.ResetLeavesTheStatedValues :=
  ⟨rfl, rfl, rfl, rfl, rfl, rfl, rfl, rfl, rfl, rfl⟩

end Sys2Proof.Machine
end

section
/-! What no step changes without a reset: a latched fault, a stored handle, the ghosts (10_state.md R9 to R11, R18). -/

namespace Sys2Proof.Machine

/-- Settles O49: with FAULT_KIND set acceptance fails, so a step without a reset is idle or a refusal. -/
theorem faultKindIsSticky : Obligations.FaultKindIsSticky := by
  intro s t hf hr hst
  rcases step_noReset hr hst with ⟨h0, rfl⟩ | ⟨p, c, r, rfl⟩ | ⟨p, c, r, i, -, -, ha, -⟩
  · exact ⟨rfl, rfl, rfl, rfl, rfl, rfl, fun h => absurd h0 h⟩
  · have k := sample_keeps s p c r
    exact ⟨k.faultKind, k.trace, k.diag, k.image, k.handle, k.configured, fun _ => ⟨rfl, rfl⟩⟩
  · obtain ⟨hnone, -⟩ := (acceptance_none_iff _ _).mp ha
    exact absurd ((sample_keeps s p c r).faultKind.symm.trans hnone) hf

/-- An accepted instruction that sets CONFIGURED is a SETUP that answers OK and stores its operands, legal pins (R9, R114). -/
theorem setup_of_configures {i : Instr} {s : State} (hs : s.configured = false)
    (h : ((deedOf i).nxt (started i s)).configured = true) :
    ((deedOf i).outcome (started i s)).rspKind = .ok ∧ ((deedOf i).nxt (started i s)).handle.Legal ∧
      ∃ c d e, i = .setup c d e ∧ (((deedOf i).nxt (started i s)).handle.clk.toNat : Int) = c.toInt ∧
        (((deedOf i).nxt (started i s)).handle.dat.toNat : Int) = d.toInt ∧
        (((deedOf i).nxt (started i s)).handle.ce.toNat : Int) = e.toInt := by
  rw [body_configured, hs, Bool.false_or, Bool.and_eq_true, isSetup_head] at h
  obtain ⟨⟨c, d, e, rfl⟩, hok⟩ := h
  cases ho : (deedOf (.setup c d e)).out (started (.setup c d e) s) with
  | error x => rw [ho] at hok; cases hok
  | ok v =>
    obtain ⟨hc, hd, he, hh⟩ := setup_stores ho
    rw [hh]
    exact ⟨(outcome_ok ho).1, legal_of_within hc hd he, c, d, e, rfl, pinOf_toNat hc, pinOf_toNat hd, pinOf_toNat he⟩

/-- Settles O50: a step without a reset changes handle and CONFIGURED only by an accepted instruction, and there the two
change together, by a SETUP that goes well. -/
theorem handleIsImmutableOnceStored : Obligations.HandleIsImmutableOnceStored := by
  intro s t hr hst
  rcases step_noReset hr hst with ⟨-, rfl⟩ | ⟨p, c, r, rfl⟩ | ⟨p, c, r, i, h0, hd, ha, rfl⟩
  · exact ⟨fun h => ⟨h, rfl⟩, fun h h' => absurd (h.symm.trans h') (by decide), fun _ => rfl⟩
  · have k := sample_keeps s p c r
    exact ⟨fun h => ⟨k.configured.trans h, k.handle⟩,
      fun h h' => absurd (h.symm.trans (k.configured.trans h')) (by decide), fun _ => k.handle⟩
  · have k := sample_keeps s p c r
    have en := outcome_ends (deedOf i) (started i (s.sample p c r))
    have keeps : ((deedOf i).nxt (started i (s.sample p c r))).configured = s.configured →
        ((deedOf i).nxt (started i (s.sample p c r))).handle = s.handle := fun h =>
      (body_handle_of_configured_eq ha (h.trans k.configured.symm)).trans k.handle
    rw [en.configured, en.handle]
    refine ⟨fun h => ?stays, fun ht hs => ?stored, fun ht => ?clear⟩
    case stays =>
      have hn : ((deedOf i).nxt (started i (s.sample p c r))).configured = true := by
        rw [body_configured, k.configured, h, Bool.true_or]
      exact ⟨hn, keeps (hn.trans h.symm)⟩
    case stored =>
      obtain ⟨hok, hl, x, y, z, rfl, hx, hy, hz⟩ := setup_of_configures (k.configured.trans hs) ht
      exact ⟨hok, hl, p, c, r, x, y, z, h0, hd, hx, hy, hz⟩
    case clear =>
      have hs := ht
      rw [body_configured, Bool.or_eq_false_iff] at hs
      obtain ⟨hs, -⟩ := hs
      exact keeps (ht.trans (hs.symm.trans k.configured))

/-- The body of an instruction accepted without a handle issues nothing, or is SETUP with legal pins (R10, R114). -/
theorem body_unconfigured {i : Instr} {s : State} (ha : s.acceptance (operationOf i).head = none)
    (hs : s.configured = false) :
    ((deedOf i).evs (started i s) = []) ∨
    (((deedOf i).nxt (started i s)).configured = true ∧
      (deedOf i).evs (started i s) = setupEvents ((deedOf i).nxt (started i s)).handle) := by
  rcases body_cases i s with ⟨c, d, e, -, ⟨v, h, -, -, hh, hc, -, -, -, he⟩ | ⟨-, -, he⟩⟩ | ⟨hi, -⟩
  · exact .inr ⟨hc, by rw [he, hh]⟩
  · exact .inl he
  · obtain ⟨-, -, hn, -⟩ := (acceptance_none_iff _ _).mp ha
    refine .inl (body_silent ?_ hi _)
    rw [← needsHandle_head, ← Bool.not_eq_true]
    intro h
    rw [hn h] at hs
    cases hs

/-- Settles O51: what is accepted without a handle is silent or is SETUP. -/
theorem noEventBeforeSetup : Obligations.NoEventBeforeSetup := by
  intro s t hs hr hst
  rcases step_noReset hr hst with ⟨-, rfl⟩ | ⟨p, c, r, rfl⟩ | ⟨p, c, r, i, -, -, ha, rfl⟩
  · exact .inl ⟨rfl, rfl⟩
  · have k := sample_keeps s p c r
    exact .inl ⟨k.trace, k.image⟩
  · have k := sample_keeps s p c r
    have en := outcome_ends (deedOf i) (started i (s.sample p c r))
    have trace : ((deedOf i).nxt (started i (s.sample p c r))).trace = s.trace ++ _ :=
      (deedOf_trace i _).trans (congrArg (· ++ _) k.trace)
    rw [en.trace, en.image, en.configured, en.handle, trace, deedOf_image]
    rcases body_unconfigured ha (k.configured.trans hs) with he | ⟨hc, he⟩
    · rw [he]; exact .inl ⟨List.append_nil _, k.image⟩
    · exact .inr ⟨hc, by rw [he]⟩

/-- Settles O52: every body extends TRACE by its events and DIAG by its mismatches, and nothing writes FAULT_POLICY. -/
theorem ghostsOnlyGrow : Obligations.GhostsOnlyGrow := by
  intro s t hst
  constructor
  · rcases step_next_cases hst with ⟨-, rfl⟩ | ⟨m, r, hm, rfl⟩ | ⟨p, c, r, -, rfl⟩ | ⟨p, c, r, i, -, rfl⟩
    · rfl
    · exact hm
    · exact (sample_keeps s p c r).policy
    · exact (outcome_ends _ _).policy.trans ((deedOf_steady i _).policy.trans (sample_keeps s p c r).policy)
  · intro hr
    rcases step_noReset hr hst with ⟨-, rfl⟩ | ⟨p, c, r, rfl⟩ | ⟨p, c, r, i, -, -, -, rfl⟩
    · exact ⟨List.prefix_rfl, List.prefix_rfl⟩
    · have k := sample_keeps s p c r
      rw [State.refuse_trace, State.refuse_diag, k.trace, k.diag]
      exact ⟨List.prefix_rfl, List.prefix_rfl⟩
    · have k := sample_keeps s p c r
      have en := outcome_ends (deedOf i) (started i (s.sample p c r))
      rw [en.trace, en.diag, ← k.trace, ← k.diag, deedOf_trace]
      exact ⟨List.prefix_append _ _, body_diag_prefix i _⟩

end Sys2Proof.Machine
end

section
/-! The middle of an operation (10_state.md R12, R14). -/

namespace Sys2Proof.Machine

/-- Settles O56: the middle exists exactly at the positions before the last event of the deed, and the deed's events are
those of the whole operation. -/
theorem smallStepsAgreeWithTheBigStep : Obligations.SmallStepsAgreeWithTheBigStep := by
  intro i s t hb hc h
  obtain ⟨-, ⟨ha, rfl⟩ | ⟨ha, rfl⟩⟩ := exec_next_undisturbed hc h
  · refine ⟨fun k hk => ?_, fun k m hm => absurd (midState_some hm).accepted ha⟩
    rw [State.refuse_trace] at hk
    omega
  · have trace : ((deedOf i).outcome (started i s)).trace = s.trace ++ (deedOf i).evs (started i s) :=
      (outcome_ends _ _).trace.trans (deedOf_trace i _)
    rw [trace, List.length_append]
    refine ⟨fun k hk => midState_isSome hb ha (by omega), fun k m hm => ?_⟩
    have mid := midState_some hm
    have hk := mid.within
    refine ⟨mid.steady.busy, mid.seq, mid.steady.op.trans (opc_head i), ?_, ?_, by omega⟩
    · rw [mid.trace]
      exact (List.prefix_append_right_inj _).mpr (List.take_prefix _ _)
    · rw [mid.trace, List.length_append, List.length_take, Nat.min_eq_left hk.le]

/-- A byte operand laid over its own slot is the slot: the ignored bits are what the port carries (30_encoding.md R48). -/
theorem overlay_slotByte (w : CommandWord) (k : Nat) : overlay (slotOf w k) (slotByte w k) = slotOf w k :=
  overlay_same _

theorem formatA_latch (opc : Byte) (s : State) : (formatA opc (slotByte s.cmd 0)).latch s = slotsOf s.cmd := by
  simp [formatA, slotsOf, overlay_slotByte]

theorem formatX_latch (opc : Byte) (s : State) :
    (formatX opc (slotByte s.cmd 0) (slotByte s.cmd 1)).latch s = slotsOf s.cmd := by
  simp [formatX, slotsOf, overlay_slotByte]

theorem formatC_latch (opc : Byte) (s : State) :
    (formatC opc (slotOf s.cmd 0) (slotByte s.cmd 1)).latch s = slotsOf s.cmd := by
  simp [formatC, slotsOf, overlay_slotByte]

/-- An instruction decoded from the word on the port loads the latches with its six slots and OP with its opcode (R12,
R14, R48). -/
theorem head_of_decodeCommand {s : State} {i : Instr} (h : decodeCommand s.cmd = .ok i) :
    (operationOf i).head.latch s = slotsOf s.cmd ∧ (operationOf i).head.opc = opcodeOf s.cmd := by
  unfold decodeCommand at h
  split at h
  case h_24 e => cases h; exact ⟨formatC_latch _ s, BitVec.eq_of_toNat_eq e.symm⟩
  case h_26 e => cases h; exact ⟨formatA_latch _ s, BitVec.eq_of_toNat_eq e.symm⟩
  case h_27 e => cases h; exact ⟨formatX_latch _ s, BitVec.eq_of_toNat_eq e.symm⟩
  case h_28 e => cases h; exact ⟨formatX_latch _ s, BitVec.eq_of_toNat_eq e.symm⟩
  case h_29 e => cases h
  all_goals
    next e =>
    cases h
    exact ⟨rfl, BitVec.eq_of_toNat_eq e.symm⟩

/-- Settles O57: the latches and OP are loaded at acceptance and no body writes them. -/
theorem latchesHoldTheSlotsWhileRunning : Obligations.LatchesHoldTheSlotsWhileRunning := by
  intro s m i k hd hm
  obtain ⟨hl, ho⟩ := head_of_decodeCommand hd
  have st := (midState_some hm).steady
  exact ⟨st.a.trans hl, st.op.trans ho⟩

end Sys2Proof.Machine
end

section
/-! Two blocks that agree in the handle and in the environment's answers answer an instruction alike (10_state.md R14, R16
to R18). -/

namespace Sys2Proof.Machine

/-- The body of `i` does the same in two blocks. -/
structure BodiesAgree (i : Instr) (s s' : State) : Prop where
  out : (deedOf i).out (started i s') = (deedOf i).out (started i s)
  evs : (deedOf i).evs (started i s') = (deedOf i).evs (started i s)
  diag : ∃ ds, ((deedOf i).nxt (started i s)).diag = s.diag ++ ds ∧ ((deedOf i).nxt (started i s')).diag = s'.diag ++ ds
  handle : ((deedOf i).nxt (started i s')).handle = ((deedOf i).nxt (started i s)).handle
  answers : ((deedOf i).nxt (started i s')).answers = ((deedOf i).nxt (started i s)).answers
  reads : ((deedOf i).nxt (started i s')).reads = ((deedOf i).nxt (started i s)).reads

/-- Bodies agree when they are alike to one deed that reads no more than what the blocks agree in. -/
theorem BodiesAgree.of_blind {i : Instr} {s s' : State} {X Y : LatchRel} {d : Deed Word}
    (al : ∀ s, Alike (deedOf i) d (started i s)) (b : d.Blind X Y) (m : Sim X (started i s) (started i s')) :
    BodiesAgree i s s' := by
  obtain ⟨handle, answers, reads⟩ := b.base _ _ m
  refine ⟨?_, ?_, ?_, ?_, ?_, ?_⟩
  · rw [(al s).out, (al s').out]; exact b.out _ _ m
  · rw [(al s).evs, (al s').evs]; exact b.evs _ _ m
  · rw [(al s).nxt, (al s').nxt]; exact b.diag _ _ m
  all_goals rwa [(al s).nxt, (al s').nxt]

/-- The bodies of every instruction agree: what a body reads of the latches is the operands that the instruction names
(30_encoding.md R47, R48). -/
theorem bodiesAgree {s s' : State} (hh : s'.handle = s.handle) (ha : s'.answers = s.answers) (hr : s'.reads = s.reads)
    (i : Instr) : BodiesAgree i s s' := by
  have m : ∀ i, Sim anyLatch (started i s) (started i s') := fun _ => ⟨hh, ha, hr, trivial⟩
  have unread : ∀ i, (deedOf i).Blind anyLatch anyLatch → BodiesAgree i s s' := fun i b =>
    .of_blind (fun _ => ⟨rfl, rfl, rfl⟩) b (m i)
  cases i with
  | setup c d e => exact .of_blind (setup_alike c d e) (.setup ..) (m _)
  | rdSec => exact unread _ (.fieldRead _)
  | rdMin => exact unread _ (.fieldRead _)
  | rdHour => exact unread _ (.fieldRead _)
  | rdMday => exact unread _ (.fieldRead _)
  | rdMon => exact unread _ (.fieldRead _)
  | rdWday => exact unread _ (.fieldRead _)
  | rdYear => exact unread _ (.fieldRead _)
  | wrSec v => exact .of_blind (fun _ => Deed.alike_given rfl) (.wrSec v) (m _)
  | wrMin v => exact .of_blind (fun _ => Deed.alike_given rfl) (.packedWrite _ _ _ _ v) (m _)
  | wrHour v => exact .of_blind (fun _ => Deed.alike_given rfl) (.packedWrite _ _ _ _ v) (m _)
  | wrMday v => exact .of_blind (fun _ => Deed.alike_given rfl) (.packedWrite _ _ _ _ v) (m _)
  | wrMon v => exact .of_blind (fun _ => Deed.alike_given rfl) (.packedWrite _ _ _ _ v) (m _)
  | wrWday v => exact .of_blind (fun _ => Deed.alike_given rfl) (.packedWrite _ _ _ _ v) (m _)
  | wrYear v => exact .of_blind (fun _ => Deed.alike_given rfl) (.packedWrite _ _ _ _ v) (m _)
  | rdCh => exact unread _ (.flagRead ..)
  | wrCh h => exact .of_blind (fun _ => Deed.alike_given rfl) (.modifySeconds _) (m _)
  | rd24h => exact unread _ (.flagRead ..)
  | rdPm => exact unread _ (.flagRead ..)
  | rdWp => exact unread _ (.flagRead ..)
  | wrWp p => exact .of_blind (fun _ => Deed.alike_given rfl) (.wrWp p) (m _)
  | wrDate y mo dd h mi se =>
    exact .of_blind (fun _ => ⟨rfl, rfl, rfl⟩) .wrDate ⟨hh, ha, hr, rfl, fun _ hj => absurd hj (Nat.not_lt_zero _)⟩
  | bcdEnc d =>
    exact .of_blind (d := .value fun _ => zext8 (packBcd d.toInt.toNat)) (fun _ => ⟨rfl, rfl, rfl⟩) (.const _) (m _)
  | bcdDec t raw =>
    refine .of_blind (fun _ => Alike.trans (Deed.alike_given rfl) ?_) (.decodeByte t.toInt raw) (m _)
    exact Deed.alike_givenByte (overlay_low _ raw)
  | chkRng lo hi v => exact .of_blind (d := .checkRange lo hi v) (fun _ => ⟨rfl, rfl, rfl⟩) (.checkRange lo hi v) (m _)
  | xRd a => exact .of_blind (fun _ => Deed.alike_givenByte (overlay_low _ a)) (.wireRead a) (m _)
  | xWr a v =>
    exact .of_blind (fun _ => Alike.trans (Deed.alike_givenByte (overlay_low _ a)) (Deed.alike_givenByte (overlay_low _ v)))
      (.wireWrite a v) (m _)
  | xWrchk a v =>
    exact .of_blind (fun _ => Alike.trans (Deed.alike_givenByte (overlay_low _ a)) (Deed.alike_givenByte (overlay_low _ v)))
      (.toWord (.writeAndCheck a v) _) (m _)
  | wSec v => exact unread _ (.wireWrite ..)
  | rSec => exact unread _ (.wireRead _)
  | wMin v => exact unread _ (.wireWrite ..)
  | rMin => exact unread _ (.wireRead _)
  | wHour v => exact unread _ (.wireWrite ..)
  | rHour => exact unread _ (.wireRead _)
  | wMday v => exact unread _ (.wireWrite ..)
  | rMday => exact unread _ (.wireRead _)
  | wMon v => exact unread _ (.wireWrite ..)
  | rMon => exact unread _ (.wireRead _)
  | wWday v => exact unread _ (.wireWrite ..)
  | rWday => exact unread _ (.wireRead _)
  | wYear v => exact unread _ (.wireWrite ..)
  | rYear => exact unread _ (.wireRead _)
  | wWp v => exact unread _ (.wireWrite ..)
  | rWp => exact unread _ (.wireRead _)

/-- Acceptance looks at FAULT_KIND and CONFIGURED alone (R61). -/
theorem acceptance_congr {s s' : State} (hf : s'.faultKind = s.faultKind) (hc : s'.configured = s.configured)
    (h : OpHead) : s'.acceptance h = s.acceptance h := by
  unfold State.acceptance
  rw [hf, hc]

theorem status_congr {t t' : State} (hf : t'.faultKind = t.faultKind) (hc : t'.configured = t.configured)
    (hb : t'.busy = t.busy) : t'.status = t.status := by
  unfold State.status
  rw [hf, hc, hb]

/-- The response and FAULT_KIND an operation leaves depend on its outcome, FAULT_POLICY and the FAULT_KIND before. -/
theorem outcome_congr {d : Deed Word} {b b' : State} (ho : d.out b' = d.out b)
    (hp : (d.nxt b').policy = (d.nxt b).policy) (hf : (d.nxt b').faultKind = (d.nxt b).faultKind) :
    (d.outcome b').response = (d.outcome b).response ∧ (d.outcome b').faultKind = (d.outcome b).faultKind := by
  unfold State.response
  cases h : d.out b with
  | ok v =>
    obtain ⟨hk, hr, hl⟩ := outcome_ok h
    obtain ⟨hk', hr', hl'⟩ := outcome_ok (ho.trans h)
    rw [hk, hk', hr, hr', hl, hl']
    exact ⟨rfl, hf⟩
  | error e =>
    obtain ⟨hk, hr, hl⟩ := outcome_error h
    obtain ⟨hk', hr', hl'⟩ := outcome_error (ho.trans h)
    rw [hk, hk', hr, hr', hl, hl', hp, hf]
    exact ⟨rfl, rfl⟩

/-- Settles O59: both blocks refuse, or both run bodies that agree. -/
theorem outcomeDependsOnOperandsAndReadsOnly : Obligations.OutcomeDependsOnOperandsAndReadsOnly := by
  intro i s s' hb hb' hc hc' hh hcf hf hp ha hr
  have acc := acceptance_congr hf hcf (operationOf i).head
  by_cases h : s.acceptance (operationOf i).head = none
  · have b := bodiesAgree hh ha hr i
    have st := deedOf_steady i (started i s)
    have st' := deedOf_steady i (started i s')
    have en := outcome_ends (deedOf i) (started i s)
    have en' := outcome_ends (deedOf i) (started i s')
    have policy : ((deedOf i).nxt (started i s')).policy = ((deedOf i).nxt (started i s)).policy :=
      st'.policy.trans (hp.trans st.policy.symm)
    have configured : ((deedOf i).nxt (started i s')).configured = ((deedOf i).nxt (started i s)).configured := by
      rw [body_configured, body_configured, hcf, b.out]
    obtain ⟨response, faultKind⟩ := outcome_congr b.out policy (st'.faultKind.trans (hf.trans st.faultKind.symm))
    obtain ⟨ds, hd, hd'⟩ := b.diag
    refine ⟨(deedOf i).outcome (started i s), (deedOf i).outcome (started i s'), (deedOf i).evs (started i s), ds,
      (exec_undisturbed hb h hc).trans (ended_eq _ _), (exec_undisturbed hb' (acc.trans h) hc').trans (ended_eq _ _),
      response, status_congr faultKind ?_ (en'.busy.trans en.busy.symm), ?_, ?_, en.diag.trans hd, en'.diag.trans hd',
      ?_, ?_, ?_, ?_⟩
    · rw [en.configured, en'.configured, configured]
    · rw [en.trace]; exact deedOf_trace i _
    · rw [en'.trace, ← b.evs]; exact deedOf_trace i _
    · rw [en.handle, en'.handle, b.handle]
    · rw [en.answers, en'.answers, b.answers]
    · rw [en.reads, en'.reads, b.reads]
    · rw [en.policy, en'.policy, policy]
  · exact ⟨_, _, [], [], exec_refused hb hc h, exec_refused hb' hc' (by rwa [acc]), rfl,
      status_congr hf hcf (hb'.trans hb.symm), (List.append_nil _).symm, (List.append_nil _).symm,
      (List.append_nil _).symm, (List.append_nil _).symm, hh, ha, hr, hp⟩

end Sys2Proof.Machine
end

section
/-! The words the host sees (10_state.md R21, 30_encoding.md R51, R52). -/

namespace Sys2Proof.Machine

theorem status_busy (s : State) : s.status.getLsbD 0 = s.busy := by
  have h : s.status.getLsbD 0 = _ := BitVec.getLsbD_append
  rw [h]; simp

theorem status_configured (s : State) : s.status.getLsbD 1 = s.configured := by
  have h : s.status.getLsbD 1 = (s.faultKind.code ++ BitVec.ofBool s.configured).getLsbD 0 := BitVec.getLsbD_append
  rw [h, BitVec.getLsbD_append]; simp

theorem status_faultKind (s : State) : s.status.extractLsb' 2 2 = s.faultKind.code := by
  have h : s.status.extractLsb' 2 2 = (s.faultKind.code ++ BitVec.ofBool s.configured).extractLsb' 1 2 :=
    BitVec.extractLsb'_append_eq_of_le (by decide)
  exact h.trans BitVec.extractLsb'_append_eq_left

theorem diagnostic_addr (d : Diagnostic) : d.word.extractLsb' 16 8 = d.addr := by
  have h : d.word.extractLsb' 16 8 = (d.addr ++ d.want).extractLsb' 8 8 :=
    BitVec.extractLsb'_append_eq_of_le (by decide)
  exact h.trans BitVec.extractLsb'_append_eq_left

theorem diagnostic_want (d : Diagnostic) : d.word.extractLsb' 8 8 = d.want := by
  have h : d.word.extractLsb' 8 8 = (d.addr ++ d.want).extractLsb' 0 8 :=
    BitVec.extractLsb'_append_eq_of_le (by decide)
  exact h.trans BitVec.extractLsb'_append_eq_right

/-- Settles O60: STATUS, RSP and DIAGW are concatenations of their fields, from the high bits down. -/
theorem hostWordsHaveTheirLayout : Obligations.HostWordsHaveTheirLayout :=
  ⟨fun s => ⟨status_busy s, status_configured s, status_faultKind s, BitVec.extractLsb'_append_eq_left,
      BitVec.extractLsb'_append_eq_right⟩,
    fun d => ⟨diagnostic_addr d, diagnostic_want d, BitVec.extractLsb'_append_eq_right⟩, rfl, rfl, rfl, rfl, rfl, rfl, rfl⟩

end Sys2Proof.Machine
end

section
/-! The encoding of a command word and of a wire frame (30_encoding.md R46 to R50, R53 to R55). -/

namespace Sys2Proof

/-- Settles O1: the decoder finds the opcode and each operand in the field the encoder put it in: a whole slot, the low
byte of a slot, or the data byte of a frame. -/
theorem decodeOfEncodeIsTheInstruction : Obligations.DecodeOfEncodeIsTheInstruction := by
  intro i
  cases i
  -- a wire command: the command byte and, of a write, the data byte
  case wSec | wMin | wHour | wMday | wMon | wWday | wYear | wWp =>
    simp [encode, frameOf, decode, decodeFrame]
  case rSec | rMin | rHour | rMday | rMon | rWday | rYear | rWp => rfl
  -- a command word with a byte operand, then those with whole slots or none
  case bcdDec | xRd | xWr | xWrchk =>
    simp [encode, commandOf, decode, decodeCommand, slotByte]
  all_goals simp [encode, commandOf, decode, decodeCommand]

/-- Settles O2, format by format: with the named slots and bytes equal, the decoder's rows for the opcodes of the format
are the same for both words. -/
theorem decodingReadsOnlyTheNamedBits : Obligations.DecodingReadsOnlyTheNamedBits := by
  intro w w' ho
  unfold decodeCommand
  rw [← ho]
  generalize (opcodeOf w).toNat = n
  refine ⟨?formatN, ?formatV, ?formatR, ?formatC, ?formatA, ?formatX⟩
  case formatN => revert n; simp
  case formatV => intro hn h0; rw [h0]; revert n; simp
  case formatR => intro hn h0 h1 h2; rw [h0, h1, h2]; revert n; simp
  case formatC => rintro rfl h0 h1; simp only [h0, h1]
  case formatA => rintro rfl h0; simp only [h0]
  case formatX => intro hn h0 h1; rw [h0, h1]; revert n; simp

/-- Settles O3, by running the decoder on the ten words. -/
theorem specWordsDecode : Obligations.SpecWordsDecode := by
  unfold Obligations.SpecWordsDecode
  decide

theorem decodeCommand_reserved {w : CommandWord}
    (h : (opcodeOf w).toNat ∉ [0x00, 0x10, 0x11, 0x12, 0x13, 0x14, 0x15, 0x16, 0x20, 0x21, 0x22, 0x23, 0x24, 0x25, 0x26,
      0x30, 0x31, 0x32, 0x33, 0x34, 0x35, 0x40, 0x50, 0x51, 0x52, 0x60, 0x61, 0x62]) :
    decodeCommand w = .error (.reservedOpcode (opcodeOf w)) := by
  unfold decodeCommand
  split
  case h_29 => rfl
  all_goals next hn => rw [hn] at h; exact absurd h (by decide)

theorem decodeFrame_unlisted {w : WireFrame} (h : (wireByteOf w).toNat < 0x80 ∨ 0x8F < (wireByteOf w).toNat) :
    decodeFrame w = .error (.unknownWireByte (wireByteOf w)) := by
  unfold decodeFrame
  split
  case h_17 => rfl
  all_goals omega

end Sys2Proof
end

section
/-! Refusal: of what is no instruction (30_encoding.md R50; log entry 9) and of an instruction that fails a test of
acceptance (R61, 60_exceptions.md R123). -/

namespace Sys2Proof.Machine

theorem State.resetPending_eq_false {s : State} (h : ∀ k, s.cut ≠ some ⟨k, .reset⟩) : s.resetPending = false := by
  rw [← Bool.not_eq_true, State.resetPending_iff]
  exact fun ⟨k, hk⟩ => h k hk

/-- The case of `step` that meets what is no instruction: it is refused, when no reset is scheduled with it (R50). -/
theorem step_of_decode_error {s : State} {p : Presented} {c : Option Cut} {rest : List HostInput} {e : DecodeError}
    (hb : s.busy = false) (hs : s.script = .present p c :: rest) (hc : ∀ k, c ≠ some ⟨k, .reset⟩)
    (hd : decode p = .error e) : step s = .next (s.sample p c rest).refuse := by
  have hp : (s.sample p c rest).resetPending = false :=
    State.resetPending_eq_false (by rwa [State.sample_cut])
  rw [← State.respond_of_not_pending hp State.refuse]
  simp [step, hs, hb, hd, State.rejectUndecoded]

/-- Settles O4: the decoder rejects the word, and the refusal changes the response and uses the inputs up. -/
theorem reservedOpcodesAreRefused : Obligations.ReservedOpcodesAreRefused := by
  intro s w c rest hb hs hc hw
  rw [step_of_decode_error hb hs hc (decodeCommand_reserved hw), State.sample_command]
  rfl

/-- Settles O5 in the same way, for a frame, which leaves CMD alone. -/
theorem unlistedFramesAreRefused : Obligations.UnlistedFramesAreRefused := by
  intro s w c rest hb hs hc hw
  rw [step_of_decode_error hb hs hc (decodeFrame_unlisted hw), State.sample_frame]
  rfl

/-- A refused instruction, when no reset is scheduled with it (R123). -/
theorem exec_eq_refuse {i : Instr} {s : State} (hb : s.busy = false) (hc : ∀ k, s.cut ≠ some ⟨k, .reset⟩)
    (ha : s.acceptance (operationOf i).head ≠ none) : exec i s = .next s.refuse := by
  have hp := State.resetPending_eq_false hc
  rw [exec_eq_run, runOperation, if_neg (by simp [hb])]
  cases h : s.acceptance (operationOf i).head with
  | none => exact absurd h ha
  | some c => rw [← State.respond_of_not_pending hp State.refuse]

/-- The tests of acceptance in terms of the instruction (R61). -/
theorem acceptance_operationOf_iff (i : Instr) (s : State) :
    s.acceptance (operationOf i).head = none ↔ s.faultKind = .none ∧
      ((∃ c d e, i = .setup c d e) → s.configured = false) ∧ (needsHandle i = true → s.configured = true) ∧
      i.wellFormed = true := by
  rw [acceptance_none_iff, isSetup_head, needsHandle_head, admitted_head]

/-- Settles O47: the four failures are the negations of what acceptance asks; an accepted instruction runs to a response
that is not REFUSED, and its body leaves OP alone. -/
theorem acceptanceTestsDecideRefusal : Obligations.AcceptanceTestsDecideRefusal := by
  intro i s hb fails
  have acc : s.acceptance (operationOf i).head = none ↔ ¬ fails := by
    rw [acceptance_operationOf_iff]
    simp [fails]
  refine ⟨fun hf hc => exec_eq_refuse hb hc (mt acc.mp (not_not_intro hf)), fun hf hc => ?_⟩
  have run := exec_undisturbed hb (acc.mpr hf) hc
  rw [ended_eq] at run
  refine ⟨_, run, outcome_not_refused _ _, ?_⟩
  rw [(outcome_ends _ _).op]
  exact (deedOf_steady i (started i s)).op.trans (opc_head i)

end Sys2Proof.Machine
end

section
/-! The wire commands standing alone (30_encoding.md R54; log entry 8). -/

namespace Sys2Proof.Machine

/-- A ready block accepts every instruction but SETUP whose operands are admitted (R61). -/
theorem Ready.accepts_operationOf {s : State} (r : Ready s) {i : Instr} (hi : ∀ c d e, i ≠ .setup c d e)
    (hw : i.wellFormed = true) : s.acceptance (operationOf i).head = none :=
  (acceptance_operationOf_iff i s).mpr
    ⟨r.idle.faultKind, fun ⟨c, d, e, h⟩ => absurd h (hi c d e), fun _ => r.configured, hw⟩

/-- An instruction whose body is one read transaction answers the byte read (41_command_transaction.md R76, R80). -/
theorem answersTheByteRead_of_alike {i : Instr} {cmd : Byte} (hi : ∀ c d e, i ≠ .setup c d e)
    (hw : i.wellFormed = true) (al : ∀ s, Alike (deedOf i) (.wireRead cmd) (started i s)) :
    AnswersTheByteRead i (operationOf i).head.opc cmd := by
  intro s r
  obtain ⟨t, ht, hc, htemps, hpins⟩ := completes_as hi r.idle (r.accepts_operationOf hi hw) (al s)
    (v := (s.nextByte 0).setWidth 32) (es := regReadEvents s.handle cmd (s.nextByte 0)) (ds := [])
    rfl (Deed.toWord_evs ..) (List.append_nil _).symm
  refine ⟨t, ht, hc, htemps, hpins.trans ?_⟩
  rw [Deed.wireRead, Deed.toWord_nxt, Deed.regRead_pins]

/-- An instruction whose body is one write transaction answers the byte written (R77, R81). -/
theorem answersTheByteWritten_of_alike {i : Instr} {cmd v : Byte} (hi : ∀ c d e, i ≠ .setup c d e)
    (hw : i.wellFormed = true) (al : ∀ s, Alike (deedOf i) (.wireWrite cmd v) (started i s)) :
    AnswersTheByteWritten i (operationOf i).head.opc cmd v := by
  intro s r
  obtain ⟨t, ht, hc, htemps, hpins⟩ := completes_as hi r.idle (r.accepts_operationOf hi hw) (al s)
    (v := v.setWidth 32) (es := regWriteEvents s.handle cmd v) (ds := [])
    rfl (Deed.wireWrite_evs ..) (List.append_nil _).symm
  exact ⟨t, ht, hc, htemps, hpins.trans (Deed.wireWrite_pins ..)⟩

/-- Settles O40: the body of each wire read is the read transaction of its command byte. -/
theorem wireReadsAnswerTheByte : Obligations.WireReadsAnswerTheByte := by
  refine ⟨?_, ?_, ?_, ?_, ?_, ?_, ?_, ?_⟩ <;>
  exact answersTheByteRead_of_alike nofun rfl fun _ => ⟨rfl, rfl, rfl⟩

/-- Settles O41: the body of each wire write is the write transaction of its command byte and its data byte. -/
theorem wireWritesSendTheByte : Obligations.WireWritesSendTheByte := by
  intro v
  refine ⟨?_, ?_, ?_, ?_, ?_, ?_, ?_, ?_⟩ <;>
  exact answersTheByteWritten_of_alike nofun rfl fun _ => ⟨rfl, rfl, rfl⟩

end Sys2Proof.Machine
end

section
/-! Sixteen clock pulses a transaction, all with chip-enable high (30_encoding.md R55). -/

namespace Sys2Proof.Machine

/-- Without an event that raises the clock there is no rising edge. -/
theorem risingEdges_eq_nil {h : Handle} {es : List Event} (p : PinImage) (hes : .write h.clk true ∉ es) :
    risingEdges h p es = [] := by
  induction es generalizing p with
  | nil => rfl
  | cons e es ih =>
    rw [List.mem_cons, not_or] at hes
    obtain ⟨he, hes⟩ := hes
    rw [risingEdges, ih _ hes, if_neg fun hw => he hw.1.symm]
    rfl

/-- Only the two bytes of a transaction clock: its start and its Stop step raise no clock. -/
theorem risingEdges_framed {h : Handle} {start : List Event} (hs : .write h.clk true ∉ start) (p : PinImage)
    (bytes : List Event) : risingEdges h p (start ++ bytes ++ stopEvents h) =
      risingEdges h (start.foldl (PinImage.load h) p) bytes := by
  have stop : risingEdges h ((start ++ bytes).foldl (PinImage.load h) p) (stopEvents h) = [] :=
    risingEdges_eq_nil _ (by simp [stopEvents])
  rw [risingEdges_append, stop, List.append_nil, risingEdges_append, risingEdges_eq_nil p hs, List.nil_append]

section
variable {h : Handle} {p : PinImage} (h1 : h.clk ≠ h.dat) (h2 : h.clk ≠ h.ce) (h3 : h.dat ≠ h.ce)
include h2 h3

/-- The bytes of a write are clocked with chip-enable high and the data pin an output (R71, R72). -/
theorem risingEdges_regWrite (addr v : Byte) : risingEdges h p (regWriteEvents h addr v) =
    risingEdges h { p with ceO := true, datDir := .output }
      (writeByteEvents h (addr &&& 0xFE) ++ writeByteEvents h v) := by
  rw [regWriteEvents, List.append_assoc _ (writeByteEvents h _) (writeByteEvents h v),
    risingEdges_framed (by simp [h2])]
  simp [PinImage.load, h2.symm, h3.symm]

/-- The bytes of a read are clocked with chip-enable high and the data pin an input (R71, R72). -/
theorem risingEdges_regRead (addr v : Byte) : risingEdges h p (regReadEvents h addr v) =
    risingEdges h { p with ceO := true, datDir := .input }
      (writeByteEvents h (addr ||| 0x01) ++ readByteEvents h v) := by
  rw [regReadEvents, List.append_assoc _ (writeByteEvents h _) (readByteEvents h v),
    risingEdges_framed (by simp [h2])]
  simp [PinImage.load, h2.symm, h3.symm]

include h1

/-- One byte out: eight edges, its bits on the data pin (R66). -/
theorem clocks_writeByte (v : Byte) (hp : p.clkO = false) :
    Clocks h (writeByteEvents h v) p (bitsOf v) (List.replicate 8 p.ceO) :=
  clocks_writeBits h1 h2 h3 (fun i => v.getLsbD i) bitOrder hp

theorem clocks_writeByte_writeByte (c v : Byte) (hp : p.clkO = false) :
    Clocks h (writeByteEvents h c ++ writeByteEvents h v) p (bitsOf c ++ bitsOf v) (List.replicate 16 p.ceO) := by
  have k := clocks_writeByte h1 h2 h3 c hp
  have l := clocks_writeByte h1 h2 h3 v k.low
  rw [k.kept] at l
  exact k.append l

/-- The data byte of a read is the chip's: the levels on the data pin at its edges are not said. -/
theorem clocks_writeByte_readByte (c v : Byte) (hp : p.clkO = false) :
    ∃ d, Clocks h (writeByteEvents h c ++ readByteEvents h v) p (bitsOf c ++ d) (List.replicate 16 p.ceO) := by
  have k := clocks_writeByte h1 h2 h3 c hp
  obtain ⟨d, l⟩ := clocks_readBits h1 h2 (fun i => v.getLsbD i) bitOrder k.low
  rw [k.kept] at l
  exact ⟨d, k.append l⟩

end

theorem sampledLevels_regWrite (h : Handle) (addr v : Byte) : sampledLevels (regWriteEvents h addr v) = [] := by
  simp [regWriteEvents, sampledLevels_append, sampled_writeByte, sampledLevels, stopEvents]

theorem sampledLevels_regRead (h : Handle) (addr v : Byte) : sampledLevels (regReadEvents h addr v) = bitsOf v := by
  simp [regReadEvents, sampledLevels_append, sampled_writeByte, sampled_readByte, sampledLevels, stopEvents]

/-- Settles O20: the edges of a transaction are those of its two bytes, clocked one after the other with chip-enable
high. -/
theorem transactionsClockSixteenBits : Obligations.TransactionsClockSixteenBits := by
  intro h p addr v h1 h2 h3 hp
  have w := clocks_writeByte_writeByte (p := { p with ceO := true, datDir := .output }) h1 h2 h3 (addr &&& 0xFE) v hp
  obtain ⟨d, r⟩ :=
    clocks_writeByte_readByte (p := { p with ceO := true, datDir := .input }) h1 h2 h3 (addr ||| 0x01) v hp
  simp only [risingEdgeLevels, chipEnableAtEdges, risingEdges_regWrite h2 h3, risingEdges_regRead h2 h3]
  refine ⟨w.data, ?_, sampledLevels_regRead h addr v, sampledLevels_regWrite h addr v, w.enable, r.enable⟩
  exact (congrArg (List.take 8) r.data).trans (List.take_left' rfl)

end Sys2Proof.Machine
end

section
/-! The Bit Channel and the Byte Channel, from their deeds (40_bit_byte_channel.md R62 to R67). -/

namespace Sys2Proof.Machine

/-- Settles O11: the deed of `writeBit` is to issue `writeBitEvents`. -/
theorem writeBitIssuesItsSevenEvents : Obligations.WriteBitIssuesItsSevenEvents := fun b _ hs =>
  ⟨_, (writeBit_runs b).undisturbed hs, rfl⟩

/-- Settles O12: the deed of `readBit` is to take one answer and issue `readBitEvents` of it. -/
theorem readBitSamplesBeforeTheClock : Obligations.ReadBitSamplesBeforeTheClock := fun _ hs =>
  ⟨_, readBit_runs.undisturbed hs, rfl⟩

/-- The bits of a byte go in the order of their numbers (20_memory.md R36). -/
theorem bitOrder_eq_range : bitOrder = List.range 8 := rfl

/-- The events of the byte the environment answers next are eight `readBit`s of its next levels (R67). -/
theorem readByteEvents_nextByte_zero (s : State) : readByteEvents s.handle (s.nextByte 0) =
    (List.range 8).flatMap fun k => readBitEvents s.handle (s.level k) := by
  simpa only [Nat.mul_zero, Nat.zero_add, bitOrder_eq_range] using readByteEvents_nextByte s.handle s 0

/-- Settles O14: the deed of `readByte` takes eight answers, and the byte that has them as its bits is
`State.nextByte`. -/
theorem readByteAssemblesEightSamples : Obligations.ReadByteAssemblesEightSamples := by
  intro s hs
  rw [← readByteEvents_nextByte_zero s]
  refine ⟨s.nextByte 0, _, readByte_runs.undisturbed hs, fun k hk => ?bit, rfl, readByteEvents_length _ _,
    readByteEvents_reads _ _, readByteEvents_time _ _, rfl, rfl, rfl⟩
  case bit => rw [State.nextByte_getLsbD s 0 k hk, Nat.mul_zero, Nat.zero_add]

/-- One bit out: at its one rising edge the bit stands on the data pin, whatever pin chip-enable is (R62). -/
theorem risingEdgeLevels_writeBit {h : Handle} {p : PinImage} (b : Level) (hne : h.clk ≠ h.dat) (hp : p.clkO = false) :
    risingEdgeLevels h p (writeBitEvents h b) = [b] := by
  simp [risingEdgeLevels, risingEdges, writeBitEvents, PinImage.load, hne, hne.symm, hp]

/-- After a bit out the clock is low (R62). -/
theorem writeBit_clkO (h : Handle) (p : PinImage) (b : Level) :
    ((writeBitEvents h b).foldl (PinImage.load h) p).clkO = false := by
  simp [writeBitEvents, PinImage.load]

theorem risingEdgeLevels_append (h : Handle) (p : PinImage) (es fs : List Event) :
    risingEdgeLevels h p (es ++ fs) =
      risingEdgeLevels h p es ++ risingEdgeLevels h (es.foldl (PinImage.load h) p) fs := by
  simp [risingEdgeLevels, risingEdges_append]

/-- Bits out: each stands on the data pin at its own edge, in the order sent (R66). -/
theorem risingEdgeLevels_writeBits {h : Handle} {p : PinImage} (hne : h.clk ≠ h.dat) (hp : p.clkO = false)
    (f : Nat → Level) (is : List Nat) :
    risingEdgeLevels h p (is.flatMap fun i => writeBitEvents h (f i)) = is.map f := by
  induction is generalizing p with
  | nil => rfl
  | cons i is ih =>
    rw [List.flatMap_cons, risingEdgeLevels_append, risingEdgeLevels_writeBit (f i) hne hp, ih (writeBit_clkO h p (f i))]
    rfl

/-- Settles O13: the deed of `writeByte` is to issue `writeByteEvents`, eight bits out from bit 0 on. -/
theorem writeByteSendsLeastSignificantFirst : Obligations.WriteByteSendsLeastSignificantFirst :=
  ⟨fun v s hs => ⟨_, (writeByte_runs v).undisturbed hs, rfl, writeByteEvents_length s.handle v,
      writeByteEvents_time s.handle v, rfl, rfl⟩,
    fun _ _ v hne hp => risingEdgeLevels_writeBits hne hp (fun i => v.getLsbD i) bitOrder⟩

end Sys2Proof.Machine
end

section
/-! The Command Transaction, from its deeds (41_command_transaction.md R71 to R82). -/

namespace Sys2Proof.Machine

/-- Setting the mode of the data pin changes nothing else of the pin image (R72). -/
theorem load_setDir_dat (h : Handle) (p : PinImage) (m : PinMode) :
    p.load h (.setDir h.dat m) = { p with datDir := m } := by
  simp [PinImage.load]

/-- Settles O15: each step is the deed said of it, and the pin image after Stop is low in the mode it found. -/
theorem transactionStepsIssueTheirEvents : Obligations.TransactionStepsIssueTheirEvents := by
  refine fun s hs => ⟨fun r => (startStep_runs r).undisturbed hs, ?dirRead, ?dirWrite, ?stop⟩
  case dirRead =>
    rw [← load_setDir_dat s.handle]
    exact dirStepRead_runs.undisturbed hs
  case dirWrite =>
    rw [← load_setDir_dat s.handle]
    exact dirStepWrite_runs.undisturbed hs
  case stop =>
    exact ⟨_, stopStep_runs.undisturbed hs, rfl, rfl, stop_image s.handle s.image, rfl, rfl⟩

/-- Settles O16: each phase is the deed said of it, and a byte is 56 events out or 48 in. -/
theorem transactionPhasesMoveOneByte : Obligations.TransactionPhasesMoveOneByte := fun _ b hs =>
  ⟨(commandPhase_runs b).undisturbed hs, (dataPhaseWrite_runs b).undisturbed hs, dataPhaseRead_runs.undisturbed hs⟩

/-- Setting bits of a masked byte; Lean's library has the dual, `BitVec.and_or_distrib_right`. -/
theorem byte_or_and_distrib_right (x y z : Byte) : x &&& y ||| z = (x ||| z) &&& (y ||| z) := by
  ext i
  simp [Bool.or_and_distrib_right]

/-- A read forces bit 0 of the address to 1 (R73), so both addresses of a pair give the same events. -/
theorem regReadEvents_or_one (h : Handle) (addr v : Byte) :
    regReadEvents h (addr ||| 0x01) v = regReadEvents h addr v := by
  rw [regReadEvents, BitVec.or_assoc, BitVec.or_self, regReadEvents]

/-- `regReadEvents_or_one` for the even address of the pair (R73). -/
theorem regReadEvents_and_fe (h : Handle) (addr v : Byte) :
    regReadEvents h (addr &&& 0xFE) v = regReadEvents h addr v := by
  have forced : addr &&& 0xFE ||| 0x01 = addr ||| 0x01 := by
    rw [byte_or_and_distrib_right]
    exact BitVec.and_allOnes
  rw [regReadEvents, forced, regReadEvents]

/-- A write forces bit 0 of the address to 0 (R73), so both addresses of a pair give the same events. -/
theorem regWriteEvents_or_one (h : Handle) (addr v : Byte) :
    regWriteEvents h (addr ||| 0x01) v = regWriteEvents h addr v := by
  have forced : (addr ||| 0x01) &&& 0xFE = addr &&& 0xFE := by
    rw [BitVec.and_or_distrib_right]
    exact BitVec.or_zero
  rw [regWriteEvents, forced, regWriteEvents]

/-- `regWriteEvents_or_one` for the even address of the pair (R73). -/
theorem regWriteEvents_and_fe (h : Handle) (addr v : Byte) :
    regWriteEvents h (addr &&& 0xFE) v = regWriteEvents h addr v := by
  rw [regWriteEvents, BitVec.and_assoc, BitVec.and_self, regWriteEvents]

/-- Settles O17: the deed of `regRead` is to take eight answers and issue `regReadEvents` of the byte they make. -/
theorem regReadIsOneReadTransaction : Obligations.RegReadIsOneReadTransaction := fun addr s hs =>
  ⟨_, (regRead_runs addr).undisturbed hs, rfl, regReadEvents_length _ addr _, regReadEvents_reads _ addr _,
    regReadEvents_time _ addr _, Deed.regRead_pins addr s, regReadEvents_or_one _ addr _, regReadEvents_and_fe _ addr _,
    rfl⟩

/-- Settles O18: the deed of `regWrite` is to issue `regWriteEvents`. -/
theorem regWriteIsOneWriteTransaction : Obligations.RegWriteIsOneWriteTransaction := fun addr value s hs =>
  ⟨_, (regWrite_runs addr value).undisturbed hs, rfl, regWriteEvents_length _ addr value,
    regWriteEvents_reads _ addr value, regWriteEvents_time _ addr value, regWrite_image s.handle addr value s.image,
    regWriteEvents_or_one _ addr value, regWriteEvents_and_fe _ addr value, rfl⟩

/-- Settles O19: the deed of `writeAndCheck` is a write, a read, and the diagnostic of a byte that
differs. -/
theorem writeAndCheckReturnsTheIntendedByte : Obligations.WriteAndCheckReturnsTheIntendedByte := fun addr value s hs =>
  ⟨_, (writeAndCheck_runs addr value).undisturbed hs, rfl, writeAndCheckEvents_length s.handle addr value _,
    writeAndCheckEvents_time s.handle addr value _, Deed.writeAndCheck_pins addr value s,
    Deed.writeAndCheck_temps addr value s, Deed.writeAndCheck_diag addr value s, rfl⟩

/-- An instruction whose body is one write with verification answers the byte written, whatever it reads back (R82). -/
theorem completes_writeAndCheck {i : Instr} {addr v : Byte} (hi : ∀ c d e, i ≠ .setup c d e)
    (hw : i.wellFormed = true) {s : State} (r : Ready s)
    (al : Alike (deedOf i) ((Deed.writeAndCheck addr v).toWord zext8) (started i s)) :
    ∃ t, exec i s = .next t ∧
      Completes s t (operationOf i).head.opc (v.setWidth 32) (writeAndCheckEvents s.handle addr v (s.nextByte 0))
        (mismatches addr v (s.nextByte 0)) ∧
      t.temps = { s.temps with w := v } ∧ t.image = restingPins .input := by
  obtain ⟨t, ht, hc, htemps, hpins⟩ := completes_as hi r.idle (r.accepts_operationOf hi hw) al
    (v := v.setWidth 32) rfl (Deed.toWord_evs ..) (ds := mismatches addr v (s.nextByte 0)) rfl
  exact ⟨t, ht, hc, htemps, hpins.trans (Deed.writeAndCheck_pins ..)⟩

/-- A body that takes two operand bytes does what it does with the two the latches hold (R81, R82). -/
theorem alike_givenBytes {j k : Nat} {d : Byte → Byte → Deed Word} {s : State} {a v : Byte}
    (ha : (s.a.get j).extractLsb' 0 8 = a) (hv : (s.a.get k).extractLsb' 0 8 = v) :
    Alike (.givenByte j fun a => .givenByte k fun v => d a v) (d a v) s :=
  .trans (Deed.alike_givenByte ha) (Deed.alike_givenByte hv)

/-- Settles O39: the body of each is the transaction of the address byte and the value byte it latched. -/
theorem testAccessOperationsAnswer : Obligations.TestAccessOperationsAnswer := by
  refine ⟨fun a => ?xRd, fun a v => ?xWr, fun a v s r => ?xWrchk⟩
  case xRd => exact answersTheByteRead_of_alike nofun rfl fun _ => Deed.alike_givenByte (overlay_low _ a)
  case xWr =>
    exact answersTheByteWritten_of_alike nofun rfl fun _ => alike_givenBytes (overlay_low _ a) (overlay_low _ v)
  case xWrchk =>
    exact completes_writeAndCheck (i := .xWrchk a v) nofun rfl r (alike_givenBytes (overlay_low _ a) (overlay_low _ v))

end Sys2Proof.Machine
end

section
/-! The BCD Codec and the Range Validator as functions (42_codec_validator.md R84 to R88): `encode` and `decode` as
arithmetic on the number a byte stands for, and what one makes of the other. -/

namespace Sys2Proof.Machine

/-- A mask of the low `k` bits keeps the remainder by `2 ^ k`. -/
theorem toNat_and_lowMask (raw mask : Byte) (k : Nat) (hm : mask.toNat = 2 ^ k - 1) :
    (raw &&& mask).toNat = raw.toNat % 2 ^ k := by
  rw [BitVec.toNat_and, hm, Nat.and_two_pow_sub_one_eq_mod]

/-- The high nibble of a byte. -/
theorem toNat_highNibble (b : Byte) : (b >>> 4).toNat = b.toNat / 16 := by
  rw [BitVec.toNat_ushiftRight, Nat.shiftRight_eq_div_pow]

/-- The low nibble of a byte: the ones digit of tags 4 to 8 (R85). -/
theorem onesDigit_eq (raw : Byte) : onesDigit raw = raw.toNat % 16 := toNat_and_lowMask raw 0x0F 4 rfl

/-- The tens of tags 5 to 8, of which the mask counts the low `k` bits (R85). -/
theorem tensPart_eq (raw mask : Byte) (k : Nat) (hm : (mask >>> 4).toNat = 2 ^ k - 1) :
    tensPart raw mask = raw.toNat / 16 % 2 ^ k * 10 := by
  rw [tensPart, BitVec.ushiftRight_and_distrib, toNat_and_lowMask _ _ k hm, toNat_highNibble]

/-! ### `encode` -/

theorem bcdEncode_of_mem {d : Int} (h0 : 0 ≤ d) (h99 : d ≤ 99) : bcdEncode d = some (packBcd d.toNat) :=
  if_pos ⟨h0, h99⟩

theorem bcdEncode_eq_none {d : Int} (h : d < 0 ∨ 99 < d) : bcdEncode d = none :=
  if_neg (by omega)

/-- What has an encoding is a decimal of two digits, and the byte holds them (R84). -/
theorem toNat_of_bcdEncode {v : Nat} {b : Byte} (h : bcdEncode v = some b) :
    v ≤ 99 ∧ b.toNat = v / 10 * 16 + v % 10 := by
  by_cases hv : v ≤ 99
  · rw [bcdEncode_of_mem (Int.natCast_nonneg v) (by omega), Option.some.injEq] at h
    exact ⟨hv, h ▸ packBcd_toNat v hv⟩
  · rw [bcdEncode_eq_none (by omega)] at h
    cases h

/-- Settles O21: the number of the packed byte is sixteen times the tens digit plus the ones digit, and each clause reads
that number. -/
theorem encodePacksTwoDigits : Obligations.EncodePacksTwoDigits := by
  refine fun d => ⟨fun h0 h99 => ⟨packBcd d.toNat, bcdEncode_of_mem h0 h99, ?_⟩, bcdEncode_eq_none⟩
  have digits := packBcd_toNat d.toNat (by omega)
  refine ⟨?tens, ?ones, ?bound, ?bit7⟩
  case tens => rw [toNat_highNibble, digits]; omega
  case ones => rw [toNat_and_lowMask _ _ 4 rfl, digits]; omega
  case bound => omega
  case bit7 =>
    have msb := BitVec.msb_eq_decide (packBcd d.toNat)
    rw [BitVec.msb_eq_getLsbD_last] at msb
    rw [msb, digits, decide_eq_true_eq]
    omega

/-! ### `decode` -/

/-- The value of a byte that stands for `n` under width tag `t` (R85). -/
def tagValue (t n : Nat) : Nat := if t ≤ 4 then n % 2 ^ t else n % 16 + n / 16 % 2 ^ (t - 4) * 10

theorem bcdDecode_of_valid {t : Int} (raw : Byte) (h0 : 0 ≤ t) (h8 : t ≤ 8) :
    bcdDecode t raw = some (tagValue t.toNat raw.toNat) := by
  have low (mask : Byte) (k : Nat) (hm : (0x0F &&& mask).toNat = 2 ^ k - 1) :
      (raw &&& 0x0F &&& mask).toNat = raw.toNat % 2 ^ k := by
    rw [BitVec.and_assoc, toNat_and_lowMask _ _ k hm]
  interval_cases t
  · simp [bcdDecode, tagValue, Nat.mod_one]
  · exact congrArg some (low 0x01 1 rfl)
  · exact congrArg some (low 0x03 2 rfl)
  · exact congrArg some (low 0x07 3 rfl)
  · exact congrArg some (onesDigit_eq raw)
  · exact congrArg some (congrArg₂ _ (onesDigit_eq raw) (tensPart_eq raw 0x10 1 rfl))
  · exact congrArg some (congrArg₂ _ (onesDigit_eq raw) (tensPart_eq raw 0x30 2 rfl))
  · exact congrArg some (congrArg₂ _ (onesDigit_eq raw) (tensPart_eq raw 0x70 3 rfl))
  · exact congrArg some (congrArg₂ _ (onesDigit_eq raw) (tensPart_eq raw 0xF0 4 rfl))

theorem bcdDecode_eq_none {t : Int} (raw : Byte) (h : t < 0 ∨ 8 < t) : bcdDecode t raw = none := by
  rcases h with h | h
  · exact if_pos h
  · obtain ⟨k, hk⟩ : ∃ k, t.toNat = k + 9 := ⟨t.toNat - 9, by omega⟩
    rw [bcdDecode, if_neg (by omega), hk]; rfl

/-- The value depends on no bit above the tag (R85). -/
theorem tagValue_congr {t n n' : Nat} (h : n % 2 ^ t = n' % 2 ^ t) : tagValue t n = tagValue t n' := by
  rw [tagValue, tagValue]
  split
  · exact h
  · have split16 : 2 ^ t = 16 * 2 ^ (t - 4) := (pow_mul_pow_sub 2 (m := 4) (by omega)).symm
    rw [split16] at h
    have ones : n % 16 = n' % 16 := Nat.ModEq.of_mul_right _ h
    rw [ones, ← Nat.mod_mul_right_div_self n, h, Nat.mod_mul_right_div_self n']

/-- `decode` inside an operation, under a tag: the value is returned and no state is written (R85). -/
theorem decodeByte_of_some {t : Int} {raw : Byte} {n : Nat} (h : bcdDecode t raw = some n) (s : State) :
    decodeByte t raw s = .ok (BitVec.ofNat 32 n) s := by
  rw [decodeByte, h]; rfl

/-- `decode` inside an operation, under what is no tag (R85, 60_exceptions.md R120). -/
theorem decodeByte_of_none {t : Int} {raw : Byte} (h : bcdDecode t raw = none) (s : State) :
    decodeByte t raw s = .error (.raised .configuration) s := by
  rw [decodeByte, h]; rfl

/-- Two bytes that agree in the bits a tag counts decode alike; under a tag that is none, both have no value (R85). -/
theorem bcdDecode_congr {t : Int} {raw raw' : Byte} (h : raw.toNat % 2 ^ t.toNat = raw'.toNat % 2 ^ t.toNat) :
    bcdDecode t raw = bcdDecode t raw' := by
  by_cases ht : 0 ≤ t ∧ t ≤ 8
  · obtain ⟨h0, h8⟩ := ht
    rw [bcdDecode_of_valid raw h0 h8, bcdDecode_of_valid raw' h0 h8, tagValue_congr h]
  · rw [bcdDecode_eq_none raw (by omega), bcdDecode_eq_none raw' (by omega)]

/-- Settles O22: `tagValue` is the table, and it reads only the number the low bits stand for. -/
theorem decodeFollowsTheTagTable : Obligations.DecodeFollowsTheTagTable := by
  refine fun t raw raw' => ⟨fun h0 h4 => ?low, fun h5 h8 => ?twoDigits, fun h => ?invalid, bcdDecode_congr,
    fun n h => ⟨bcdDecode_le h, decodeByte_of_some h⟩⟩
  case low => rw [bcdDecode_of_valid raw h0 (by omega), tagValue, if_pos (by omega)]
  case twoDigits => rw [bcdDecode_of_valid raw (by omega) h8, tagValue, if_neg (by omega)]
  case invalid =>
    have noValue := bcdDecode_eq_none raw h
    exact ⟨noValue, decodeByte_of_none noValue⟩

/-! ### The round trip -/

/-- The decimals that come back through the codec under width tag `t` are those below this number (R87). -/
def roundTripBound (t : Nat) : Nat := if t ≤ 4 then min 10 (2 ^ t) else 10 * 2 ^ (t - 4)

/-- A packed decimal has the value it was packed from exactly below the bound: up to tag 4 the value is part of the ones
digit, and above it the tens digit comes back where its low `t - 4` bits are all of it. -/
theorem tagValue_digits_iff (t v : Nat) : tagValue t (v / 10 * 16 + v % 10) = v ↔ v < roundTripBound t := by
  rw [tagValue, roundTripBound]
  split
  · interval_cases t <;> omega
  · have ones : (v / 10 * 16 + v % 10) % 16 = v % 10 := by omega
    have tens : (v / 10 * 16 + v % 10) / 16 = v / 10 := by omega
    have kept := Nat.mod_eq_iff_lt (m := v / 10) (Nat.two_pow_pos (t - 4)).ne'
    rw [ones, tens, mul_comm 10, ← Nat.div_lt_iff_lt_mul (by decide), ← kept]
    omega

theorem bcdDecode_bcdEncode_iff {t : Int} (h0 : 0 ≤ t) (h8 : t ≤ 8) {v : Nat} {b : Byte} (h : bcdEncode v = some b) :
    bcdDecode t b = some v ↔ v < roundTripBound t.toNat := by
  obtain ⟨-, digits⟩ := toNat_of_bcdEncode h
  rw [bcdDecode_of_valid b h0 h8, digits, Option.some.injEq, tagValue_digits_iff]

/-- Flag bits above a tag do not change what is decoded (R87). -/
theorem bcdDecode_or_flags {t : Int} {b flags : Byte} (h : flags.toNat % 2 ^ t.toNat = 0) :
    bcdDecode t (b ||| flags) = bcdDecode t b := by
  apply bcdDecode_congr
  rw [BitVec.toNat_or, Nat.or_mod_two_pow, h, Nat.or_zero]

/-- Settles O23: the bound of each tag is `roundTripBound`, cut off at 100 where `encode` ends, and the domain of each field
lies below the bound of its tag. -/
theorem decodeOfEncodeHoldsBelowTheTagsBound : Obligations.DecodeOfEncodeHoldsBelowTheTagsBound := by
  refine ⟨fun tb htb => ?bounds, fun f hf => ?fields⟩
  case bounds =>
    have table : 0 ≤ tb.1 ∧ tb.1 ≤ 8 ∧ tb.2 = min 100 (roundTripBound tb.1.toNat) := by revert tb; decide
    obtain ⟨h0, h8, bound⟩ := table
    intro v b hb
    obtain ⟨hv, -⟩ := toNat_of_bcdEncode hb
    rw [bcdDecode_bcdEncode_iff h0 h8 hb, bound]
    omega
  case fields =>
    have domain : 0 ≤ f.widthTag ∧ f.widthTag ≤ 8 ∧ 0 ≤ f.min.toInt ∧
        f.max.toInt < roundTripBound f.widthTag.toNat := by revert f; decide
    obtain ⟨h0, h8, hmin, hmax⟩ := domain
    rintro v b flags ⟨hlo, hhi⟩ hb hflags
    rw [← Int.toNat_of_nonneg (hmin.trans hlo)] at hb
    rw [bcdDecode_or_flags hflags, bcdDecode_bcdEncode_iff h0 h8 hb]
    omega

/-! ### The validator -/

/-- Settles O24: `inRange` is the signed comparison, and `checkRange` returns or raises by it. -/
theorem checkRangeComparesSignedInclusive : Obligations.CheckRangeComparesSignedInclusive := by
  refine fun lo hi v s => ⟨fun h => ?inside, fun h => ?outside⟩
  case inside => rw [checkRange, if_pos ((inRange_iff lo hi v).mpr h)]; rfl
  case outside => rw [checkRange, if_neg (by simp [(inRange_false_iff lo hi v).mpr h])]; rfl

end Sys2Proof.Machine
end

section
/-! The three operations of the codec and the validator, which touch no pin and need no handle (42_codec_validator.md R89 to
R91). -/

namespace Sys2Proof.Machine

/-- An idle block accepts, with or without a handle, an instruction that needs none, when its operands are admitted
(R61). -/
theorem Idle.accepts_operationOf {s : State} (r : Idle s) {i : Instr} (hi : ∀ c d e, i ≠ .setup c d e)
    (hn : needsHandle i = false) (hw : i.wellFormed = true) : s.acceptance (operationOf i).head = none :=
  (acceptance_operationOf_iff i s).mpr
    ⟨r.faultKind, fun ⟨c, d, e, h⟩ => absurd h (hi c d e), by simp [hn], hw⟩

theorem wellFormed_bcdEnc_iff (d : Word) : (Instr.bcdEnc d).wellFormed = true ↔ Within 0 99 d := by
  simp [Instr.wellFormed, Within]

/-- Settles O25: acceptance asks for an operand in 0..99, and then the body answers its packed byte. -/
theorem bcdEncAnswersThePackedByte : Obligations.BcdEncAnswersThePackedByte := by
  refine fun s d r => ⟨fun h => ?answered, fun h => ?refused⟩
  case answered =>
    have accepted := r.accepts_operationOf (i := .bcdEnc d) nofun rfl ((wellFormed_bcdEnc_iff d).mpr h)
    obtain ⟨-, h99⟩ := h
    rw [← packBcd_eq_bcdOf h99]
    exact completes (i := .bcdEnc d) nofun r accepted rfl rfl (List.append_nil _).symm
  case refused =>
    refine exec_refused r.busy r.cut fun accepted => h ?_
    obtain ⟨-, -, -, hw⟩ := (acceptance_operationOf_iff _ s).mp accepted
    exact (wellFormed_bcdEnc_iff d).mp hw

/-- The body of BCD_DEC decodes the byte it latched under the tag it latched (R90). -/
theorem alike_bcdDec (w : Word) (raw : Byte) (s : State) :
    Alike (deedOf (.bcdDec w raw)) (.decodeByte w.toInt raw) (started (.bcdDec w raw) s) :=
  (Deed.alike_given rfl).trans (Deed.alike_givenByte (overlay_low _ raw))

/-- Settles O26: BCD_DEC is accepted with every operand, and ends as `decode` does. -/
theorem bcdDecAnswersOrRaises : Obligations.BcdDecAnswersOrRaises := by
  intro s w raw r
  have accepted := r.accepts_operationOf (i := .bcdDec w raw) nofun rfl rfl
  refine ⟨fun n h => ?answered, fun h => ?raised⟩
  case answered =>
    have value : (Deed.decodeByte w.toInt raw).out (started (.bcdDec w raw) s) = .ok (BitVec.ofNat 32 n) := by
      simp [Deed.decodeByte, h]
    exact completes_as (i := .bcdDec w raw) nofun r accepted (alike_bcdDec w raw s) value rfl (List.append_nil _).symm
  case raised =>
    have error : (Deed.decodeByte w.toInt raw).out (started (.bcdDec w raw) s) = .error .configuration := by
      simp [Deed.decodeByte, bcdDecode_eq_none raw h]
    exact fails_as (i := .bcdDec w raw) nofun r accepted (alike_bcdDec w raw s) error rfl (List.append_nil _).symm

/-- The body of CHK_RNG checks the value it latched against the bounds it latched (R91). -/
theorem alike_chkRng (lo hi v : Word) (s : State) :
    Alike (deedOf (.chkRng lo hi v)) (.checkRange lo hi v) (started (.chkRng lo hi v) s) :=
  ⟨rfl, rfl, rfl⟩

/-- Settles O27: CHK_RNG is accepted with every operand, and ends as `checkRange` does. -/
theorem chkRngAnswersOrRaises : Obligations.ChkRngAnswersOrRaises := by
  intro s lo hi v r
  have accepted := r.accepts_operationOf (i := .chkRng lo hi v) nofun rfl rfl
  refine ⟨fun hlo hhi => ?answered, fun h => ?raised⟩
  case answered =>
    have value : (Deed.checkRange lo hi v).out (started (.chkRng lo hi v) s) = .ok v :=
      if_pos ((inRange_iff lo hi v).mpr ⟨hlo, hhi⟩)
    exact completes_as (i := .chkRng lo hi v) nofun r accepted (alike_chkRng lo hi v s) value rfl (List.append_nil _).symm
  case raised =>
    have error : (Deed.checkRange lo hi v).out (started (.chkRng lo hi v) s) = .error .range :=
      if_neg (by simp [(inRange_false_iff lo hi v).mpr h])
    exact fails_as (i := .chkRng lo hi v) nofun r accepted (alike_chkRng lo hi v s) error rfl (List.append_nil _).symm

end Sys2Proof.Machine
end

section
/-! The single bits of a register byte (30_encoding.md R58): the flags that are read, and bit 7 beside the packed digits
of a byte that is written. -/

namespace Sys2Proof.Machine

/-! ### A flag as an answer -/

/-- Bit `k`, moved down to bit 0 and taken alone, as the answer it becomes. -/
theorem zext8_bit (b : Byte) (k : Nat) : zext8 ((b >>> k) &&& 1) = if b.getLsbD k then 1 else 0 := by
  have alone : (b >>> k) &&& 1 = (BitVec.ofBool (b.getLsbD k)).setWidth 8 := by
    simpa using BitVec.and_one_eq_setWidth_ofBool_getLsbD (x := b >>> k)
  rw [alone]
  cases b.getLsbD k <;> rfl

/-- The 24-hour flag is bit 7 inverted (R110). -/
theorem zext8_mode24 (b : Byte) : zext8 (mode24 b) = if !b.getLsbD 7 then 1 else 0 := by
  have inverted : zext8 (mode24 b) = zext8 (bit7 b) ^^^ 1 := BitVec.setWidth_xor ..
  rw [inverted, bit7, zext8_bit]
  cases b.getLsbD 7 <;> rfl

/-! ### Bit 7 beside packed digits -/

/-- The digits of a decimal up to 79 leave bit 7 clear (R103). -/
theorem bcdOf_and_7F {v : Word} (h : v.toInt ≤ 79) : bcdOf v &&& 0x7F = bcdOf v := by
  rw [← packBcd_eq_bcdOf (by omega)]
  exact force24_packBcd (by omega)

theorem bcdOf_getLsbD_seven {v : Word} (h : v.toInt ≤ 79) : (bcdOf v).getLsbD 7 = false := by
  rw [← bcdOf_and_7F h, BitVec.getLsbD_and]
  exact Bool.and_false _

/-- A byte whose bit 7 is clear, joined with bit 7 of another, has that bit 7 (R101). -/
theorem getLsbD_seven_or_and_80 {b : Byte} (hb : b.getLsbD 7 = false) (cur : Byte) :
    (b ||| (cur &&& 0x80)).getLsbD 7 = cur.getLsbD 7 := by
  rw [BitVec.getLsbD_or, hb, BitVec.getLsbD_and]
  exact Bool.and_true _

/-- Joining bit 7 of another byte leaves the low seven bits alone (R101). -/
theorem or_and_80_and_7F (b cur : Byte) : (b ||| (cur &&& 0x80)) &&& 0x7F = b &&& 0x7F := by
  have apart : cur &&& 0x80 &&& 0x7F = 0#8 := by
    rw [BitVec.and_assoc]
    exact BitVec.and_zero
  rw [BitVec.and_or_distrib_right, apart, BitVec.or_zero]

end Sys2Proof.Machine
end

section
/-! The register reads (43_register_accessors.md R92, R94 to R100, R108, R110 to R112): one read transaction, then the
field's decoding and range check, or a single bit. -/

namespace Sys2Proof.Machine

namespace Deed

theorem fieldRead_temps (f : Field) (s : State) : ((fieldRead f).nxt s).temps = s.temps := by
  rw [fieldRead_nxt, regRead_temps]

theorem fieldRead_pins (f : Field) (s : State) : ((fieldRead f).nxt s).image = restingPins .input := by
  rw [fieldRead_nxt, regRead_pins]

theorem fieldRead_diag (f : Field) (s : State) : ((fieldRead f).nxt s).diag = s.diag := by
  rw [fieldRead_nxt, regRead_diag]

end Deed

section
variable {i : Instr} {wAddr addr : Byte} {min max : Word} {tag : Int} {lo hi : Nat}
  (notSetup : ∀ c d e, i ≠ .setup c d e) (admitted : i.wellFormed = true)
  (body : deedOf i = .fieldRead ⟨wAddr, addr, min, max, tag⟩) (hmin : min.toInt = lo) (hmax : max.toInt = hi)

include notSetup admitted body hmin hmax

/-- An instruction whose body is the generic read of a field answers a decoded value in the field's domain (R92). -/
theorem answersField_of_fieldRead : AnswersField i (operationOf i).head.opc addr tag lo hi := by
  intro s n r decoded hlo hhi
  have value := Deed.fieldRead_ok (f := ⟨wAddr, addr, min, max, tag⟩) (s := started i s) decoded
    (by dsimp only; omega) (by dsimp only; omega)
  obtain ⟨t, ht, hc, htemps, hpins⟩ := completes_as notSetup r.idle (r.accepts_operationOf notSetup admitted)
    (body ▸ ⟨rfl, rfl, rfl⟩) value (Deed.fieldRead_evs ..) (ds := [])
    ((Deed.fieldRead_diag ..).trans (List.append_nil _).symm)
  exact ⟨t, ht, hc, htemps.trans (Deed.fieldRead_temps ..), hpins.trans (Deed.fieldRead_pins ..)⟩

/-- Such an instruction raises RangeError on a decoded value outside the domain, when its transaction is over (R92,
R121). -/
theorem rejectsField_of_fieldRead : RejectsField i (operationOf i).head.opc addr tag lo hi := by
  intro s n r decoded outside
  have error := Deed.fieldRead_bad (f := ⟨wAddr, addr, min, max, tag⟩) (s := started i s) decoded (by dsimp only; omega)
  obtain ⟨t, ht, hc, htemps, hpins⟩ := fails_as notSetup r.idle (r.accepts_operationOf notSetup admitted)
    (body ▸ ⟨rfl, rfl, rfl⟩) error (Deed.fieldRead_evs ..) (ds := [])
    ((Deed.fieldRead_diag ..).trans (List.append_nil _).symm)
  exact ⟨t, ht, hc, htemps.trans (Deed.fieldRead_temps ..), hpins.trans (Deed.fieldRead_pins ..)⟩

end

/-- An instruction whose body is a flag read answers the bit, and no byte makes it fail (R108, R110 to R112). -/
theorem answersFlag_of_flagRead {i : Instr} {addr : Byte} {flag : Byte → Byte} {bit : Byte → Bool}
    (notSetup : ∀ c d e, i ≠ .setup c d e) (admitted : i.wellFormed = true) (body : deedOf i = .flagRead addr flag)
    (hbit : ∀ b, zext8 (flag b) = if bit b then 1 else 0) : AnswersFlag i (operationOf i).head.opc addr bit := by
  intro s r
  have value : (Deed.flagRead addr flag).out (started i s) = .ok (if bit (s.nextByte 0) then 1 else 0) :=
    congrArg Except.ok (hbit (s.nextByte 0))
  obtain ⟨t, ht, hc, htemps, hpins⟩ := completes_as notSetup r.idle (r.accepts_operationOf notSetup admitted)
    (body ▸ ⟨rfl, rfl, rfl⟩) value (Deed.toWord_evs ..) (ds := []) (List.append_nil _).symm
  exact ⟨t, ht, hc, htemps, hpins.trans (Deed.regRead_pins ..)⟩

/-- Settles O28: the body of each is the generic read of its field, and the decoded value passes the range check. -/
theorem fieldReadsAnswerTheDecodedValue : Obligations.FieldReadsAnswerTheDecodedValue := by
  refine ⟨?_, ?_, ?_, ?_, ?_, ?_, ?_⟩ <;>
  exact answersField_of_fieldRead nofun rfl rfl rfl rfl

/-- Settles O29: the range check comes after the transaction, and does not let the decoded value pass. -/
theorem fieldReadsRejectABadByte : Obligations.FieldReadsRejectABadByte := by
  refine ⟨?_, ?_, ?_, ?_, ?_, ?_, ?_⟩ <;>
  exact rejectsField_of_fieldRead nofun rfl rfl rfl rfl

/-- Settles O35: both are flag reads of bit 7. -/
theorem haltAndProtectFlagsAreBitSeven : Obligations.HaltAndProtectFlagsAreBitSeven :=
  ⟨answersFlag_of_flagRead nofun rfl rfl fun b => zext8_bit b 7,
    answersFlag_of_flagRead nofun rfl rfl fun b => zext8_bit b 7⟩

/-- Settles O36: both are flag reads of the hours register, of bit 7 inverted and of bit 5. -/
theorem hourModeFlagsAreBitsSevenAndFive : Obligations.HourModeFlagsAreBitsSevenAndFive :=
  ⟨answersFlag_of_flagRead nofun rfl rfl zext8_mode24, answersFlag_of_flagRead nofun rfl rfl fun b => zext8_bit b 5⟩

end Sys2Proof.Machine
end

section
/-! The register writes (43_register_accessors.md R93, R101 to R107, R109, R113): an operand is checked, then a byte
made of it, and for the seconds register of the byte just read, is written and verified. -/

namespace Sys2Proof.Machine

/-! ### The field writes -/

section
variable {i : Word → Instr} {opc addr : Byte} {min max : Word} {lo hi : Int}
  (notSetup : ∀ v c d e, i v ≠ .setup c d e) (admitted : ∀ v, (i v).wellFormed = true)
  (hopc : ∀ v, (operationOf (i v)).head.opc = opc)

include notSetup admitted hopc

/-- An instruction whose body checks its operand and sends `g` of the packed byte writes the packed byte, where `g`
changes no byte of the domain (R93, R103). -/
theorem writesField_of_packedWrite {g : Byte → Byte}
    (al : ∀ v s, Alike (deedOf (i v)) (.packedWrite min max addr g v) (started (i v) s))
    (hmin : min.toInt = lo) (hmax : max.toInt = hi)
    (sent : ∀ v : Word, v.toInt ≤ hi → g (packBcd v.toInt.toNat) = bcdOf v) : WritesField i opc addr lo hi := by
  rintro s v r ⟨hlo, hhi⟩
  have passes : inRange min max v = true := (inRange_iff ..).mpr (by omega)
  have body := al v s
  rw [Deed.packedWrite_ok passes, sent v hhi] at body
  exact hopc v ▸ completes_writeAndCheck (notSetup v) (admitted v) r body

/-- An instruction that ends in RangeError where its operand does not pass does so before any event (R93, R121). -/
theorem rejectsOperand_of_checked {d : Word → Deed Word}
    (al : ∀ v s, Alike (deedOf (i v)) (d v) (started (i v) s)) (hmin : min.toInt = lo) (hmax : max.toInt = hi)
    (bad : ∀ v, inRange min max v = false → d v = .fatal .range) : RejectsOperand i opc lo hi := by
  intro s v r outside
  have stops : inRange min max v = false := (inRange_false_iff ..).mpr (by unfold Within at outside; omega)
  have body := al v s
  rw [bad v stops] at body
  have accepted := r.accepts_operationOf (notSetup v) (admitted v)
  exact hopc v ▸ fails_as (notSetup v) r.idle accepted body rfl rfl (List.append_nil _).symm

end

/-- Settles O31: each sends the packed byte as it is. -/
theorem fieldWritesSendThePackedByte : Obligations.FieldWritesSendThePackedByte := by
  refine ⟨?_, ?_, ?_, ?_, ?_⟩ <;>
  exact writesField_of_packedWrite nofun (fun _ => rfl) (fun _ => rfl) (fun _ _ => Deed.alike_given rfl) rfl rfl
    fun _ h => packBcd_eq_bcdOf (h.trans (by decide))

/-- Settles O32: clearing bit 7 changes no packed byte of the hours, which have it clear. -/
theorem wrHourForcesTwentyFourHourMode : Obligations.WrHourForcesTwentyFourHourMode := by
  refine ⟨?sends, fun v ⟨_, h24⟩ => bcdOf_getLsbD_seven (by omega)⟩
  case sends =>
    refine writesField_of_packedWrite nofun (fun _ => rfl) (fun _ => rfl) (fun _ _ => Deed.alike_given rfl)
      rfl rfl fun v h24 => ?_
    rw [packBcd_eq_bcdOf (by omega)]
    exact bcdOf_and_7F (by omega)

/-- Settles O33: the range check of each comes first and ends it. -/
theorem fieldWritesRejectABadOperand : Obligations.FieldWritesRejectABadOperand := by
  refine ⟨?_, ?_, ?_, ?_, ?_, ?_, ?_⟩ <;>
  exact rejectsOperand_of_checked nofun (fun _ => rfl) (fun _ => rfl) (fun _ _ => Deed.alike_given rfl) rfl rfl
    fun _ => Deed.checked_bad

/-! ### The seconds register, read and written back -/

/-- An instruction whose body reads the seconds register and writes it back through `g` answers the byte it sent, and
T_CUR and T_W hold the byte heard and the byte sent (R101, R109). -/
theorem completes_modifySeconds {i : Instr} {g : Byte → Byte} {b : Byte} (hi : ∀ c d e, i ≠ .setup c d e)
    (admitted : i.wellFormed = true) {s : State} (r : Ready s)
    (al : Alike (deedOf i) (.modifySeconds g) (started i s))
    (sent : g (s.nextByte 0) = b) :
    ∃ t, exec i s = .next t ∧
      Completes s t (operationOf i).head.opc (b.setWidth 32)
        (regReadEvents s.handle 0x81 (s.nextByte 0) ++ writeAndCheckEvents s.handle 0x80 b (s.nextByte 1))
        (mismatches 0x80 b (s.nextByte 1)) ∧
      t.temps = { s.temps with cur := s.nextByte 0, w := b } ∧ t.image = restingPins .input := by
  subst sent
  obtain ⟨t, ht, hc, htemps, hpins⟩ := completes_as hi r.idle (r.accepts_operationOf hi admitted) al
    (Deed.modifySeconds_out ..) (Deed.modifySeconds_evs ..) (Deed.modifySeconds_diag ..)
  exact ⟨t, ht, hc, htemps.trans (Deed.modifySeconds_temps ..), hpins.trans (Deed.modifySeconds_pins ..)⟩

/-- Settles O34: the operand passes, and what goes out is its packed byte, whose bit 7 is clear, with bit 7 of the byte
heard. -/
theorem wrSecKeepsTheHaltBit : Obligations.WrSecKeepsTheHaltBit := by
  rintro s v r ⟨h0, h59⟩ cur b
  have clear := bcdOf_getLsbD_seven (v := v) (by omega)
  refine ⟨?sends, getLsbD_seven_or_and_80 clear cur, (or_and_80_and_7F _ cur).trans (bcdOf_and_7F (by omega))⟩
  case sends =>
    have body : Alike (deedOf (.wrSec v)) (.wrSec v) (started (.wrSec v) s) := Deed.alike_given rfl
    rw [Deed.wrSec_ok ((inRange_iff 0 59 v).mpr ⟨h0, h59⟩), packBcd_eq_bcdOf (by omega)] at body
    exact completes_modifySeconds (i := .wrSec v) nofun rfl r body rfl

/-! ### The flag writes -/

/-- A ready block refuses an instruction whose operands are not admitted (R61). -/
theorem Ready.refuses {s : State} (r : Ready s) {i : Instr} (hw : i.wellFormed ≠ true) :
    exec i s = .next { s with result := 0, rspKind := .refused } := by
  refine exec_refused r.idle.busy r.idle.cut fun accepted => hw ?_
  obtain ⟨-, -, -, admitted⟩ := (acceptance_operationOf_iff _ s).mp accepted
  exact admitted

theorem wellFormed_wrCh_iff (h : Word) : (Instr.wrCh h).wellFormed = true ↔ h = 0 ∨ h = 1 := by
  simp [Instr.wellFormed]

theorem wellFormed_wrWp_iff (p : Word) : (Instr.wrWp p).wellFormed = true ↔ p = 0 ∨ p = 1 := by
  simp [Instr.wellFormed]

/-- A flag in bit 7, zeros elsewhere (R109, R113). -/
theorem protectByte_of_flag {h : Word} (flag : h = 0 ∨ h = 1) :
    protectByte (h.setWidth 8) = if h = 1 then 0x80 else 0x00 := by
  rcases flag with rfl | rfl <;> rfl

/-- Settles O37: the body of WR_CH is a write back of the seconds register with the new bit 7; acceptance asks for a
flag. -/
theorem wrChReplacesTheHaltBit : Obligations.WrChReplacesTheHaltBit := by
  refine fun s h r => ⟨fun flag => ?answered, fun ⟨h0, h1⟩ => ?refused⟩
  case answered =>
    exact completes_modifySeconds (i := .wrCh h) nofun ((wellFormed_wrCh_iff h).mpr flag) r (Deed.alike_given rfl)
      (congrArg (s.nextByte 0 &&& 0x7F ||| ·) (protectByte_of_flag flag))
  case refused => exact r.refuses (mt (wellFormed_wrCh_iff h).mp (not_or.mpr ⟨h0, h1⟩))

/-- Settles O38: the body of WR_WP is one write with verification of the flag in bit 7; acceptance asks for a flag. -/
theorem wrWpWritesTheFlagAlone : Obligations.WrWpWritesTheFlagAlone := by
  refine fun s p r => ⟨fun flag => ?answered, fun ⟨p0, p1⟩ => ?refused⟩
  case answered =>
    have body : Alike (deedOf (.wrWp p)) (.wrWp p) (started (.wrWp p) s) := Deed.alike_given rfl
    rw [Deed.wrWp, protectByte_of_flag flag] at body
    exact completes_writeAndCheck (i := .wrWp p) nofun ((wellFormed_wrWp_iff p).mpr flag) r body
  case refused => exact r.refuses (mt (wellFormed_wrWp_iff p).mp (not_or.mpr ⟨p0, p1⟩))

end Sys2Proof.Machine
end

section
/-! SETUP (44_date_setup.md R114; 92_eei_decisions.md D8): the three pins are checked, then the handle is stored. -/

namespace Sys2Proof.Machine

theorem Alike.outcome {d e : Deed Word} {b : State} (al : Alike d e b) : d.outcome b = e.outcome b := by
  unfold Deed.outcome
  rw [al.out, al.nxt]

/-- A block without a handle runs SETUP on the operands it latched, whatever they are (R61). -/
theorem exec_setup {s : State} (r : Idle s) (unset : s.configured = false) (c d e : Word) :
    exec (.setup c d e) s = .next ((Deed.setup c d e).outcome (started (.setup c d e) s)) := by
  have accepted : s.acceptance (operationOf (.setup c d e)).head = none :=
    (acceptance_operationOf_iff _ s).mpr ⟨r.faultKind, fun _ => unset, nofun, rfl⟩
  rw [exec_undisturbed r.busy accepted r.cut, ended_eq]
  exact congrArg Host.Outcome.next (setup_alike c d e s).outcome

/-- Narrowing a word to a pin number drops its high bits (30_encoding.md R48). -/
theorem pinOf_eq_ofInt (v : Word) : pinOf v = BitVec.ofInt 8 v.toInt := by
  have low : BitVec.ofInt 8 v.toInt = v.setWidth 8 := BitVec.signExtend_eq_setWidth_of_le v (by decide)
  rw [low, pinOf, BitVec.setWidth_eq_extractLsb' (by decide)]

/-- RESULT of SETUP holds one pin number in each of its three low bytes (R114). -/
theorem packHandle_toNat (clk dat ce : Byte) :
    (packHandle ⟨clk, dat, ce⟩).toNat = ce.toNat * 65536 + dat.toNat * 256 + clk.toNat := by
  change ((ce ++ dat ++ clk).setWidth 32).toNat = _
  rw [BitVec.toNat_setWidth, BitVec.toNat_append, BitVec.toNat_append, ← Nat.shiftLeft_add_eq_or_of_lt dat.isLt,
    ← Nat.shiftLeft_add_eq_or_of_lt clk.isLt]
  omega

/-- Settles O42: the three checks pass, and what remains of the body stores the handle and issues its seven events. -/
theorem setupStoresTheHandle : Obligations.SetupStoresTheHandle := by
  intro s c d e r unset hc hd he h
  have hh : h = ⟨pinOf c, pinOf d, pinOf e⟩ := by simp only [h, pinOf_eq_ofInt]
  rw [hh]
  have run := exec_setup r unset c d e
  rw [setup_ok hc hd he] at run
  have clk := pinOf_toNat hc
  have dat := pinOf_toNat hd
  have ce := pinOf_toNat he
  have packed := packHandle_toNat (pinOf c) (pinOf d) (pinOf e)
  have answer : (packHandle ⟨pinOf c, pinOf d, pinOf e⟩).toInt = e.toInt * 65536 + d.toInt * 256 + c.toInt := by
    rw [BitVec.toInt_eq_toNat_of_lt (by omega)]
    omega
  exact ⟨_, run, rfl, answer, rfl, rfl, clk, dat, ce, rfl, setup_image .., rfl, ⟨rfl, rfl, r.phase, rfl⟩, ⟨rfl, rfl, rfl⟩,
    r.faultKind, rfl, rfl, rfl, rfl⟩

/-- Settles O43: a check that does not pass ends the body before anything is stored; a block with a handle does not
accept SETUP. -/
theorem setupRejectsABadPin : Obligations.SetupRejectsABadPin := by
  refine fun s c d e r => ⟨fun unset bad => ?raised, fun set => ?refused⟩
  case raised =>
    have run := exec_setup r unset c d e
    rw [setup_bad bad] at run
    exact ⟨_, run, ⟨⟨rfl, rfl, (List.append_nil _).symm, (List.append_nil _).symm, rfl, ⟨rfl, rfl, r.phase, rfl⟩,
      ⟨rfl, rfl, rfl⟩, rfl, rfl, rfl, rfl⟩, rfl⟩, rfl, rfl⟩
  case refused =>
    refine exec_refused r.busy r.cut fun accepted => ?_
    obtain ⟨-, unset, -, -⟩ := (acceptance_operationOf_iff _ s).mp accepted
    exact Bool.false_ne_true ((unset ⟨c, d, e, rfl⟩).symm.trans set)

end Sys2Proof.Machine
end

section
/-! A part of WR_DATE as what it leaves behind (44_date_setup.md R115): its events, its diagnostics, its effect on the
temporaries, and how many bytes it hears. -/

namespace Sys2Proof.Machine

/-- What a part of WR_DATE leaves behind. -/
@[ext] structure Line where
  events : List Event
  diag : List Diagnostic
  temps : Temps → Temps
  heard : Nat

namespace Line

/-- Nothing. -/
def idle : Line := ⟨[], [], id, 0⟩

/-- One line and then another. -/
def followedBy (l m : Line) : Line :=
  ⟨l.events ++ m.events, l.diag ++ m.diag, m.temps ∘ l.temps, l.heard + m.heard⟩

/-- The lines of the list, in order. -/
def all : List Line → Line
  | [] => idle
  | l :: ls => l.followedBy (all ls)

@[simp] theorem followedBy_idle (l : Line) : l.followedBy idle = l := by simp [followedBy, idle]

end Line

/-- In state `t` the handle and the operands are those of `s`, and `n` more bytes have been heard. -/
structure Follows (s : State) (n : Nat) (t : State) : Prop where
  handle : t.handle = s.handle
  a : t.a = s.a
  nextByte : ∀ j, t.nextByte j = s.nextByte (n + j)

theorem Follows.nextByte_zero {s t : State} {n : Nat} (h : Follows s n t) : t.nextByte 0 = s.nextByte n := h.nextByte 0

theorem Follows.refl (s : State) : Follows s 0 s := ⟨rfl, rfl, fun j => by rw [Nat.zero_add]⟩

theorem Follows.trans {s t u : State} {m n : Nat} (h : Follows s m t) (k : Follows t n u) : Follows s (m + n) u :=
  ⟨k.handle.trans h.handle, k.a.trans h.a, fun j => by rw [k.nextByte, h.nextByte, Nat.add_assoc]⟩

/-- From state `s` the deed ends with `o` and leaves `l` behind; once a byte has been heard, the pins are at rest after a
read (10_state.md R17). -/
structure Deed.Tells {α : Type} (d : Deed α) (s : State) (o : Except FatalError α) (l : Line) : Prop where
  out : d.out s = o
  evs : d.evs s = l.events
  diag : (d.nxt s).diag = s.diag ++ l.diag
  temps : (d.nxt s).temps = l.temps s.temps
  follows : Follows s l.heard (d.nxt s)
  pins : (d.nxt s).image = if l.heard = 0 then s.image else restingPins .input

namespace Deed

section
variable {α β : Type} {d : Deed α} {k : α → Deed β} {s : State} {l m : Line}

theorem Tells.value (f : State → α) (s : State) : (Deed.value f).Tells s (.ok (f s)) .idle :=
  ⟨rfl, rfl, (List.append_nil _).symm, rfl, .refl s, rfl⟩

theorem Tells.fatal (e : FatalError) (s : State) : (Deed.fatal e : Deed α).Tells s (.error e) .idle :=
  ⟨rfl, rfl, (List.append_nil _).symm, rfl, .refl s, rfl⟩

theorem Tells.andThen {v : α} {o : Except FatalError β} (hd : d.Tells s (.ok v) l) (hk : (k v).Tells (d.nxt s) o m) :
    (d.andThen k).Tells s o (l.followedBy m) := by
  have out : (d.andThen k).out s = (k v).out (d.nxt s) := by simp [Deed.andThen, hd.out]
  have nxt : (d.andThen k).nxt s = (k v).nxt (d.nxt s) := by simp [Deed.andThen, hd.out]
  have evs : (d.andThen k).evs s = d.evs s ++ (k v).evs (d.nxt s) := by simp [Deed.andThen, hd.out]
  refine ⟨out.trans hk.out, ?_, ?_, ?_, ?_, ?_⟩
  · rw [evs, hd.evs, hk.evs]; rfl
  · rw [nxt, hk.diag, hd.diag, List.append_assoc]; rfl
  · rw [nxt, hk.temps, hd.temps]; rfl
  · rw [nxt]; exact hd.follows.trans hk.follows
  · rw [nxt, hk.pins, hd.pins]
    by_cases silent : m.heard = 0 <;> simp [Line.followedBy, silent]

theorem Tells.andThen_error {e : FatalError} (hd : d.Tells s (.error e) l) : (d.andThen k).Tells s (.error e) l := by
  have out : (d.andThen k).out s = .error e := by simp [Deed.andThen, hd.out]
  have nxt : (d.andThen k).nxt s = d.nxt s := by simp [Deed.andThen, hd.out]
  have evs : (d.andThen k).evs s = d.evs s := by simp [Deed.andThen, hd.out]
  exact ⟨out, evs.trans hd.evs, nxt ▸ hd.diag, nxt ▸ hd.temps, nxt ▸ hd.follows, nxt ▸ hd.pins⟩

end

/-- The deeds of the list, in order; an error ends them. -/
def inOrder {α : Type} : List (Deed α) → Deed Unit
  | [] => value fun _ => ()
  | d :: ds => d.andThen fun _ => inOrder ds

end Deed

/-- A line of a procedure that a check decides: where the check passes it leaves `line` behind, elsewhere RangeError
ends it and leaves `failure` behind. -/
structure Check (α : Type) where
  deed : Deed α
  passes : Prop
  line : Line
  failure : Line

/-- The check decides its line in every state that is reached from `s` when `n` bytes have been heard. -/
def Check.Decides {α : Type} (c : Check α) (s : State) (n : Nat) : Prop :=
  ∀ t, Follows s n t →
    (c.passes → ∃ v, c.deed.Tells t (.ok v) c.line) ∧ (¬ c.passes → c.deed.Tells t (.error .range) c.failure)

/-- Each check of the list decides its line where the lines before it have passed. -/
def Decided {α : Type} (s : State) : Nat → List (Check α) → Prop
  | _, [] => True
  | n, c :: cs => c.Decides s n ∧ Decided s (n + c.line.heard) cs

section
variable {α : Type} {s t : State} {n : Nat} {cs : List (Check α)}

/-- Where every check passes, all lines are left behind. -/
theorem inOrder_passes (dec : Decided s n cs) (reached : Follows s n t) (pass : ∀ j (hj : j < cs.length), (cs[j]).passes) :
    (Deed.inOrder (cs.map Check.deed)).Tells t (.ok ()) (.all (cs.map Check.line)) := by
  induction cs generalizing n t with
  | nil => exact .value _ t
  | cons c cs ih =>
    obtain ⟨first, others⟩ := dec
    obtain ⟨v, hv⟩ := (first t reached).1 (pass 0 cs.length.succ_pos)
    exact hv.andThen (ih others (reached.trans hv.follows) fun j hj => pass (j + 1) (Nat.succ_lt_succ hj))

/-- The first check that does not pass ends everything: the lines before it are left behind, and what its own line has
done. -/
theorem inOrder_fails {k : Nat} (hk : k < cs.length) (dec : Decided s n cs) (reached : Follows s n t)
    (before : ∀ j (hj : j < k), (cs[j]).passes) (bad : ¬ (cs[k]).passes) :
    (Deed.inOrder (cs.map Check.deed)).Tells t (.error .range)
      (.all ((cs.take k).map Check.line ++ [(cs[k]).failure])) := by
  induction cs generalizing n t k with
  | nil => exact absurd hk (Nat.not_lt_zero k)
  | cons c cs ih =>
    obtain ⟨first, others⟩ := dec
    cases k with
    | zero =>
      have failed := ((first t reached).2 bad).andThen_error (k := fun _ => Deed.inOrder (cs.map Check.deed))
      rw [← Line.followedBy_idle c.failure] at failed
      exact failed
    | succ k =>
      obtain ⟨v, hv⟩ := (first t reached).1 (before 0 k.succ_pos)
      exact hv.andThen (ih (Nat.lt_of_succ_lt_succ hk) others (reached.trans hv.follows)
        (fun j hj => before (j + 1) (Nat.succ_lt_succ hj)) bad)

end

end Sys2Proof.Machine
end

section
/-! The thirteen lines of WR_DATE (44_date_setup.md R115 lines 1 to 13; 92_eei_decisions.md D16), each with the check that
decides it. -/

namespace Sys2Proof.Machine

/-! ### Lines 1 to 7: the writes -/

/-- One write with verification (R79). -/
def writeLine (h : Handle) (addr v got : Byte) : Line :=
  ⟨writeAndCheckEvents h addr v got, mismatches addr v got, fun T => { T with w := v }, 1⟩

/-- The seconds register, read and written back (R101). -/
def secondsLine (h : Handle) (v : Word) (cur got : Byte) : Line :=
  ⟨regReadEvents h 0x81 cur ++ writeAndCheckEvents h 0x80 (secondsByte v cur) got,
    mismatches 0x80 (secondsByte v cur) got, fun T => { T with cur := cur, w := secondsByte v cur }, 2⟩

/-- Lines 1 to 7, after the handle, the bytes heard and the operands. -/
def dateWriteChecks (h : Handle) (g : Nat → Byte) (x : Six) : List (Check Word) :=
  [⟨.wrWp 0, True, writeLine h 0x8E 0x00 (g 0), .idle⟩,
   ⟨.given 0 (.packedWrite 0 99 0x8C id), DateOperandLegal x 0, writeLine h 0x8C (bcdOf x.x0) (g 1), .idle⟩,
   ⟨.given 1 (.packedWrite 1 12 0x88 id), DateOperandLegal x 1, writeLine h 0x88 (bcdOf x.x1) (g 2), .idle⟩,
   ⟨.given 2 (.packedWrite 1 31 0x86 id), DateOperandLegal x 2, writeLine h 0x86 (bcdOf x.x2) (g 3), .idle⟩,
   ⟨.given 3 (.packedWrite 0 24 0x84 force24), DateOperandLegal x 3, writeLine h 0x84 (bcdOf x.x3) (g 4), .idle⟩,
   ⟨.given 4 (.packedWrite 0 59 0x82 id), DateOperandLegal x 4, writeLine h 0x82 (bcdOf x.x4) (g 5), .idle⟩,
   ⟨.given 5 .wrSec, DateOperandLegal x 5, secondsLine h x.x5 (g 6) (g 7), .idle⟩]

theorem Deed.writeAndCheck_tells (addr v : Byte) (s : State) :
    ((writeAndCheck addr v).toWord zext8).Tells s (.ok (zext8 v)) (writeLine s.handle addr v (s.nextByte 0)) where
  out := toWord_out ..
  evs := toWord_evs ..
  diag := rfl
  temps := rfl
  follows := ⟨rfl, rfl, fun j => (writeAndCheck_nextByte addr v s j).trans (congrArg s.nextByte (Nat.add_comm j 1))⟩
  pins := writeAndCheck_pins addr v s

theorem Deed.modifySeconds_tells (v : Word) (s : State) :
    (modifySeconds (keepHalt (bcdOf v))).Tells s (.ok (zext8 (secondsByte v (s.nextByte 0))))
      (secondsLine s.handle v (s.nextByte 0) (s.nextByte 1)) where
  out := modifySeconds_out ..
  evs := modifySeconds_evs ..
  diag := modifySeconds_diag ..
  temps := modifySeconds_temps ..
  follows := ⟨modifySeconds_handle .., modifySeconds_a ..,
    fun j => (modifySeconds_nextByte _ s j).trans (congrArg s.nextByte (Nat.add_comm j 2))⟩
  pins := modifySeconds_pins ..

/-- A deed that depends on an operand tells what it tells with that operand. -/
theorem Deed.Tells.given {k : Nat} {d : Word → Deed Word} {s : State} {o : Except FatalError Word} {l : Line}
    (h : (d (s.a.get k)).Tells s o l) : (Deed.given k d).Tells s o l :=
  ⟨h.out, h.evs, h.diag, h.temps, h.follows, h.pins⟩

/-- Line 1 clears write-protect and checks nothing (R113). -/
theorem wrWp_decides (s : State) (n : Nat) :
    Check.Decides ⟨.wrWp 0, True, writeLine s.handle 0x8E 0x00 (s.nextByte n), .idle⟩ s n :=
  fun t reached => ⟨fun _ => ⟨_, reached.handle ▸ reached.nextByte_zero ▸ Deed.writeAndCheck_tells 0x8E 0x00 t⟩,
    fun bad => absurd trivial bad⟩

/-- A field write is decided by its range check, which comes before any event (R93). -/
theorem packedWrite_decides {k : Nat} {lo hi : Word} {addr : Byte} {g : Byte → Byte} {legal : Prop} (s : State) (n : Nat)
    (hlegal : inRange lo hi (s.a.get k) = true ↔ legal)
    (sent : legal → g (packBcd (s.a.get k).toInt.toNat) = bcdOf (s.a.get k)) :
    Check.Decides ⟨.given k (.packedWrite lo hi addr g), legal,
      writeLine s.handle addr (bcdOf (s.a.get k)) (s.nextByte n), .idle⟩ s n := by
  intro t reached
  rw [← reached.a] at hlegal sent
  rw [← reached.handle, ← reached.a, ← reached.nextByte_zero]
  refine ⟨fun pass => ?passing, fun bad => .given ?failing⟩
  case passing =>
    have body : Deed.packedWrite lo hi addr g (t.a.get k) = (Deed.writeAndCheck addr (bcdOf (t.a.get k))).toWord zext8 := by
      rw [Deed.packedWrite_ok (hlegal.mpr pass), sent pass]
    exact ⟨_, .given (body ▸ Deed.writeAndCheck_tells ..)⟩
  case failing =>
    rw [Deed.packedWrite_bad (Bool.eq_false_iff.mpr (mt hlegal.mp bad))]
    exact .fatal ..

/-- Line 7 is decided by its range check, which comes before the preliminary read (R101). -/
theorem wrSec_decides (s : State) (n : Nat) :
    Check.Decides ⟨.given 5 .wrSec, DateOperandLegal s.a 5, secondsLine s.handle s.a.x5 (s.nextByte n) (s.nextByte (n + 1)),
      .idle⟩ s n := by
  intro t reached
  rw [← reached.handle, ← reached.a, ← reached.nextByte_zero, ← reached.nextByte 1]
  have check : inRange 0 59 t.a.x5 = true ↔ DateOperandLegal t.a 5 := inRange_iff 0 59 t.a.x5
  refine ⟨fun pass => ?passing, fun bad => .given ?failing⟩
  case passing =>
    have h59 : t.a.x5.toInt ≤ 59 := pass.2
    have told := Deed.modifySeconds_tells t.a.x5 t
    rw [← packBcd_eq_bcdOf (by omega), ← Deed.wrSec_ok (check.mpr pass)] at told
    exact ⟨_, .given told⟩
  case failing =>
    rw [Six.get_5, Deed.wrSec_bad (Bool.eq_false_iff.mpr (mt check.mp bad))]
    exact .fatal ..

/-- Clearing bit 7 changes no packed byte of the hours, which have it clear (R103). -/
theorem force24_packBcd_eq_bcdOf {v : Word} (h : v.toInt ≤ 79) : force24 (packBcd v.toInt.toNat) = bcdOf v :=
  (force24_packBcd (by omega)).trans (packBcd_eq_bcdOf (by omega))

theorem dateWrites_decided (s : State) : Decided s 0 (dateWriteChecks s.handle s.nextByte s.a) :=
  ⟨wrWp_decides s 0,
    packedWrite_decides s 1 (inRange_iff 0 99 _) fun ⟨_, h⟩ => packBcd_eq_bcdOf h,
    packedWrite_decides s 2 (inRange_iff 1 12 _) fun ⟨_, h⟩ => packBcd_eq_bcdOf (h.trans (by decide)),
    packedWrite_decides s 3 (inRange_iff 1 31 _) fun ⟨_, h⟩ => packBcd_eq_bcdOf (h.trans (by decide)),
    packedWrite_decides s 4 (inRange_iff 0 24 _) fun ⟨_, h⟩ => force24_packBcd_eq_bcdOf (h.trans (by decide)),
    packedWrite_decides s 5 (inRange_iff 0 59 _) fun ⟨_, h⟩ => packBcd_eq_bcdOf (h.trans (by decide)),
    wrSec_decides s 6, trivial⟩

/-- The check of a line passes when its operand, if it has one, lies in its domain. -/
theorem dateWriteChecks_passes {h : Handle} {g : Nat → Byte} {x : Six} {j : Nat} (hj : j < 7)
    (legal : ∀ k, k < j → DateOperandLegal x k) : ((dateWriteChecks h g x)[j]'hj).passes := by
  interval_cases j
  · trivial
  all_goals exact legal _ (Nat.lt_succ_self _)

/-- The check of line `k + 2` is that of its operand. -/
theorem dateWriteChecks_passes_succ (h : Handle) (g : Nat → Byte) (x : Six) {k : Nat} (hk : k < 6) :
    ((dateWriteChecks h g x)[k + 1]'(Nat.succ_lt_succ hk)).passes = DateOperandLegal x k := by
  interval_cases k <;> rfl

/-! ### Lines 8 to 13: the re-reads -/

/-- The decimal a byte stands for under the tag of a field (42_codec_validator.md R85). -/
def Field.decimal (f : Field) (raw : Byte) : Nat := tagValue f.widthTag.toNat raw.toNat

/-- A re-read of field `f` that hears `raw`: the decimal is stored in T_RB after the check, which comes after the
transaction (R92). -/
def rereadCheck (h : Handle) (f : Field) (store : Word → Six → Six) (raw : Byte) : Check Unit where
  deed := .reread f store
  passes := f.min.toInt ≤ f.decimal raw ∧ f.decimal raw ≤ f.max.toInt
  line := ⟨regReadEvents h f.readAddr raw, [],
    fun T => { T with rb := store (BitVec.ofNat 32 (f.decimal raw)) T.rb }, 1⟩
  failure := ⟨regReadEvents h f.readAddr raw, [], id, 1⟩

/-- Lines 8 to 13, after the handle and the bytes heard. -/
def dateRereadChecks (h : Handle) (g : Nat → Byte) : List (Check Unit) :=
  [rereadCheck h .year (fun v r => { r with x0 := v }) (g 8),
   rereadCheck h .month (fun v r => { r with x1 := v }) (g 9),
   rereadCheck h .mday (fun v r => { r with x2 := v }) (g 10),
   rereadCheck h .hours (fun v r => { r with x3 := v }) (g 11),
   rereadCheck h .minutes (fun v r => { r with x4 := v }) (g 12),
   rereadCheck h .seconds (fun v r => { r with x5 := v }) (g 13)]

theorem Deed.fieldRead_tells {f : Field} {s : State} {o : Except FatalError Word} (ho : (fieldRead f).out s = o) :
    (fieldRead f).Tells s o ⟨regReadEvents s.handle f.readAddr (s.nextByte 0), [], id, 1⟩ where
  out := ho
  evs := fieldRead_evs ..
  diag := (fieldRead_diag ..).trans (List.append_nil _).symm
  temps := fieldRead_temps ..
  follows := fieldRead_nxt f s ▸
    ⟨rfl, rfl, fun j => (regRead_nextByte _ s j).trans (congrArg s.nextByte (Nat.add_comm j 1))⟩
  pins := fieldRead_pins ..

/-- The value of a deed, stored in T_RB. -/
theorem Deed.Tells.stored {d : Deed Word} {s : State} {v : Word} {l : Line} (h : d.Tells s (.ok v) l)
    (store : Word → Six → Six) :
    (d.andThen fun v => change (State.setRb (store v))).Tells s (.ok ())
      { l with temps := fun T => { l.temps T with rb := store v (l.temps T).rb } } := by
  have kept : (change (State.setRb (store v))).Tells (d.nxt s) (.ok ())
      ⟨[], [], fun T => { T with rb := store v T.rb }, 0⟩ :=
    ⟨rfl, rfl, (List.append_nil _).symm, rfl, ⟨rfl, rfl, fun j => by rw [Nat.zero_add]; rfl⟩, rfl⟩
  simpa [Line.followedBy, Function.comp_def] using h.andThen (k := fun v => change (State.setRb (store v))) kept

theorem reread_decides (s : State) (n : Nat) {f : Field} (tag : 0 ≤ f.widthTag ∧ f.widthTag ≤ 8)
    (store : Word → Six → Six) : (rereadCheck s.handle f store (s.nextByte n)).Decides s n := by
  intro t reached
  rw [← reached.handle, ← reached.nextByte_zero]
  obtain ⟨h0, h8⟩ := tag
  have decoded : bcdDecode f.widthTag (t.nextByte 0) = some (f.decimal (t.nextByte 0)) := bcdDecode_of_valid _ h0 h8
  refine ⟨fun ⟨hlo, hhi⟩ => ⟨(), ?passing⟩, fun bad => ?failing⟩
  case passing => exact (Deed.fieldRead_tells (Deed.fieldRead_ok decoded hlo hhi)).stored store
  case failing =>
    have outside : (f.decimal (t.nextByte 0) : Int) < f.min.toInt ∨ f.max.toInt < f.decimal (t.nextByte 0) := by
      simp only [rereadCheck] at bad
      omega
    exact (Deed.fieldRead_tells (Deed.fieldRead_bad decoded outside)).andThen_error

theorem dateRereads_decided (s : State) : Decided s 8 (dateRereadChecks s.handle s.nextByte) :=
  ⟨reread_decides s 8 (by decide) _, reread_decides s 9 (by decide) _, reread_decides s 10 (by decide) _,
    reread_decides s 11 (by decide) _, reread_decides s 12 (by decide) _, reread_decides s 13 (by decide) _, trivial⟩

theorem Field.decimal_of_decoded {f : Field} {raw : Byte} {n : Nat} (tag : 0 ≤ f.widthTag ∧ f.widthTag ≤ 8)
    (decoded : bcdDecode f.widthTag raw = some n) : f.decimal raw = n :=
  Option.some.inj ((bcdDecode_of_valid raw tag.1 tag.2).symm.trans decoded)

theorem rereadCheck_passes_iff {f : Field} {raw : Byte} {n lo hi : Nat} (tag : 0 ≤ f.widthTag ∧ f.widthTag ≤ 8)
    (decoded : bcdDecode f.widthTag raw = some n) (hmin : f.min.toInt = lo) (hmax : f.max.toInt = hi) (h : Handle)
    (store : Word → Six → Six) : (rereadCheck h f store raw).passes ↔ lo ≤ n ∧ n ≤ hi := by
  simp only [rereadCheck, Field.decimal_of_decoded tag decoded, hmin, hmax]
  omega

/-- The check of line `k + 8` is that of the decimal its byte stands for. -/
theorem dateRereadChecks_passes_iff {h : Handle} {g : Nat → Byte} {k n : Nat} (hk : k < 6) (reread : DateReread g k n) :
    ((dateRereadChecks h g)[k]'hk).passes ↔ DateRereadLegal k n := by
  have fromZero (hi : Nat) : 0 ≤ n ∧ n ≤ hi ↔ n ≤ hi := and_iff_right (Nat.zero_le n)
  interval_cases k
  · exact (rereadCheck_passes_iff (f := .year) (by decide) reread rfl rfl h _).trans (fromZero 99)
  · exact rereadCheck_passes_iff (f := .month) (by decide) reread rfl rfl h _
  · exact rereadCheck_passes_iff (f := .mday) (by decide) reread rfl rfl h _
  · exact (rereadCheck_passes_iff (f := .hours) (by decide) reread rfl rfl h _).trans (fromZero 24)
  · exact (rereadCheck_passes_iff (f := .minutes) (by decide) reread rfl rfl h _).trans (fromZero 59)
  · exact (rereadCheck_passes_iff (f := .seconds) (by decide) reread rfl rfl h _).trans (fromZero 59)

end Sys2Proof.Machine
end

section
/-! WR_DATE (44_date_setup.md R115, R117, R118): its lines in order, where they end, and the sum they answer. -/

namespace Sys2Proof.Machine

/-! ### The two halves -/

theorem dateWrites_eq_inOrder (h : Handle) (g : Nat → Byte) (x : Six) :
    Deed.dateWrites = .inOrder ((dateWriteChecks h g x).map Check.deed) := rfl

theorem Deed.andThen_done (d : Deed Unit) : (d.andThen fun _ => value fun _ => ()) = d := by
  obtain ⟨out, nxt, evs⟩ := d
  simp only [andThen, value, Deed.mk.injEq]
  refine ⟨funext fun s => ?out, funext fun s => ?nxt, funext fun s => ?evs⟩
  case out => cases out s <;> rfl
  case nxt => cases out s <;> rfl
  case evs => cases out s <;> simp

theorem dateRereads_eq_inOrder (h : Handle) (g : Nat → Byte) :
    Deed.dateRereads = .inOrder ((dateRereadChecks h g).map Check.deed) := by
  rw [Deed.dateRereads, ← Deed.andThen_done (.reread .seconds _)]
  rfl

/-- Lines 1 to 7, when every operand lies in its domain. -/
def dateWritesLine (h : Handle) (g : Nat → Byte) (x : Six) : Line := .all ((dateWriteChecks h g x).map Check.line)

/-- Lines 1 to 7, when the operand of line `k + 2` is the first outside its domain. -/
def dateWritesCut (h : Handle) (g : Nat → Byte) (x : Six) (k : Nat) (hk : k < 6) : Line :=
  .all (((dateWriteChecks h g x).take (k + 1)).map Check.line ++
    [((dateWriteChecks h g x)[k + 1]'(Nat.succ_lt_succ hk)).failure])

/-- Lines 8 to 13, when every decimal re-read lies in its domain. -/
def dateRereadsLine (h : Handle) (g : Nat → Byte) : Line := .all ((dateRereadChecks h g).map Check.line)

/-- Lines 8 to 13, when the decimal of line `k + 8` is the first outside its domain. -/
def dateRereadsCut (h : Handle) (g : Nat → Byte) (k : Nat) (hk : k < 6) : Line :=
  .all (((dateRereadChecks h g).take k).map Check.line ++ [((dateRereadChecks h g)[k]'hk).failure])

theorem dateWrites_tells {s : State} (legal : ∀ k, k < 6 → DateOperandLegal s.a k) :
    Deed.dateWrites.Tells s (.ok ()) (dateWritesLine s.handle s.nextByte s.a) :=
  inOrder_passes (dateWrites_decided s) (.refl s) fun j (hj : j < 7) =>
    dateWriteChecks_passes hj fun k hk => legal k (by omega)

theorem dateWrites_tells_cut {s : State} {k : Nat} (hk : k < 6) (legal : ∀ j, j < k → DateOperandLegal s.a j)
    (bad : ¬ DateOperandLegal s.a k) :
    Deed.dateWrites.Tells s (.error .range) (dateWritesCut s.handle s.nextByte s.a k hk) :=
  inOrder_fails (Nat.succ_lt_succ hk) (dateWrites_decided s) (.refl s)
    (fun j hj => dateWriteChecks_passes (by omega) fun i hi => legal i (by omega))
    (dateWriteChecks_passes_succ s.handle s.nextByte s.a hk ▸ bad)

section
variable {s t : State} (reached : Follows s 8 t) {r : Nat → Nat}

include reached

theorem dateRereads_tells (legal : ∀ k, k < 6 → DateReread s.nextByte k (r k) ∧ DateRereadLegal k (r k)) :
    Deed.dateRereads.Tells t (.ok ()) (dateRereadsLine s.handle s.nextByte) := by
  rw [dateRereads_eq_inOrder s.handle s.nextByte]
  refine inOrder_passes (dateRereads_decided s) reached fun k hk => ?_
  obtain ⟨reread, inside⟩ := legal k hk
  exact (dateRereadChecks_passes_iff hk reread).mpr inside

theorem dateRereads_tells_cut {k n : Nat} (hk : k < 6)
    (legal : ∀ j, j < k → DateReread s.nextByte j (r j) ∧ DateRereadLegal j (r j)) (reread : DateReread s.nextByte k n)
    (bad : ¬ DateRereadLegal k n) :
    Deed.dateRereads.Tells t (.error .range) (dateRereadsCut s.handle s.nextByte k hk) := by
  rw [dateRereads_eq_inOrder s.handle s.nextByte]
  refine inOrder_fails hk (dateRereads_decided s) reached (fun j hj => ?_)
    (mt (dateRereadChecks_passes_iff hk reread).mp bad)
  obtain ⟨reread, inside⟩ := legal j hj
  exact (dateRereadChecks_passes_iff (hj.trans hk) reread).mpr inside

end

/-! ### What the halves leave behind -/

theorem dateWritesLine_eq (h : Handle) (g : Nat → Byte) (x : Six) :
    dateWritesLine h g x = ⟨(dateWriteEvents h g x).flatten, (dateDiagnostics g x).flatten,
      fun T => { T with cur := g 6, w := secondsByte x.x5 (g 6) }, 8⟩ :=
  Line.ext rfl rfl rfl rfl

/-- The line of the operand outside its domain issues no event; the lines before it have run (R117). -/
theorem dateWritesCut_spec (h : Handle) (g : Nat → Byte) (x : Six) {k : Nat} (hk : k < 6) :
    (dateWritesCut h g x k hk).events = ((dateWriteEvents h g x).take (k + 1)).flatten ∧
    (dateWritesCut h g x k hk).diag = ((dateDiagnostics g x).take (k + 1)).flatten ∧
    (∀ T, ((dateWritesCut h g x k hk).temps T).cur = T.cur ∧ ((dateWritesCut h g x k hk).temps T).rb = T.rb) ∧
    (dateWritesCut h g x k hk).heard = k + 1 := by
  interval_cases k <;> exact ⟨rfl, rfl, fun _ => ⟨rfl, rfl⟩, rfl⟩

/-- The line of the decimal outside its domain has run, but for the store; no re-read has a diagnostic (R121). -/
theorem dateRereadsCut_spec (h : Handle) (g : Nat → Byte) {k : Nat} (hk : k < 6) :
    (dateRereadsCut h g k hk).events = ((dateRereadEvents h g).take (k + 1)).flatten ∧
    (dateRereadsCut h g k hk).diag = [] ∧
    ∀ T, ((dateRereadsCut h g k hk).temps T).cur = T.cur ∧ ((dateRereadsCut h g k hk).temps T).w = T.w := by
  interval_cases k <;> exact ⟨rfl, rfl, fun _ => ⟨rfl, rfl⟩⟩

/-- The six decimals as words, in the order of the re-reads. -/
def dateDecimals (r : Nat → Nat) : Six :=
  ⟨BitVec.ofNat 32 (r 0), BitVec.ofNat 32 (r 1), BitVec.ofNat 32 (r 2), BitVec.ofNat 32 (r 3), BitVec.ofNat 32 (r 4),
    BitVec.ofNat 32 (r 5)⟩

theorem dateRereadsLine_eq {g : Nat → Byte} {r : Nat → Nat} (reread : ∀ k, k < 6 → DateReread g k (r k)) (h : Handle) :
    dateRereadsLine h g = ⟨(dateRereadEvents h g).flatten, [], fun T => { T with rb := dateDecimals r }, 6⟩ := by
  rw [dateDecimals,
    ← Field.decimal_of_decoded (f := .year) (by decide) (reread 0 (by decide)),
    ← Field.decimal_of_decoded (f := .month) (by decide) (reread 1 (by decide)),
    ← Field.decimal_of_decoded (f := .mday) (by decide) (reread 2 (by decide)),
    ← Field.decimal_of_decoded (f := .hours) (by decide) (reread 3 (by decide)),
    ← Field.decimal_of_decoded (f := .minutes) (by decide) (reread 4 (by decide)),
    ← Field.decimal_of_decoded (f := .seconds) (by decide) (reread 5 (by decide))]
  rfl

/-! ### The sum -/

theorem sub_ofNat_eq_ofInt (v : Word) (n : Nat) : v - BitVec.ofNat 32 n = BitVec.ofInt 32 (v.toInt - n) := by
  rw [Int.sub_eq_add_neg, BitVec.ofInt_add, BitVec.ofInt_neg, BitVec.ofInt_toInt, BitVec.ofInt_natCast,
    BitVec.sub_eq_add_neg]

/-- The sum of the differences of the operands and the decimals re-read (R118). -/
def dateDifference (x : Six) (r : Nat → Nat) : Int :=
  (x.x0.toInt - r 0) + (x.x1.toInt - r 1) + (x.x2.toInt - r 2) + (x.x3.toInt - r 3) + (x.x4.toInt - r 4) +
    (x.x5.toInt - r 5)

theorem differenceSum_eq_ofInt (x : Six) (r : Nat → Nat) :
    differenceSum x (dateDecimals r) = BitVec.ofInt 32 (dateDifference x r) := by
  simp only [differenceSum, dateDecimals, sub_ofNat_eq_ofInt, ← BitVec.ofInt_add, dateDifference]

theorem dateDifference_bounds {x : Six} {r : Nat → Nat} (operands : ∀ k, k < 6 → DateOperandLegal x k)
    (rereads : ∀ k, k < 6 → DateRereadLegal k (r k)) : -282 ≤ dateDifference x r ∧ dateDifference x r ≤ 282 := by
  have o0 : Within 0 99 x.x0 := operands 0 (by decide)
  have o1 : Within 1 12 x.x1 := operands 1 (by decide)
  have o2 : Within 1 31 x.x2 := operands 2 (by decide)
  have o3 : Within 0 24 x.x3 := operands 3 (by decide)
  have o4 : Within 0 59 x.x4 := operands 4 (by decide)
  have o5 : Within 0 59 x.x5 := operands 5 (by decide)
  have r0 : r 0 ≤ 99 := rereads 0 (by decide)
  have r1 : 1 ≤ r 1 ∧ r 1 ≤ 12 := rereads 1 (by decide)
  have r2 : 1 ≤ r 2 ∧ r 2 ≤ 31 := rereads 2 (by decide)
  have r3 : r 3 ≤ 24 := rereads 3 (by decide)
  have r4 : r 4 ≤ 59 := rereads 4 (by decide)
  have r5 : r 5 ≤ 59 := rereads 5 (by decide)
  unfold Within at o0 o1 o2 o3 o4 o5
  unfold dateDifference
  omega

/-! ### The whole operation -/

/-- Where every check passes, all thirteen lines run, and the sum is that of the operands and the decimals re-read. -/
theorem wrDate_tells {s : State} {r : Nat → Nat} (operands : ∀ k, k < 6 → DateOperandLegal s.a k)
    (rereads : ∀ k, k < 6 → DateReread s.nextByte k (r k) ∧ DateRereadLegal k (r k)) :
    Deed.wrDate.Tells s (.ok (BitVec.ofInt 32 (dateDifference s.a r)))
      ⟨(dateWriteEvents s.handle s.nextByte s.a).flatten ++ (dateRereadEvents s.handle s.nextByte).flatten,
        (dateDiagnostics s.nextByte s.a).flatten,
        fun _ => ⟨s.nextByte 6, secondsByte s.a.x5 (s.nextByte 6), dateDecimals r⟩, 14⟩ := by
  have writes := dateWrites_tells operands
  have reads := dateRereads_tells writes.follows rereads
  rw [dateWritesLine_eq] at writes
  rw [dateRereadsLine_eq fun k hk => (rereads k hk).1] at reads
  have sum := Deed.Tells.value (fun t => differenceSum t.a t.temps.rb) (Deed.dateRereads.nxt (Deed.dateWrites.nxt s))
  rw [reads.follows.a, writes.follows.a, reads.temps, differenceSum_eq_ofInt] at sum
  have told : Deed.wrDate.Tells s _ _ := writes.andThen (reads.andThen sum)
  rw [Line.followedBy_idle] at told
  simp only [Line.followedBy, List.append_nil] at told
  exact told

/-- Where the operands pass, the first re-read outside its domain ends the operation after the writes and the re-reads
up to it. -/
theorem wrDate_tells_cut {s : State} {k n : Nat} {r : Nat → Nat} (operands : ∀ j, j < 6 → DateOperandLegal s.a j)
    (hk : k < 6) (rereads : ∀ j, j < k → DateReread s.nextByte j (r j) ∧ DateRereadLegal j (r j))
    (reread : DateReread s.nextByte k n) (bad : ¬ DateRereadLegal k n) :
    Deed.wrDate.Tells s (.error .range)
      ((dateWritesLine s.handle s.nextByte s.a).followedBy (dateRereadsCut s.handle s.nextByte k hk)) := by
  have writes := dateWrites_tells operands
  exact writes.andThen (dateRereads_tells_cut writes.follows hk rereads reread bad).andThen_error

section
variable {s : State} {x : Six} (ready : Ready s) {l : Line}

include ready

/-- A ready block's WR_DATE ends well where its body does, and leaves behind what its body does (R51). -/
theorem completes_wrDate {v : Word}
    (told : Deed.wrDate.Tells (started (.wrDate x.x0 x.x1 x.x2 x.x3 x.x4 x.x5) s) (.ok v) l) :
    ∃ t, exec (.wrDate x.x0 x.x1 x.x2 x.x3 x.x4 x.x5) s = .next t ∧ Completes s t 0x40 v l.events l.diag ∧
      t.temps = l.temps s.temps ∧ t.image = if l.heard = 0 then s.image else restingPins .input := by
  have accepted := ready.accepts_operationOf (i := .wrDate x.x0 x.x1 x.x2 x.x3 x.x4 x.x5) nofun rfl
  obtain ⟨t, ht, hc, htemps, hpins⟩ := completes (by nofun) ready.idle accepted told.out told.evs told.diag
  exact ⟨t, ht, hc, htemps.trans told.temps, hpins.trans told.pins⟩

/-- A ready block's WR_DATE fails where its body does, and leaves behind what its body has done (R126). -/
theorem fails_wrDate {e : FatalError}
    (told : Deed.wrDate.Tells (started (.wrDate x.x0 x.x1 x.x2 x.x3 x.x4 x.x5) s) (.error e) l) :
    ∃ t, exec (.wrDate x.x0 x.x1 x.x2 x.x3 x.x4 x.x5) s = .next t ∧ Fails s t 0x40 e l.events l.diag ∧
      t.temps = l.temps s.temps ∧ t.image = if l.heard = 0 then s.image else restingPins .input := by
  have accepted := ready.accepts_operationOf (i := .wrDate x.x0 x.x1 x.x2 x.x3 x.x4 x.x5) nofun rfl
  obtain ⟨t, ht, hf, htemps, hpins⟩ := fails (by nofun) ready.idle accepted told.out told.evs told.diag
  exact ⟨t, ht, hf, htemps.trans told.temps, hpins.trans told.pins⟩

end

theorem dateWriteEvents_length (h : Handle) (g : Nat → Byte) (x : Six) :
    (dateWriteEvents h g x).flatten.length = 1714 := by
  simp [dateWriteEvents]

theorem dateRereadEvents_length (h : Handle) (g : Nat → Byte) : (dateRereadEvents h g).flatten.length = 666 := by
  simp [dateRereadEvents]

/-- 229 events for each of lines 1 to 6 (R117). -/
theorem dateWriteEvents_take_length (h : Handle) (g : Nat → Byte) (x : Six) {k : Nat} (hk : k < 6) :
    ((dateWriteEvents h g x).take (k + 1)).flatten.length = 229 * (k + 1) := by
  interval_cases k <;> simp [dateWriteEvents]

/-- 111 events for each re-read (R115). -/
theorem dateRereadEvents_take_length (h : Handle) (g : Nat → Byte) {k : Nat} (hk : k < 6) :
    ((dateRereadEvents h g).take (k + 1)).flatten.length = 111 * (k + 1) := by
  interval_cases k <;> simp [dateRereadEvents]

/-- Settles O44: every check passes, and the sum is small enough to be the number its word stands for. -/
theorem wrDateAnswersTheDifferenceSum : Obligations.WrDateAnswersTheDifferenceSum := by
  intro s x r ready operands rereads sum b
  obtain ⟨t, ht, hc, htemps, hpins⟩ := completes_wrDate ready (x := x) (wrDate_tells operands rereads)
  have bounds : -282 ≤ sum ∧ sum ≤ 282 := dateDifference_bounds operands fun k hk => (rereads k hk).2
  obtain ⟨hmin, hmax⟩ := bounds
  have number : t.result.toInt = sum := by
    rw [show t.result = BitVec.ofInt 32 sum from hc.responds.result]
    exact BitVec.toInt_ofInt_eq_self (by decide) (by omega) (by omega)
  have length : t.trace.length = s.trace.length + 2380 := by
    rw [hc.responds.trace, List.length_append, List.length_append, dateWriteEvents_length, dateRereadEvents_length]
  exact ⟨t, ht, hc, number, hmin, hmax, length, htemps, hpins⟩

/-- Settles O45: the check of that operand ends the writes before any event of its line. -/
theorem wrDateStopsAtTheFirstBadOperand : Obligations.WrDateStopsAtTheFirstBadOperand := by
  intro s x k ready hk legal bad
  obtain ⟨t, ht, hf, htemps, hpins⟩ := fails_wrDate ready (x := x) (dateWrites_tells_cut hk legal bad).andThen_error
  obtain ⟨events, diag, temps, heard⟩ := dateWritesCut_spec s.handle s.nextByte x hk
  obtain ⟨cur, rb⟩ := temps s.temps
  have hf : Fails s t 0x40 .range ((dateWriteEvents s.handle s.nextByte x).take (k + 1)).flatten
      ((dateDiagnostics s.nextByte x).take (k + 1)).flatten := events ▸ diag ▸ hf
  have length : t.trace.length = s.trace.length + 229 * (k + 1) := by
    rw [hf.responds.trace, List.length_append, dateWriteEvents_take_length _ _ _ hk]
  exact ⟨t, ht, hf, length, htemps ▸ cur, htemps ▸ rb, hpins.trans (if_neg (heard.trans_ne k.succ_ne_zero))⟩

/-- Settles O46: the writes run whole, and the check of that re-read comes after its transaction. -/
theorem wrDateStopsAtTheFirstBadReread : Obligations.WrDateStopsAtTheFirstBadReread := by
  intro s x k n r ready operands hk rereads reread bad
  obtain ⟨t, ht, hf, htemps, hpins⟩ := fails_wrDate ready (x := x) (wrDate_tells_cut operands hk rereads reread bad)
  obtain ⟨events, diag, temps⟩ := dateRereadsCut_spec s.handle s.nextByte hk
  obtain ⟨cur, w⟩ := temps ((dateWritesLine s.handle s.nextByte x).temps s.temps)
  have hf : Fails s t 0x40 .range ((dateWriteEvents s.handle s.nextByte x).flatten ++
      ((dateRereadEvents s.handle s.nextByte).take (k + 1)).flatten) (dateDiagnostics s.nextByte x).flatten := by
    rw [← events, ← List.append_nil (dateDiagnostics s.nextByte x).flatten, ← diag]
    exact hf
  have length : t.trace.length = s.trace.length + 1714 + 111 * (k + 1) := by
    rw [hf.responds.trace, List.length_append, List.length_append, dateWriteEvents_length,
      dateRereadEvents_take_length _ _ hk, Nat.add_assoc]
  have heard : 8 + (dateRereadsCut s.handle s.nextByte k hk).heard ≠ 0 := by omega
  exact ⟨t, ht, hf, length, htemps ▸ cur, htemps ▸ w, hpins.trans (if_neg heard)⟩

end Sys2Proof.Machine
end

section
/-! The step with nothing to do (60_exceptions.md R132, 93_implementation_defined.md U11). -/

namespace Sys2Proof.Machine

/-- Settles O7, in the two cases of `step` that look at no instruction: nothing is presented, or BUSY is 1. -/
theorem stepWithoutWork : Obligations.StepWithoutWork := by
  refine ⟨fun s hb hs => ?idle, fun s p c rest hb hs => ?busy⟩
  case idle => simp [step, hs, hb]
  case busy => simp [step, hs, hb]

end Sys2Proof.Machine
end

section
/-! Where a fatal error comes from (60_exceptions.md R119 to R121, R126, R128): a body that ends with an error has met a
check of its own that does not pass, and has issued the events before that check. -/

namespace Sys2Proof.Machine

namespace Deed

/-- A range check that ends a deed has met a value outside its bounds (R88). -/
theorem checkRange_error {lo hi v : Word} {s : State} {e : FatalError} (h : (checkRange lo hi v).out s = .error e) :
    e = .range ∧ inRange lo hi v = false := by
  cases passes : inRange lo hi v with
  | true => simp [checkRange, passes] at h
  | false =>
    have raised : FatalError.range = e := by simpa [checkRange, passes] using h
    exact ⟨raised.symm, rfl⟩

/-- Only an invalid tag ends the decoder with an error (R85, R120). -/
theorem decodeByte_error {t : Int} {raw : Byte} {s : State} {e : FatalError} (h : (decodeByte t raw).out s = .error e) :
    e = .configuration ∧ (t < 0 ∨ 8 < t) := by
  by_cases tag : t < 0 ∨ 8 < t
  · have raised : FatalError.configuration = e := by simpa [decodeByte, bcdDecode_eq_none raw tag] using h
    exact ⟨raised.symm, tag⟩
  · simp [decodeByte, bcdDecode_of_valid raw (t := t) (by omega) (by omega)] at h

/-- SETUP fails at its pin check, before any event (R114, R120). -/
theorem setup_error {c d p : Word} {s : State} {e : FatalError} (h : (setup c d p).out s = .error e) :
    e = .configuration ∧ (setup c d p).evs s = [] ∧ ¬ (Within 2 27 c ∧ Within 2 27 d ∧ Within 2 27 p) := by
  by_cases legal : Within 2 27 c ∧ Within 2 27 d ∧ Within 2 27 p
  · obtain ⟨hc, hd, hp⟩ := legal
    rw [setup_ok hc hd hp] at h
    cases h
  · rw [setup_bad legal] at h ⊢
    cases h
    exact ⟨rfl, rfl, legal⟩

/-- A field read fails at its range check, which comes after the transaction (R92, R121). -/
theorem fieldRead_error {wAddr addr : Byte} {min max : Word} {tag : Int} {lo hi : Nat} {s : State} {e : FatalError}
    (hmin : min.toInt = lo) (hmax : max.toInt = hi) (valid : 0 ≤ tag ∧ tag ≤ 8)
    (h : (fieldRead ⟨wAddr, addr, min, max, tag⟩).out s = .error e) :
    FieldFailsAfter s e ((fieldRead ⟨wAddr, addr, min, max, tag⟩).evs s) addr tag lo hi := by
  obtain ⟨h0, h8⟩ := valid
  have decoded := bcdDecode_of_valid (s.nextByte 0) h0 h8
  by_cases inside : lo ≤ tagValue tag.toNat (s.nextByte 0).toNat ∧ tagValue tag.toNat (s.nextByte 0).toNat ≤ hi
  · rw [fieldRead_ok decoded (by dsimp only; omega) (by dsimp only; omega)] at h
    cases h
  · rw [fieldRead_bad decoded (by dsimp only; omega)] at h
    cases h
    exact ⟨rfl, fieldRead_evs .., _, decoded, by omega⟩

/-- A write that can fail only at its range check fails before any event (R93, R121). -/
theorem checked_error {min max v : Word} {lo hi : Int} {k : Word → Deed Word} {s : State} {e : FatalError}
    (hmin : min.toInt = lo) (hmax : max.toInt = hi) (answers : ∃ w, (k v).out s = .ok w)
    (h : ((checkRange min max v).andThen k).out s = .error e) :
    OperandFailsAfter e (((checkRange min max v).andThen k).evs s) lo hi v := by
  cases passes : inRange min max v with
  | true =>
    obtain ⟨w, hw⟩ := answers
    rw [checked_ok passes, hw] at h
    cases h
  | false =>
    rw [checked_bad passes] at h ⊢
    cases h
    have outside := (inRange_false_iff min max v).mp passes
    exact ⟨rfl, rfl, by unfold Within; omega⟩

end Deed

/-! ### WR_DATE -/

/-- A property of the numbers below `n` holds of all of them, or there is a first of which it does not. -/
theorem forall_lt_or_first (p : Nat → Prop) (n : Nat) :
    (∀ k, k < n → p k) ∨ ∃ k, k < n ∧ (∀ j, j < k → p j) ∧ ¬ p k := by
  classical
  by_cases h : ∃ k, k < n ∧ ¬ p k
  · obtain ⟨hk, bad⟩ := Nat.find_spec h
    exact .inr ⟨Nat.find h, hk, fun j hj => by_contra fun hb => Nat.find_min h hj ⟨hj.trans hk, hb⟩, bad⟩
  · exact .inl fun k hk => by_contra fun hb => h ⟨k, hk, hb⟩

/-- The tag of every re-read is valid, so every byte stands for a decimal (42_codec_validator.md R85). -/
theorem dateReread_exists (g : Nat → Byte) : ∀ k, ∃ n, DateReread g k n
  | 0 => ⟨_, bcdDecode_of_valid (g 8) (by decide) (by decide)⟩
  | 1 => ⟨_, bcdDecode_of_valid (g 9) (by decide) (by decide)⟩
  | 2 => ⟨_, bcdDecode_of_valid (g 10) (by decide) (by decide)⟩
  | 3 => ⟨_, bcdDecode_of_valid (g 11) (by decide) (by decide)⟩
  | 4 => ⟨_, bcdDecode_of_valid (g 12) (by decide) (by decide)⟩
  | _ + 5 => ⟨_, bcdDecode_of_valid (g 13) (by decide) (by decide)⟩

/-- WR_DATE fails at the first operand or, with legal operands, at the first re-read outside its domain (R115, R117). -/
theorem Deed.wrDate_error {s : State} {e : FatalError} (h : wrDate.out s = .error e) :
    DateFailsAfter s e (wrDate.evs s) s.a := by
  rcases forall_lt_or_first (DateOperandLegal s.a) 6 with operands | ⟨k, hk, before, bad⟩
  · choose r decoded using dateReread_exists s.nextByte
    rcases forall_lt_or_first (fun k => DateRereadLegal k (r k)) 6 with rereads | ⟨k, hk, before, bad⟩
    · have told := wrDate_tells operands fun k hk => ⟨decoded k, rereads k hk⟩
      cases told.out.symm.trans h
    · have told := wrDate_tells_cut operands hk (fun j hj => ⟨decoded j, before j hj⟩) (decoded k) bad
      obtain ⟨events, -⟩ := dateRereadsCut_spec s.handle s.nextByte hk
      cases told.out.symm.trans h
      refine ⟨rfl, k, hk, .inr ⟨operands, fun j hj => ⟨r j, decoded j, before j hj⟩, ⟨r k, decoded k, bad⟩, ?_⟩⟩
      rw [told.evs, ← events]
      rfl
  · have told : wrDate.Tells s _ _ := (dateWrites_tells_cut hk before bad).andThen_error
    obtain ⟨events, -⟩ := dateWritesCut_spec s.handle s.nextByte s.a hk
    cases told.out.symm.trans h
    exact ⟨rfl, k, hk, .inl ⟨before, bad, told.evs.trans events⟩⟩

/-! ### Every instruction -/

/-- An instruction whose body is the deed `d`, a range check of its operand before anything else, fails as that does
(R93). -/
theorem operandFailsAfter_of_error {i : Instr} {d : Deed Word} {min max v : Word} {lo hi : Int} {k : Word → Deed Word}
    {s : State} {e : FatalError} (al : Alike (deedOf i) d (started i s)) (body : d = (Deed.checkRange min max v).andThen k)
    (hmin : min.toInt = lo) (hmax : max.toInt = hi) (answers : ∃ w, (k v).out (started i s) = .ok w)
    (h : (deedOf i).out (started i s) = .error e) : OperandFailsAfter e ((deedOf i).evs (started i s)) lo hi v := by
  rw [al.evs, body]
  rw [al.out, body] at h
  exact Deed.checked_error hmin hmax answers h

/-- The body of an instruction that ends with an error has met a failing check of that instruction, and its events are
those before the check (R126, R128). -/
theorem failsAfter_of_error {i : Instr} {s : State} {e : FatalError} (h : (deedOf i).out (started i s) = .error e) :
    FailsAfter s e ((deedOf i).evs (started i s)) i := by
  cases i
  case setup c d p =>
    have body := setup_alike c d p s
    obtain ⟨he, silent, illegal⟩ := Deed.setup_error (body.out.symm.trans h)
    exact ⟨he, body.evs.trans silent, illegal⟩
  case rdSec | rdMin | rdHour | rdMday | rdMon | rdWday | rdYear =>
    exact Deed.fieldRead_error rfl rfl (by decide) h
  case wrSec v | wrMin v | wrHour v | wrMday v | wrMon v | wrWday v | wrYear v =>
    exact operandFailsAfter_of_error (Deed.alike_given rfl) rfl rfl rfl ⟨_, rfl⟩ h
  case wrDate y mo dd hr mi se => exact Deed.wrDate_error h
  case bcdDec t raw =>
    have body := alike_bcdDec t raw s
    obtain ⟨he, tag⟩ := Deed.decodeByte_error (body.out.symm.trans h)
    exact ⟨he, body.evs, tag⟩
  case chkRng lo hi v =>
    have body := alike_chkRng lo hi v s
    obtain ⟨he, outside⟩ := Deed.checkRange_error (body.out.symm.trans h)
    exact ⟨he, body.evs, (inRange_false_iff lo hi v).mp outside⟩
  -- without a check the body answers
  all_goals cases h

/-- A body that ends with an error keeps the handle and CONFIGURED, touches no pin or leaves them low, and leaves PHASE
at IDLE (R126, R128). -/
theorem body_of_error {i : Instr} {s : State} {e : FatalError} (h : (deedOf i).out (started i s) = .error e) :
    ((deedOf i).nxt (started i s)).handle = s.handle ∧
      ((deedOf i).nxt (started i s)).configured = s.configured ∧
      (((deedOf i).nxt (started i s)).image = s.image ∨ ∃ m, ((deedOf i).nxt (started i s)).image = restingPins m) ∧
      (s.engine.phase = .idle → ((deedOf i).nxt (started i s)).engine.phase = .idle) := by
  rcases body_cases i s with ⟨c, d, p, -, ⟨v, hd, -, ho, -⟩ | ⟨-, hn, -⟩⟩ | ⟨-, ti⟩
  · cases ho.symm.trans h
  · rw [hn]
    exact ⟨rfl, rfl, .inl rfl, id⟩
  · exact ⟨ti.handle _, ti.configured _, ti.pins _, ti.idle (started i s)⟩

/-- Settles O48: a response of an error kind is a body's that ended with an error, and `takeFatal` sets RESULT and, under
HALT alone, FAULT_KIND. -/
theorem fatalErrorEntryIsPrecise : Obligations.FatalErrorEntryIsPrecise := by
  intro i s t hb phase hc h kind
  obtain ⟨-, ⟨-, rfl⟩ | ⟨accepted, rfl⟩⟩ := exec_next_undisturbed hc h
  · rcases kind with kind | kind <;> cases kind
  · cases out : (deedOf i).out (started i s) with
    | ok v =>
      obtain ⟨rsp, -⟩ := outcome_ok out
      rw [rsp] at kind
      rcases kind with kind | kind <;> cases kind
    | error e =>
      obtain ⟨nofault, -⟩ := (acceptance_none_iff _ _).mp accepted
      obtain ⟨rsp, result, fault⟩ := outcome_error out
      obtain ⟨handle, configured, pins, idle⟩ := body_of_error out
      have st := deedOf_steady i (started i s)
      have en := outcome_ends (deedOf i) (started i s)
      rw [en.trace, en.engine, en.handle, en.configured, en.image, rsp, fault, st.policy, st.faultKind]
      refine ⟨⟨e, _, failsAfter_of_error out, ?code, deedOf_trace i _⟩, result, en.busy, en.seq, idle phase, handle,
        configured, pins, fun halt => ?halt, fun report => ?report, nofault⟩
      case code => cases e <;> simp [FatalError.rsp]
      case halt =>
        rw [show (started i s).policy = .halt from halt]
        cases e <;> rfl
      case report =>
        rw [show (started i s).policy = .report from report]
        rfl

end Sys2Proof.Machine
end

section
/-! The reset input (70_reset_and_hazards.md R133; 92_eei_decisions.md D18): between operations, and at any moment of what
is presented. -/

namespace Sys2Proof.Machine

theorem State.applyReset_resetValues (s : State) : ResetValues s.applyReset :=
  ⟨rfl, rfl, rfl, rfl, ⟨rfl, rfl, rfl, rfl⟩, rfl, rfl⟩

/-- The script is none of the registers that reset gives a value. -/
theorem ResetValues.with_script {t : State} (h : ResetValues t) (rest : List HostInput) :
    ResetValues { t with script := rest } :=
  ⟨h.configured, h.faultKind, h.result, h.rspKind, ⟨h.rest.busy, h.rest.seq, h.rest.phase, h.rest.cut⟩, h.trace, h.diag⟩

/-- With every register of STATUS reset the host reads 0 (10_state.md R21). -/
theorem ResetValues.status {t : State} (h : ResetValues t) : t.status = 0 := by
  rw [State.status, h.faultKind, h.configured, h.rest.busy]
  rfl

/-- Reset leaves the inputs and the parameters as they were (log entry 6). -/
theorem SameOutside.applyReset {s m : State} (h : SameOutside s m) : SameOutside s m.applyReset :=
  ⟨h.cmd, h.script, h.policy⟩

/-- The case of `step` that takes the reset input, whether or not the block is busy (R133). -/
theorem step_of_reset {s : State} {rest : List HostInput} (hs : s.script = .reset :: rest) :
    step s = .next { s.applyReset with script := rest } := by
  simp [step, hs]

/-- Settles O9: `applyReset` writes each register of R23 and leaves the pin image alone. -/
theorem resetInputClearsTheBlock : Obligations.ResetInputClearsTheBlock := by
  intro s rest hs
  have values := s.applyReset_resetValues.with_script rest
  exact ⟨_, step_of_reset hs, values.configured, values.faultKind, values.result, values.rspKind, values.rest,
    values.trace, values.diag, values.status, rfl, rfl, rfl, rfl, rfl, rfl⟩

/-! ### In the middle of an operation -/

/-- What no acceptance let in has no middle (R14). -/
theorem midState_eq_none {i : Instr} {k : Nat} {s : State}
    (h : s.acceptance (operationOf i).head = none → ((deedOf i).evs (started i s)).length ≤ k) :
    midState i k s = none := by
  rw [Option.eq_none_iff_forall_ne_some]
  intro m hm
  obtain ⟨-, accepted, within, -⟩ := midState_some hm
  exact absurd (h accepted) within.not_ge

/-- A refused instruction meets a reset scheduled with it before its response (R133; log entry 2). -/
theorem exec_reset_refused {i : Instr} {s : State} (hb : s.busy = false) (hp : s.resetPending = true)
    (ha : s.acceptance (operationOf i).head ≠ none) : exec i s = .next s.applyReset := by
  rw [exec_eq_run, runOperation, if_neg (by simp [hb])]
  cases h : s.acceptance (operationOf i).head with
  | none => exact absurd h ha
  | some c => rw [← State.respond_of_pending hp State.refuse]

/-- A reset with an event left to come before abandons the operation in the state of its middle: the body goes to that
event as it would go to a primitive that hangs there (R14, R133). -/
theorem exec_reset_midway {i : Instr} {k : Nat} {s m : State} (hc : s.cut = some ⟨k, .reset⟩)
    (hm : midState i k s = some m) :
    ∃ m', SameOutside s m' ∧ exec i s = .next m'.applyReset ∧ m'.image = m.image := by
  obtain ⟨hb, accepted, -, -, -, st, run⟩ := midState_some hm
  have body := bodies_kindBlind i { started i s with cut := some ⟨k, .hang⟩ }
  have scheduled : State.toReset { started i s with cut := some ⟨k, .hang⟩ } = started i s := by
    rw [State.toReset, started, State.begin, hc]
    rfl
  rw [scheduled, run] at body
  exact ⟨m.toReset, ⟨st.cmd, st.script, st.policy⟩, (exec_accepted hb accepted).trans (congrArg conclude body), rfl⟩

/-- The pin image an accepted instruction's body leaves is the same whatever disturbance is scheduled, if none cuts it. -/
theorem deedOf_image_cut (i : Instr) (s : State) (c : Option Cut) :
    ((deedOf i).nxt (started i { s with cut := c })).image = ((deedOf i).nxt (started i s)).image := by
  have agree := bodiesAgree (s := s) (s' := { s with cut := c }) rfl rfl rfl i
  rw [deedOf_image, deedOf_image, agree.evs, agree.handle]

/-- Where a scheduled reset cuts no event of an instruction, it comes before the response and leaves the pin image that the
undisturbed instruction leaves (R133; log entry 2). -/
theorem exec_reset_last {i : Instr} {k : Nat} {s : State} (hb : s.busy = false) (hc : s.cut = some ⟨k, .reset⟩)
    (hn : midState i k s = none) :
    ∃ m u, SameOutside s m ∧ exec i s = .next m.applyReset ∧ exec i { s with cut := none } = .next u ∧
      m.image = u.image := by
  by_cases ha : s.acceptance (operationOf i).head = none
  · have late : ((deedOf i).evs (started i s)).length ≤ k := by
      by_contra within
      have middle := midState_isSome hb ha (not_le.mp within)
      rw [hn] at middle
      cases middle
    have st := deedOf_steady i (started i s)
    have undisturbed : exec i { s with cut := none } = .next _ :=
      (exec_undisturbed (s := { s with cut := none }) hb ha rfl).trans (ended_eq _ _)
    refine ⟨_, _, ⟨st.cmd, st.script, st.policy⟩, exec_reset_late hb ha hc late, undisturbed, ?_⟩
    rw [(outcome_ends _ _).image]
    exact (deedOf_image_cut i s none).symm
  · have pending := (State.resetPending_iff s).mpr ⟨k, hc⟩
    exact ⟨s, _, ⟨rfl, rfl, rfl⟩, exec_reset_refused hb pending ha, exec_refused hb rfl ha, rfl⟩

/-- What is no instruction meets a reset scheduled with it before its response (R133; log entry 2). -/
theorem step_of_decode_error_of_reset {s : State} {p : Presented} {k : Nat} {rest : List HostInput} {e : DecodeError}
    (hb : s.busy = false) (hs : s.script = .present p (some ⟨k, .reset⟩) :: rest) (hd : decode p = .error e) :
    step s = .next (s.sample p (some ⟨k, .reset⟩) rest).applyReset := by
  have pending : (s.sample p (some ⟨k, .reset⟩) rest).resetPending = true :=
    (State.resetPending_iff _).mpr ⟨k, State.sample_cut ..⟩
  rw [← State.respond_of_pending pending State.refuse]
  simp [step, hs, hb, hd, State.rejectUndecoded]

/-- Settles O10: with an event left to come before, the reset finds the state of the middle; otherwise the operation, or
the refusal, is over but for its response. -/
theorem resetCutsAnOperation : Obligations.ResetCutsAnOperation := by
  refine ⟨fun i k s hb hc => ?instruction, fun s p k rest e hb hs hd => ?undecoded⟩
  case instruction =>
    cases hm : midState i k s with
    | some m =>
      obtain ⟨m', outside, run, image⟩ := exec_reset_midway hc hm
      exact ⟨_, run, m'.applyReset_resetValues, outside.applyReset, fun _ h => by cases h; exact image, fun h => nomatch h⟩
    | none =>
      obtain ⟨m, u, outside, run, undisturbed, image⟩ := exec_reset_last hb hc hm
      exact ⟨_, run, m.applyReset_resetValues, outside.applyReset, (fun _ h => nomatch h), fun _ => ⟨u, undisturbed, image⟩⟩
  case undecoded =>
    exact ⟨_, step_of_decode_error_of_reset hb hs hd, State.applyReset_resetValues _, State.sample_image ..,
      State.sample_script .., State.sample_policy ..⟩

end Sys2Proof.Machine
end

section
/-! Every step answers (70_reset_and_hazards.md R153, R154; 92_eei_decisions.md D10): only a GPIO primitive that never
returns keeps the block from it. -/

namespace Sys2Proof.Machine

/-- An instruction presented to a block that is not busy answers, or a reset abandons it, and the block is not busy after
it, unless a primitive hangs (00_scope.md R8). -/
theorem exec_answers {s : State} (hb : s.busy = false) (hang : ∀ k, s.cut ≠ some ⟨k, .hang⟩) (i : Instr) :
    ∃ t, exec i s = .next t ∧ t.busy = false := by
  rcases exec_cases i s with ⟨busy, -⟩ | ⟨-, -, -, h⟩ | ⟨-, -, -, h⟩ | ⟨-, -, m, -, h⟩ | ⟨-, -, ⟨k, hc⟩, -⟩
  · rw [hb] at busy
    cases busy
  · exact ⟨_, h, hb⟩
  · exact ⟨_, h, (outcome_ends _ _).busy⟩
  · exact ⟨_, h, rfl⟩
  · exact absurd hc (hang k)

/-- The rejection of what is no instruction leaves the block not busy: it is refused, or a reset comes first (R50, R133). -/
theorem rejectUndecoded_busy {s : State} (hb : s.busy = false) : s.rejectUndecoded.busy = false := by
  rcases rejectUndecoded_cases s with ⟨-, h⟩ | ⟨-, h⟩
  · rw [h, State.refuse_busy, hb]
  · rw [h, State.applyReset_busy]

/-- Where no primitive is stuck, what is presented is not scheduled with a primitive that hangs (U14). -/
theorem NoHang.sample_cut {s : State} (h : NoHang s) {p : Presented} {c : Option Cut} {rest : List HostInput}
    (hs : s.script = .present p c :: rest) (k : Nat) : (s.sample p c rest).cut ≠ some ⟨k, .hang⟩ := by
  rw [State.sample_cut]
  rintro rfl
  have kind : Disturbance.hang = .reset := h p ⟨k, .hang⟩ (by rw [hs]; rfl)
  cases kind

/-- Settles O53, over what a step can do: idle, take the reset input, reject what is no instruction, or run an instruction,
whose body ends with an outcome or is cut by a reset. -/
theorem everyStepAnswersUnlessAPrimitiveHangs : Obligations.EveryStepAnswersUnlessAPrimitiveHangs := by
  intro s hb noHang
  rcases step_cases s with ⟨-, h⟩ | ⟨rest, -, h⟩ | ⟨p, c, rest, hs, ⟨busy, -⟩ | ⟨-, i, -, h⟩ | ⟨-, e, -, h⟩⟩
  · exact ⟨s, h.trans (if_neg (by simp [hb])), hb⟩
  · exact ⟨_, h, rfl⟩
  · rw [hb] at busy
    cases busy
  · rw [h]
    exact exec_answers ((State.sample_busy ..).trans hb) (noHang.sample_cut hs) i
  · exact ⟨_, h, rejectUndecoded_busy ((State.sample_busy ..).trans hb)⟩

end Sys2Proof.Machine
end

section
/-! The size of the operations that end well (70_reset_and_hazards.md R154). -/

namespace Sys2Proof.Machine

/-- Every body that ends well has the size of its row in the table of R154; a wire command that of its transaction. -/
theorem deedOf_sized (i : Instr) : (deedOf i).Sized (busSize i) := by
  cases i with
  | setup c d e => exact .given fun _ => .given fun _ => .given fun _ => .setup ..
  | rdSec | rdMin | rdHour | rdMday | rdMon | rdWday | rdYear => exact .fieldRead _
  | wrSec v => exact .given .wrSec
  | wrMin v | wrHour v | wrMday v | wrMon v | wrWday v | wrYear v => exact .given fun _ => .packedWrite ..
  | rdCh | rd24h | rdPm | rdWp => exact .flagRead ..
  | wrCh h => exact .given fun _ => .modifySeconds _
  | wrWp p => exact .given .wrWp
  | wrDate y mo dd h mi se => exact .wrDate
  | bcdEnc d => exact .none fun _ => rfl
  | bcdDec t raw => exact .given fun _ => .givenByte fun _ => .decodeByte ..
  | chkRng lo hi v => exact .given fun _ => .given fun _ => .given fun _ => .checkRange ..
  | xRd a => exact .givenByte .wireRead
  | xWr a v => exact .givenByte fun _ => .givenByte fun _ => .wireWrite ..
  | xWrchk a v => exact .givenByte fun _ => .givenByte fun _ => .toWord (.writeAndCheck ..) _
  | wSec v | wMin v | wHour v | wMday v | wMon v | wWday v | wYear v | wWp v => exact .wireWrite ..
  | rSec | rMin | rHour | rMday | rMon | rWday | rYear | rWp => exact .wireRead _

/-- An operation whose response is OK is one whose body gave a value (30_encoding.md R51). -/
theorem out_of_outcome_ok {d : Deed Word} {b : State} (h : (d.outcome b).rspKind = .ok) : ∃ v, d.out b = .ok v := by
  cases ho : d.out b with
  | ok v => exact ⟨v, rfl⟩
  | error e =>
    obtain ⟨rsp, -⟩ := outcome_error ho
    rw [rsp] at h
    cases e <;> cases h

/-- Settles O58: an operation that answers OK was accepted, and what it adds to the trace are the events of its body. -/
theorem operationsHaveTheirStatedSize : Obligations.OperationsHaveTheirStatedSize := by
  intro i s t hb hc h ok
  obtain ⟨-, ⟨-, rfl⟩ | ⟨-, rfl⟩⟩ := exec_next_undisturbed hc h
  · cases ok
  · obtain ⟨v, out⟩ := out_of_outcome_ok ok
    exact ⟨_, (outcome_ends _ _).trace.trans (deedOf_trace i _), ((deedOf_sized i).size _ v out).symm⟩

end Sys2Proof.Machine
end

section
/-! A chip that answers the same level to every `Read` (70_reset_and_hazards.md R145). -/

namespace Sys2Proof.Machine

section
variable {i : Instr} {opc addr : Byte} {tag : Int} {lo hi n : Nat} {s : State}

/-- The response of a field read whose decoded value lies in the domain (43_register_accessors.md R92). -/
theorem AnswersField.response (h : AnswersField i opc addr tag lo hi) (r : Ready s)
    (decoded : bcdDecode tag (s.nextByte 0) = some n) (inside : lo ≤ n ∧ n ≤ hi) :
    ∃ t, exec i s = .next t ∧ t.rspKind = .ok ∧ t.result = BitVec.ofNat 32 n := by
  obtain ⟨t, run, completes, -⟩ := h s n r decoded inside.1 inside.2
  exact ⟨t, run, completes.responds.rspKind, completes.responds.result⟩

/-- The response of a field read whose decoded value lies outside the domain (R92, R126). -/
theorem RejectsField.response (h : RejectsField i opc addr tag lo hi) (r : Ready s)
    (decoded : bcdDecode tag (s.nextByte 0) = some n) (outside : n < lo ∨ hi < n) :
    ∃ t, exec i s = .next t ∧ t.rspKind = .rangeError ∧ (s.policy = .halt → t.faultKind = .range) := by
  obtain ⟨t, run, fails, -⟩ := h s n r decoded outside
  refine ⟨t, run, fails.responds.rspKind, fun halt => ?_⟩
  rw [fails.faultKind, halt]

end

/-- Settles O30: the byte decodes to 0 under every tag, or to 165, 85, 45, 25 and 7 under the tags 8, 7, 6, 5 and 3,
and each field's domain decides. -/
theorem silentBusIsFatalForSomeReads : Obligations.SilentBusIsFatalForSomeReads := by
  intro s r
  obtain ⟨okSec, okMin, okHour, -, -, okWday, okYear⟩ := fieldReadsAnswerTheDecodedValue
  obtain ⟨badSec, badMin, badHour, badMday, badMon, badWday, badYear⟩ := fieldReadsRejectABadByte
  refine ⟨fun zeros => ?zeros, fun ones => ?ones⟩
  case zeros =>
    have decoded (tag : Int) (h : bcdDecode tag 0x00 = some 0) : bcdDecode tag (s.nextByte 0) = some 0 := zeros ▸ h
    simp only [List.forall_mem_cons, List.not_mem_nil, false_implies, implies_true, and_true]
    exact ⟨⟨okSec.response r (decoded 7 rfl) (by decide), okMin.response r (decoded 7 rfl) (by decide),
        okHour.response r (decoded 6 rfl) (by decide), okYear.response r (decoded 8 rfl) (by decide)⟩,
      badMday.response r (decoded 6 rfl) (by decide), badMon.response r (decoded 5 rfl) (by decide),
      badWday.response r (decoded 3 rfl) (by decide)⟩
  case ones =>
    have decoded (tag : Int) (n : Nat) (h : bcdDecode tag 0xFF = some n) : bcdDecode tag (s.nextByte 0) = some n :=
      ones ▸ h
    simp only [List.forall_mem_cons, List.not_mem_nil, false_implies, implies_true, and_true]
    exact ⟨okWday.response r (decoded 3 7 rfl) (by decide), badSec.response r (decoded 7 85 rfl) (by decide),
      badMin.response r (decoded 7 85 rfl) (by decide), badHour.response r (decoded 6 45 rfl) (by decide),
      badMday.response r (decoded 6 45 rfl) (by decide), badMon.response r (decoded 5 25 rfl) (by decide),
      badYear.response r (decoded 8 165 rfl) (by decide)⟩

end Sys2Proof.Machine
end
